-- ==== Sys2Proof/Word.lean ====
section
/-! DEFINITION. The words of the block and nothing else: the widths of 00_scope.md rule R7. -/

namespace Sys2Proof

/-- A byte of the DMA space, and a symbol (R6: "one byte (0–255)"). -/
abbrev Byte := BitVec 8

/-- A host register of REG_W = 32 bits (R7), also a DMA address or a buffer length. -/
abbrev Word := BitVec 32

/-- A 9-bit arena index as the NODE fields, ROOT and NODE_COUNT hold it (R29, R33). -/
abbrev NodeIndex := BitVec 9

/-- A node weight of WEIGHT_W = 40 bits (R7, R33). -/
abbrev Weight := BitVec 40

/-- A bit string, first bit first; `false` is `0` (left), `true` is `1` (right) (R10). -/
abbrev Bits := List Bool

end Sys2Proof
end

