-- ==== Sys2Proof/Syntax.lean ====
section
/-! DEFINITION. The command set: one constructor per row of spec/opcode_table.json. -/

namespace Sys2Proof

/-- HUFFCORE command set, revision 1 (00_scope.md R1; the opcode map is 30_encoding.md R81).
A command word has no register, immediate or mode field (R80), so no constructor has an argument. -/
inductive Instr where
  | build        -- 0x01 BUILD, 41_tree_builder.md R122
  | gencodes     -- 0x02 GENCODES, 42_code_generator.md R141
  | serialize    -- 0x03 SERIALIZE, 43_tree_codec.md R161
  | deserialize  -- 0x04 DESERIALIZE, 43_tree_codec.md R168
  | encode       -- 0x05 ENCODE, 44_bit_packer.md R191
  | decode       -- 0x06 DECODE, 45_bit_unpacker.md R210
  | softReset    -- 0x0F SOFT_RESET, 46_control.md R230
  deriving DecidableEq, Repr

end Sys2Proof
end

