-- ==== Sys2Proof/WellFormed.lean ====
section
/-! DEFINITION. What a well-formed command is.
A command has no operand field (30_encoding.md R80), so every term of `Instr` is well formed; the checks that
can fail are those on the 32-bit command word (R82). -/

namespace Sys2Proof

/-- Every command is well formed: there is no operand to bound (R80). -/
def Instr.wellFormed : Instr → Bool
  | .build => true
  | .gencodes => true
  | .serialize => true
  | .deserialize => true
  | .encode => true
  | .decode => true
  | .softReset => true

/-- The OPCODE field, bits 7:0 of a command word (R80). -/
def opcodeField (w : Word) : Byte := w.extractLsb' 0 8

/-- The RSVD field, bits 31:8 of a command word (R80). -/
def rsvdField (w : Word) : BitVec 24 := w.extractLsb' 8 24

/-- RSVD "must be 0" (R80). -/
def rsvdIsZero (w : Word) : Bool := rsvdField w == 0

/-- The OPCODE is one of the seven of R81. -/
def opcodeIsDefined (w : Word) : Bool :=
  [0x01#8, 0x02#8, 0x03#8, 0x04#8, 0x05#8, 0x06#8, 0x0F#8].contains (opcodeField w)

/-- A command word that selects a command (R82). -/
def wordWellFormed (w : Word) : Bool := rsvdIsZero w && opcodeIsDefined w

end Sys2Proof
end

