-- ==== Sys2Proof/Decode.lean ====
section
/-! DEFINITION. The command-word decoder and encoder (30_encoding.md R80 to R85). -/

namespace Sys2Proof

/-- Why a command word selects no command. Both reasons complete with BAD_CMD (R82, R84). -/
inductive DecodeReject where
  /-- CMD[31:8] is not 0 (R82). -/
  | reservedBitsSet
  /-- CMD[7:0] is none of the seven opcodes of R81. -/
  | undefinedOpcode
  /-- The bytes given are not exactly one 32-bit word (R85). -/
  | notOneWord
  deriving DecidableEq, Repr

/-- What the decoder answers. -/
inductive DecodeResult where
  | ok (i : Instr)
  | reject (r : DecodeReject)
  deriving DecidableEq, Repr

/-- The opcode map (R81). -/
def decodeOpcode (op : Byte) : Option Instr :=
  if op = 0x01 then some .build
  else if op = 0x02 then some .gencodes
  else if op = 0x03 then some .serialize
  else if op = 0x04 then some .deserialize
  else if op = 0x05 then some .encode
  else if op = 0x06 then some .decode
  else if op = 0x0F then some .softReset
  else none

/-- Decoding, total on all 2^32 words (R82). -/
def decodeWord (w : Word) : DecodeResult :=
  if rsvdIsZero w then
    match decodeOpcode (opcodeField w) with
    | some i => .ok i
    | none => .reject .undefinedOpcode
  else .reject .reservedBitsSet

/-- A 32-bit register word from its byte lanes, lane 0 (bits 7:0) first (20_memory.md R68). -/
def wordOfLanes (b0 b1 b2 b3 : Byte) : Word := b3 ++ b2 ++ b1 ++ b0

/-- The decoder on byte lanes: a command is exactly one 32-bit word (R85), little-endian in its lanes (R68). -/
def decodeBytes : List Byte → DecodeResult
  | [b0, b1, b2, b3] => decodeWord (wordOfLanes b0 b1 b2 b3)
  | _ => .reject .notOneWord

/-- The opcode of a command (R81). -/
def Instr.opcode : Instr → Byte
  | .build => 0x01
  | .gencodes => 0x02
  | .serialize => 0x03
  | .deserialize => 0x04
  | .encode => 0x05
  | .decode => 0x06
  | .softReset => 0x0F

/-- The command word of a command: RSVD = 0 and its OPCODE (R80, R81). -/
def encode (i : Instr) : Word := 0#24 ++ i.opcode

/-- The four byte lanes of a command word, lane 0 first (R68). -/
def encodeBytes (i : Instr) : List Byte :=
  [(encode i).extractLsb' 0 8, (encode i).extractLsb' 8 8, (encode i).extractLsb' 16 8, (encode i).extractLsb' 24 8]

/-- The instruction, if the decoder gives one. -/
def DecodeResult.toOption : DecodeResult → Option Instr
  | .ok i => some i
  | .reject _ => none

/-- The byte lanes of a word of `nbits` table bits, numbered as the opcode table numbers them; the bits above
`nbits` are 0. -/
def tableLanes (nbits w : Nat) : List Byte :=
  let v := w % 2 ^ nbits
  [BitVec.ofNat 8 v, BitVec.ofNat 8 (v / 2 ^ 8), BitVec.ofNat 8 (v / 2 ^ 16), BitVec.ofNat 8 (v / 2 ^ 24)]

/-- The instruction the decoder reads from a word numbered as spec/opcode_table.json numbers its bits. -/
def decodeTableWord (nbits w : Nat) : Option Instr :=
  (decodeBytes (tableLanes nbits w)).toOption

end Sys2Proof
end

