-- ==== Sys2Proof/Config.lean ====
section
/-! DEFINITION. The implementation parameters (00_scope.md R7, R8) and the free values.
An `opaque` constant has no body: nothing in Lean can prove a value of it, so a claim holds whatever it is. -/

namespace Sys2Proof.Config

/-- MAX_LEAVES (R7). -/
def maxLeaves : Nat := 256

/-- NODE_CAP = 511 arena entries (R7, R33). -/
def nodeCap : Nat := 511

/-- MAX_CODE_LEN = 255 bits (R7, R145). -/
def maxCodeLen : Nat := 255

/-- REG_WINDOW = 0x8000 bytes (R7, R21). -/
def regWindow : Nat := 0x8000

/-- The DMA space has 2^32 bytes (R60). -/
def dmaSize : Nat := 2 ^ 32

/-- A bound on the depth of a walk over the arena. A path with more nodes than there are 9-bit indices visits one
index twice, so a walk that reaches this depth is in a cycle and its pseudocode never ends; on the trees of R44
a path has at most 256 nodes. -/
def walkDepth : Nat := 512

/-- A bound on the nesting of `parse` (R168): each nested call has allocated one more entry, and a call that
finds 511 allocated raises FMT_CAPACITY or an earlier error before it nests. -/
def parseDepth : Nat := 512

/-- REG_BASE, the host address of register offset 0 (R8). "No rule of this spec depends on its value." -/
opaque regBase : Nat

/-- Free value: the n-th unspecified byte. Each byte of a destination window that R67 or R270 leaves unspecified.
Assumption log entry 6. -/
opaque freeByte : Nat → Byte

/-- Free value: the n-th unspecified 32-bit read result, for a HOST read while BUSY (R43, R231 `draw32`).
Assumption log entry 6. -/
opaque freeWord : Nat → Word

/-- Free value: the word `loadfreq` writes for a count that no 32-bit value states (30_encoding.md R86, R87).
DESIGN CHOICE, assumption log entry 14. -/
opaque countBeyondWord : Nat → Word

/-- The host address of a register offset (R21: "at host address REG_BASE"). -/
def hostAddress (off : Nat) : Nat := regBase + off

end Sys2Proof.Config
end

