-- ==== Sys2Proof/Machine/State.lean ====
section
/-! DEFINITION. The state of the block, of the DMA space and of what drives them, as plain data (10_state.md). -/

namespace Sys2Proof.Machine

/-- STATUS.TREE_STATE (10_state.md R30). The value 3 "is never produced" (R23) and has no constructor. -/
inductive TreeState where
  | none    -- 0: no tree is held
  | empty   -- 1: the "no tree" result of an empty alphabet
  | valid   -- 2: the arena holds a tree rooted at ROOT
  deriving DecidableEq, Repr

/-- STATUS.ERRCODE (60_exceptions.md R240). 0xE and 0xF are "never produced" and have no constructor. -/
inductive ErrCode where
  | none               -- 0x0
  | fmtTruncated       -- 0x1
  | fmtBadTag          -- 0x2
  | fmtCapacity        -- 0x3
  | internalInvariant  -- 0x4
  | noTree             -- 0x5
  | noCodes            -- 0x6
  | dstOverflow        -- 0x7
  | payloadUnderrun    -- 0x8
  | addrRange          -- 0x9
  | overlap            -- 0xA
  | badCmd             -- 0xB
  | locked             -- 0xC
  | busError           -- 0xD
  deriving DecidableEq, Repr

/-- NODE[i].kind (R33). -/
inductive Kind where
  | internal  -- 0
  | leaf      -- 1
  deriving DecidableEq, Repr

/-- One arena entry (R33). -/
structure Node where
  kind   : Kind
  sym    : Byte
  left   : NodeIndex
  right  : NodeIndex
  weight : Weight
  deriving DecidableEq, Repr

/-- The entry a model keeps where the spec says "unspecified, never observable" (93 section 1). Log entry 3. -/
def Node.blank : Node := { kind := .internal, sym := 0, left := 0, right := 0, weight := 0 }

/-- The direction of a CORE access (00_scope.md R8). -/
inductive Dir where
  | read
  | write
  deriving DecidableEq, Repr

/-- A region of the DMA space where BUS_OK is false in one direction (R8, R62). -/
structure BusHole where
  base : Nat
  size : Nat
  dir  : Dir
  deriving DecidableEq, Repr

/-- One operation of HOST: the `rd`, `wr`, `mem` and `wait` of 30_encoding.md R86 and R87. A register access names its
width in bytes and its offset, so that the accesses R40 gives no meaning can be written down and refused. -/
inductive HostOp where
  /-- A read of `bytes` bytes at window offset `off`. -/
  | regRead (bytes off : Nat)
  /-- A write of `v` in `bytes` bytes at window offset `off`. -/
  | regWrite (bytes off : Nat) (v : Word)
  /-- HOST reads a byte of the DMA space. -/
  | memRead (addr : Word)
  /-- HOST writes a byte of the DMA space. -/
  | memWrite (addr : Word) (v : Byte)
  /-- `wait`: read STATUS until DONE is 1 (R87). -/
  | waitDone
  deriving DecidableEq, Repr

/-- One move of the system, in the order the moves happen: plain data decides which agent moves (R5, R102). -/
inductive Event where
  /-- HOST performs one operation. -/
  | host (op : HostOp)
  /-- CORE's turn: it executes the pending word, if there is one (R102). -/
  | core
  /-- The reset input is asserted (R270). -/
  | resetAssert
  /-- The reset input is released (R270). -/
  | resetRelease
  deriving DecidableEq, Repr

/-- What HOST was handed by a read. -/
inductive Reply where
  | reg (off : Nat) (v : Word)
  | mem (addr : Word) (v : Byte)
  deriving DecidableEq, Repr

/-- The named registers of the window (R21). -/
inductive Reg where
  | cmd
  | status
  | ctrl
  | srcAddr
  | srcLen
  | dstAddr
  | dstCap
  | symCount
  | outLen
  | inUsed
  | pad
  | root
  | nodeCount
  | freq (sym : Byte)
  /-- Word `k` (0 to 3) of NODE window entry `i` (R34). -/
  | node (i k : Nat)
  | codeLen (sym : Byte)
  /-- Word `w` (0 to 7) of CODE_BITS (R37). -/
  | codeBits (sym : Byte) (w : Nat)
  | reserved
  deriving DecidableEq, Repr

/-- Why the machine stops with a fault. -/
inductive Fault where
  /-- Raised by GENCODES and SERIALIZE when the walk of R141 or R161 from ROOT runs in a cycle of the arena, so that the
  pseudocode never ends. R44(c) rules such an arena out in every reachable state. Safe: the machine stops. -/
  | arenaWalkEndless
  deriving DecidableEq, Repr

/-- Why the machine has no move. -/
inductive Refusal where
  /-- The instruction has no meaning in the model yet; raised by `exec` alone. Safe. -/
  | notModelled (mnemonic : String)
  /-- A HOST register access that is not an aligned 32-bit access inside the window (10_state.md R40: "A model refuses
  such an access"); raised by a HOST step. Safe. -/
  | hostAccessShape
  /-- A HOST access to a window of the pending command while BUSY (20_memory.md R73: "a model refuses it"); raised by a
  HOST step. Safe. -/
  | hostWindowRace
  /-- A HOST access to the register window while reset is asserted (70 R270: "a model refuses them"); raised by a HOST
  step. Safe. -/
  | hostAccessInReset
  deriving DecidableEq, Repr

/-- The result registers of a completed command (R28, R107). -/
structure Results where
  outLen : Word
  inUsed : Word
  pad    : BitVec 3
  deriving DecidableEq, Repr

/-- How a running command stops before its end. -/
inductive Halt where
  /-- `raise Error(code)` (00_scope.md R14); `onWrite` says that a MemWrite raised it (40 R108). -/
  | raised (code : ErrCode) (onWrite : Bool)
  /-- The pseudocode never ends from this state. -/
  | stuck (r : Fault)
  deriving DecidableEq, Repr

/-- The whole state. STATUS and IRQ are computed from it (Machine/Flags.lean). -/
structure State where
  /-- STATUS.DONE (R23). -/
  done      : Bool
  /-- STATUS.ERR (R23). -/
  err       : Bool
  /-- STATUS.WIGN (R23, R43). -/
  wign      : Bool
  /-- STATUS.FATAL (R23, R32). -/
  fatal     : Bool
  /-- STATUS.ERRCODE (R23, R240). -/
  errCode   : ErrCode
  /-- STATUS.TREE_STATE (R23, R30). -/
  treeState : TreeState
  /-- STATUS.CT_VALID (R23, R31). -/
  ctValid   : Bool
  /-- CTRL.IE (R25). -/
  ie        : Bool
  /-- SRC_ADDR (R26). -/
  srcAddr   : Word
  /-- SRC_LEN (R26). -/
  srcLen    : Word
  /-- DST_ADDR (R26). -/
  dstAddr   : Word
  /-- DST_CAP (R26). -/
  dstCap    : Word
  /-- SYM_COUNT (R26). -/
  symCount  : Word
  /-- FREQ[0..255] (R27). -/
  freq      : Vector Word 256
  /-- OUT_LEN (R28). -/
  outLen    : Word
  /-- IN_USED (R28). -/
  inUsed    : Word
  /-- PAD[2:0] (R28). -/
  pad       : BitVec 3
  /-- ROOT[8:0] (R29). -/
  root      : NodeIndex
  /-- NODE_COUNT[8:0] (R29). -/
  nodeCount : NodeIndex
  /-- NODE[0..510] (R33). -/
  arena     : Vector Node 511
  /-- CODE[0..255] (R35): `none` is present = 0; otherwise the bits, whose number is len. -/
  code      : Vector (Option Bits) 256
  /-- The pending command word; STATUS.BUSY is 1 exactly while there is one (R38, R101, R107). -/
  pending   : Option Word
  /-- The reset input is asserted (R270). -/
  inReset   : Bool
  /-- The DMA space (R60), in canonical form (`memWf`). -/
  mem       : List Host.Cell
  /-- The platform's BUS_OK (R8, R62), constant along a run: the model's own field. -/
  busHoles  : List BusHole
  /-- The moves still to come: the model's own field (R5, R102). -/
  inputs    : List Event
  /-- What HOST's last read returned: the model's own field. -/
  reply     : Option Reply
  /-- HOST has read STATUS with DONE = 1 since its last command was accepted (70 R292): the model's own field. -/
  doneSeen  : Bool
  /-- How many free values have been taken: the model's own field. -/
  draws     : Nat
  deriving DecidableEq, Repr

/-- No code is present (R46: "CODE[0..255].present = 0"). -/
def noCodes : Vector (Option Bits) 256 := Vector.replicate 256 none

/-- An arena with no entry in use. -/
def blankArena : Vector Node 511 := Vector.replicate 511 Node.blank

/-- The machine right after hardware reset (10_state.md R46): idle, reset released, no event to come. -/
def State.reset : State where
  done := false
  err := false
  wign := false
  fatal := false
  errCode := .none
  treeState := .none
  ctValid := false
  ie := false
  srcAddr := 0
  srcLen := 0
  dstAddr := 0
  dstCap := 0
  symCount := 0
  freq := Vector.replicate 256 0
  outLen := 0
  inUsed := 0
  pad := 0
  root := 0
  nodeCount := 0
  arena := blankArena
  code := noCodes
  pending := none
  inReset := false
  mem := []
  busHoles := []
  inputs := []
  reply := none
  doneSeen := false
  draws := 0

end Sys2Proof.Machine
end

