-- ==== Sys2Proof/Machine/Flags.lean ====
section
/-! DEFINITION. The flags: STATUS as HOST reads it (10_state.md R23, 46_control.md R231), BUSY and IRQ. -/

namespace Sys2Proof.Machine

/-- The ERRCODE values (60_exceptions.md R240). -/
def ErrCode.bits : ErrCode → BitVec 4
  | .none => 0x0
  | .fmtTruncated => 0x1
  | .fmtBadTag => 0x2
  | .fmtCapacity => 0x3
  | .internalInvariant => 0x4
  | .noTree => 0x5
  | .noCodes => 0x6
  | .dstOverflow => 0x7
  | .payloadUnderrun => 0x8
  | .addrRange => 0x9
  | .overlap => 0xA
  | .badCmd => 0xB
  | .locked => 0xC
  | .busError => 0xD

/-- The TREE_STATE values (R30). -/
def TreeState.bits : TreeState → BitVec 2
  | .none => 0
  | .empty => 1
  | .valid => 2

/-- The kind bit: LEAF = 1, INTERNAL = 0 (R33). -/
def Kind.bit : Kind → Bool
  | .internal => false
  | .leaf => true

/-- A one-bit field as a 32-bit word. -/
def flagWord (b : Bool) : Word := (BitVec.ofBool b).setWidth 32

/-- STATUS.BUSY: "1 from the acceptance of a command until its completion" (R23), which is exactly while a command is
pending (R38, R101, R107, R108). -/
def State.busy (s : State) : Bool := s.pending.isSome

/-- The IRQ line: DONE AND IE (R39, R246). -/
def State.irq (s : State) : Bool := s.done && s.ie

/-- STATUS as a read returns it (R231); the reserved bits read 0 (R23, R41). -/
def State.statusWord (s : State) : Word :=
  flagWord s.busy ||| (flagWord s.done <<< 1) ||| (flagWord s.err <<< 2) ||| (flagWord s.wign <<< 3) |||
    (flagWord s.fatal <<< 4) ||| (s.errCode.bits.setWidth 32 <<< 8) ||| (s.treeState.bits.setWidth 32 <<< 16) |||
    (flagWord s.ctValid <<< 20)

/-- CTRL as a read returns it: bit 0 is IE, the others read 0 (R25). -/
def State.ctrlWord (s : State) : Word := flagWord s.ie

/-- The effect of a STATUS write while idle: DONE is cleared by a 1 in bit 1, every other bit is ignored (R24). -/
def writeStatus (v : Word) (s : State) : State :=
  if v.getLsbD 1 then { s with done := false } else s

/-- The effect of a CTRL write while idle: IE takes bit 0, the other bits are ignored (R25). -/
def writeCtrl (v : Word) (s : State) : State := { s with ie := v.getLsbD 0 }

end Sys2Proof.Machine
end

