-- ==== Sys2Proof/Machine/Operands.lean ====
section
/-! DEFINITION. Operand forms: the DMA windows (20_memory.md R63, R64), the register map (10_state.md R21), the NODE and
CODE windows (R34 to R37), the fixed-size tables, and bit strings in bytes and words (30_encoding.md R90). -/

namespace Sys2Proof.Machine

/-! ### Tables -/

theorem byte_lt (b : Byte) : b.toNat < 256 := b.isLt

/-- FREQ[s] (R27). -/
def freqOf (freq : Vector Word 256) (sym : Byte) : Word := freq[sym.toNat]'(byte_lt sym)

/-- FREQ[s] <- v. -/
def setFreq (freq : Vector Word 256) (sym : Byte) (v : Word) : Vector Word 256 := freq.set sym.toNat v (byte_lt sym)

/-- CODE[s] (R35). -/
def codeOf (code : Vector (Option Bits) 256) (sym : Byte) : Option Bits := code[sym.toNat]'(byte_lt sym)

/-- CODE[s] <- present, with bits `p`. -/
def setCode (code : Vector (Option Bits) 256) (sym : Byte) (p : Bits) : Vector (Option Bits) 256 :=
  code.set sym.toNat (some p) (byte_lt sym)

/-- NODE[i] (R33). There is no entry 511; no rule reads it. -/
def nodeAt (arena : Vector Node 511) (i : NodeIndex) : Node := arena[i.toNat]?.getD Node.blank

/-- NODE[i] <- n. -/
def setNode (arena : Vector Node 511) (i : Nat) (n : Node) : Vector Node 511 := arena.setIfInBounds i n

/-- A LEAF entry: left and right are 0 (R33). -/
def Node.leaf (sym : Byte) (weight : Weight) : Node :=
  { kind := .leaf, sym := sym, left := 0, right := 0, weight := weight }

/-- An INTERNAL entry: sym is 0 (R33). -/
def Node.internal (left right : NodeIndex) (weight : Weight) : Node :=
  { kind := .internal, sym := 0, left := left, right := right, weight := weight }

/-! ### Windows of the DMA space -/

/-- The byte range `[base, base + len)` (R19, R63); sums are taken without wrap. -/
structure Window where
  base : Nat
  len  : Nat
  deriving DecidableEq, Repr

/-- The source window `[SRC_ADDR, SRC_ADDR + SRC_LEN)` (R26). -/
def srcWindow (s : State) : Window := { base := s.srcAddr.toNat, len := s.srcLen.toNat }

/-- The destination window `[DST_ADDR, DST_ADDR + DST_CAP)` (R26). -/
def dstWindow (s : State) : Window := { base := s.dstAddr.toNat, len := s.dstCap.toNat }

/-- A window is in range when `a + n ≤ 2^32` (R63); an empty one always is. -/
def Window.inRange (w : Window) : Bool := w.len == 0 || w.base + w.len ≤ Config.dmaSize

/-- The windows overlap: both non-empty and each begins before the other ends (R64). -/
def Window.overlaps (a b : Window) : Bool :=
  0 < a.len && 0 < b.len && a.base < b.base + b.len && b.base < a.base + a.len

/-- The address lies in the window. -/
def Window.contains (w : Window) (a : Nat) : Bool := w.base ≤ a && a < w.base + w.len

/-- The command reads a source window: DESERIALIZE, ENCODE and DECODE (R26). -/
def usesSrc : Instr → Bool
  | .build => false
  | .gencodes => false
  | .serialize => false
  | .deserialize => true
  | .encode => true
  | .decode => true
  | .softReset => false

/-- The command has a destination window: SERIALIZE, ENCODE and DECODE (R26, R67). -/
def usesDst : Instr → Bool
  | .build => false
  | .gencodes => false
  | .serialize => true
  | .deserialize => false
  | .encode => true
  | .decode => true
  | .softReset => false

/-- The pending word's command, if the word selects one. -/
def State.pendingInstr (s : State) : Option Instr := s.pending.bind fun w => (decodeWord w).toOption

/-- The address lies in the pending command's source window (R73). -/
def inPendingSrc (s : State) (a : Nat) : Bool :=
  match s.pendingInstr with
  | some i => usesSrc i && (srcWindow s).contains a
  | none => false

/-- The address lies in the pending command's destination window (R73). -/
def inPendingDst (s : State) (a : Nat) : Bool :=
  match s.pendingInstr with
  | some i => usesDst i && (dstWindow s).contains a
  | none => false

/-! ### Bit strings in bytes and words -/

/-- The number a bit string writes, most significant bit first. -/
def msbFirst (b : Bits) : Nat := b.foldl (fun n bit => 2 * n + bit.toNat) 0

/-- The first `n` bits of a bit string, with 0 for every bit it does not have. -/
def firstBits (n : Nat) (b : Bits) : Bits := (b ++ List.replicate n false).take n

/-- The byte that holds the first eight bits, MSB first; a missing bit is a 0 (R90, R191 phase 2). -/
def byteOfBits (b : Bits) : Byte := BitVec.ofNat 8 (msbFirst (firstBits 8 b))

/-- `ceil_div(a, b)`: the least q with q·b ≥ a (R11). -/
def ceilDiv (a b : Nat) : Nat := (a + b - 1) / b

/-- `n` bytes of a bitstream (R90). -/
def packBytes : Nat → Bits → List Byte
  | 0, _ => []
  | n + 1, b => byteOfBits b :: packBytes n (b.drop 8)

/-- A bitstream of n bits stored in `ceil_div(n, 8)` bytes (R90). -/
def pack (b : Bits) : List Byte := packBytes (ceilDiv b.length 8) b

/-- Bit k of a byte counted from its most significant bit: bit (7 − k) (R90). -/
def byteBit (v : Byte) (k : Nat) : Bool := v.getLsbD (7 - k)

/-! ### The register map -/

/-- The register at a window offset (R21). The offset is a multiple of 4 below 0x8000 (R40). -/
def regAt (off : Nat) : Reg :=
  if off < 0x0400 then
    match off with
    | 0x0000 => .cmd
    | 0x0004 => .status
    | 0x0008 => .ctrl
    | 0x0010 => .srcAddr
    | 0x0014 => .srcLen
    | 0x0018 => .dstAddr
    | 0x001C => .dstCap
    | 0x0020 => .symCount
    | 0x0030 => .outLen
    | 0x0034 => .inUsed
    | 0x0038 => .pad
    | 0x0040 => .root
    | 0x0044 => .nodeCount
    | _ => .reserved
  else if off < 0x0800 then .freq (BitVec.ofNat 8 ((off - 0x0400) / 4))
  else if off < 0x2000 then .reserved
  else if off < 0x3FF0 then .node ((off - 0x2000) / 16) ((off - 0x2000) % 16 / 4)
  else if off < 0x4000 then .reserved
  else if off < 0x4400 then .codeLen (BitVec.ofNat 8 ((off - 0x4000) / 4))
  else if off < 0x5000 then .reserved
  else if off < 0x7000 then .codeBits (BitVec.ofNat 8 ((off - 0x5000) / 32)) ((off - 0x5000) % 32 / 4)
  else .reserved

/-- R40: "a 32-bit read or write at an offset that is a multiple of 4 and below 0x8000". -/
def accessShapeOk (bytes off : Nat) : Bool := bytes == 4 && off % 4 == 0 && off < Config.regWindow

/-- Word `k` of a NODE window entry in use (R34). -/
def nodeWord (n : Node) (k : Nat) : Word :=
  if k = 0 then flagWord n.kind.bit ||| (n.sym.setWidth 32 <<< 8)
  else if k = 1 then n.left.setWidth 32 ||| (n.right.setWidth 32 <<< 16)
  else if k = 2 then n.weight.extractLsb' 0 32
  else (n.weight.extractLsb' 32 8).setWidth 32

/-- The NODE window: 0 at and above NODE_COUNT (R34). -/
def nodeWindow (s : State) (i k : Nat) : Word :=
  if i < s.nodeCount.toNat then nodeWord (nodeAt s.arena (BitVec.ofNat 9 i)) k else 0

/-- The CODE_LEN window (R36). -/
def codeLenWindow (s : State) (sym : Byte) : Word :=
  match codeOf s.code sym with
  | some p => if s.ctValid then BitVec.ofNat 32 (p.length % 256) ||| 0x100 else 0
  | none => 0

/-- The CODE_BITS window: bit (31 − j) of word w is code bit 32·w + j, 0 where there is none (R37). -/
def codeBitsWindow (s : State) (sym : Byte) (w : Nat) : Word :=
  match codeOf s.code sym with
  | some p => if s.ctValid then BitVec.ofNat 32 (msbFirst (firstBits 32 (p.drop (32 * w)))) else 0
  | none => 0

end Sys2Proof.Machine
end

