-- ==== Sys2Proof/Machine/Ops.lean ====
section
/-! DEFINITION. The named operations: bytes of the DMA space, CORE's accesses with BUS_OK, the life of a command
(acceptance, lock, prechecks, completion, 40_command_lifecycle.md) and the one error completion. -/

namespace Sys2Proof.Machine

/-! ### The DMA space as data -/

/-- The byte at an address; an unlisted address reads 0x00. DESIGN CHOICE (log entry 1), unsafe at `State.reset`. -/
def memGet : List Host.Cell → Nat → Byte
  | [], _ => 0
  | (a, b) :: rest, x => if a = x then b else memGet rest x

/-- Store a byte, keeping the canonical form: writing what an unlisted address reads as removes the entry. -/
def memSet : List Host.Cell → Nat → Byte → List Host.Cell
  | [], x, v => if v = 0 then [] else [(x, v)]
  | (a, b) :: rest, x, v =>
    if x < a then (if v = 0 then (a, b) :: rest else (x, v) :: (a, b) :: rest)
    else if x = a then (if v = 0 then rest else (x, v) :: rest)
    else (a, b) :: memSet rest x v

/-- Addresses rise strictly from `lo` on, lie in the DMA space, and no entry holds 0x00. -/
def memWfFrom (lo : Nat) : List Host.Cell → Bool
  | [] => true
  | (a, b) :: rest => decide (lo ≤ a) && decide (a < Config.dmaSize) && b != 0 && memWfFrom (a + 1) rest

/-- The canonical form of a memory. -/
def memWf (m : List Host.Cell) : Bool := memWfFrom 0 m

/-- Bytes `a`, `a + 1`, ..., `a + n - 1` become `f 0`, `f 1`, ..., `f (n - 1)`. -/
def memFill (m : List Host.Cell) (a : Nat) (f : Nat → Byte) : Nat → List Host.Cell
  | 0 => m
  | n + 1 => memSet (memFill m a f n) (a + n) (f n)

/-! ### CORE's accesses (00_scope.md R13, 20_memory.md R61, R62) -/

/-- BUS_OK(addr, dir) of the platform (R8). -/
def busOk (holes : List BusHole) (a : Nat) (d : Dir) : Bool :=
  holes.all fun h => !(h.dir == d && decide (h.base ≤ a) && decide (a < h.base + h.size))

/-- `MemRead(addr, 1)` (R13). -/
def dmaRead (holes : List BusHole) (m : List Host.Cell) (a : Nat) : Except Halt Byte :=
  if busOk holes a .read then .ok (memGet m a) else .error (.raised .busError false)

/-- `MemWrite(addr, 1, v)` (R13). -/
def dmaWrite (holes : List BusHole) (m : List Host.Cell) (a : Nat) (v : Byte) : Except Halt (List Host.Cell) :=
  if busOk holes a .write then .ok (memSet m a v) else .error (.raised .busError true)

/-- `n` bytes from `a` on, in increasing address order (R65). -/
def dmaReadRange (holes : List BusHole) (m : List Host.Cell) : Nat → Nat → Except Halt (List Byte)
  | _, 0 => .ok []
  | a, n + 1 => do
    let v ← dmaRead holes m a
    let rest ← dmaReadRange holes m (a + 1) n
    .ok (v :: rest)

/-- The bytes of a list from `a` on, in increasing address order (R66). -/
def dmaWriteList (holes : List BusHole) : List Host.Cell → Nat → List Byte → Except Halt (List Host.Cell)
  | m, _, [] => .ok m
  | m, a, v :: rest => do
    let m' ← dmaWrite holes m a v
    dmaWriteList holes m' (a + 1) rest

/-! ### Acceptance and completion -/

/-- Acceptance of a command word (R101). HOST has not yet seen this command's DONE. -/
def accept (w : Word) (s : State) : State :=
  { s with done := false, err := false, errCode := .none, wign := false, pending := some w, doneSeen := false }

/-- Successful completion with the results of the command (R107). -/
def completeOk (r : Results) (s : State) : State :=
  { s with outLen := r.outLen, inUsed := r.inUsed, pad := r.pad, pending := none, done := true, err := false,
           errCode := .none }

/-- No tree is held and no code table is valid (R30 NONE, R29, R31). The arena entries are unobservable (R33) and are
kept blank, the CODE entries absent. Log entry 3. -/
def dropTree (s : State) : State :=
  { s with treeState := .none, nodeCount := 0, root := 0, ctValid := false, code := noCodes, arena := blankArena }

/-- R108: "the parse had started: the old tree is gone". -/
def losesTree (i : Option Instr) (c : ErrCode) : Bool :=
  i == some .deserialize && !(c == .badCmd || c == .locked || c == .addrRange)

/-- R67, R108: the errors after which the destination window is unspecified. -/
def spoilsWindow (i : Option Instr) (c : ErrCode) (onWrite : Bool) : Bool :=
  (i == some .decode && (c == .payloadUnderrun || c == .busError)) ||
    ((i == some .serialize || i == some .encode) && c == .busError && onWrite)

/-- The number of bytes of the destination window that exist: none lies at or above 2^32 (R60, R63). -/
def dstBytes (s : State) : Nat := min s.dstCap.toNat (Config.dmaSize - s.dstAddr.toNat)

/-- Each byte of the destination window becomes an unspecified value (R67): one free byte each. -/
def spoilDst (s : State) : State :=
  { s with mem := memFill s.mem s.dstAddr.toNat (fun k => Config.freeByte (s.draws + k)) (dstBytes s),
           draws := s.draws + dstBytes s }

/-- Error completion, the one "trap" of the block (R108, R248). `i` is the command, `none` for a word that selects none;
`onWrite` says that a MemWrite raised the error. -/
def completeErr (i : Option Instr) (c : ErrCode) (onWrite : Bool) (s : State) : State :=
  let s1 := if losesTree i c then dropTree s else s
  let s2 := if spoilsWindow i c onWrite then spoilDst s1 else s1
  { s2 with outLen := 0, inUsed := 0, pad := 0, fatal := s2.fatal || c == .internalInvariant, pending := none,
            done := true, err := true, errCode := c }

/-- The prechecks of a command, in order, each with the error it raises (R104). -/
def prechecks (i : Instr) (s : State) : List (Bool × ErrCode) :=
  match i with
  | .build => []
  | .gencodes => [(s.treeState == .none, .noTree)]
  | .serialize => [(s.treeState == .none, .noTree), (!(dstWindow s).inRange, .addrRange)]
  | .deserialize => [(!(srcWindow s).inRange, .addrRange)]
  | .encode =>
    [(!s.ctValid, .noCodes), (!(srcWindow s).inRange, .addrRange), (!(dstWindow s).inRange, .addrRange),
      ((srcWindow s).overlaps (dstWindow s), .overlap)]
  | .decode =>
    [(s.treeState == .none, .noTree), (s.treeState == .empty && decide (0 < s.symCount.toNat), .noTree),
      (!(srcWindow s).inRange, .addrRange), (!(dstWindow s).inRange, .addrRange),
      ((srcWindow s).overlaps (dstWindow s), .overlap), (decide (s.dstCap.toNat < s.symCount.toNat), .dstOverflow)]
  | .softReset => []

/-- The first check that fails (R104: "raises the first that fails"). -/
def firstFailing : List (Bool × ErrCode) → Option ErrCode
  | [] => none
  | (fails, c) :: rest => if fails then some c else firstFailing rest

/-- How a run ends: completion, error completion, or a stop of the machine. -/
def finish (i : Instr) (s : State) (r : Except Halt (State × Results)) : Host.Outcome State Fault Refusal :=
  match r with
  | .ok (t, res) => .next (completeOk res t)
  | .error (.raised c onWrite) => .next (completeErr (some i) c onWrite s)
  | .error (.stuck f) => .fault f

/-- `execute` of a decoded command (R102): the lock check (R103), the prechecks (R104), the run, the completion. -/
def runCommand (i : Instr) (run : State → Except Halt (State × Results)) (s : State) :
    Host.Outcome State Fault Refusal :=
  if s.fatal && i != .softReset then .next (completeErr (some i) .locked false s)
  else
    match firstFailing (prechecks i s) with
    | some c => .next (completeErr (some i) c false s)
    | none => finish i s (run s)

/-- The results of a command that defines none: 0 each (R28, R107). -/
def Results.zero : Results := { outLen := 0, inUsed := 0, pad := 0 }

/-! ### Reset -/

/-- Every state element of the block at its reset value (R46); the DMA space, the platform, the events to come and what
HOST has read are not the block's. -/
def blockReset (s : State) : State :=
  { State.reset with
    mem := s.mem, busHoles := s.busHoles, inputs := s.inputs, reply := s.reply, doneSeen := s.doneSeen,
    draws := s.draws, inReset := s.inReset }

end Sys2Proof.Machine
end

