-- ==== Sys2Proof/Machine/BitPacker.lean ====
section
/-! DEFINITION. The Bit Packer: ENCODE (44_bit_packer.md R190 to R195). -/

namespace Sys2Proof.Machine

/-- The code bitstream of a symbol sequence (30_encoding.md R91); `none` when a symbol has no code (R194). -/
def codeStream (code : Vector (Option Bits) 256) : List Byte → Option Bits
  | [] => some []
  | sym :: rest =>
    match codeOf code sym with
    | none => none
    | some p =>
      match codeStream code rest with
      | none => none
      | some b => some (p ++ b)

/-- `run(ENCODE)` (R191), in R192's order: read all, check every code, check the size, write. -/
def runEncode (s : State) : Except Halt (State × Results) := do
  let x ← dmaReadRange s.busHoles s.mem s.srcAddr.toNat s.srcLen.toNat
  match codeStream s.code x with
  | none => .error (.raised .internalInvariant false)
  | some b =>
    let out := pack b
    if s.dstCap.toNat < out.length then .error (.raised .dstOverflow false)
    else do
      let m ← dmaWriteList s.busHoles s.mem s.dstAddr.toNat out
      .ok ({ s with mem := m },
        { outLen := BitVec.ofNat 32 out.length, inUsed := s.srcLen,
          pad := BitVec.ofNat 3 (8 * out.length - b.length) })

/-- ENCODE (R191). -/
def execEncode (s : State) : Host.Outcome State Fault Refusal := runCommand .encode runEncode s

end Sys2Proof.Machine
end

