-- ==== Sys2Proof/Machine/BitUnpacker.lean ====
section
/-! DEFINITION. The Bit Unpacker: DECODE (45_bit_unpacker.md R210 to R215). -/

namespace Sys2Proof.Machine

/-- A decode in progress: the bit position, the symbols written, the walk's cursor, the payload byte being read, and the
DMA space as written so far (R210). -/
structure Cursor where
  bitpos  : Nat
  written : Nat
  cur     : NodeIndex
  byte    : Byte
  mem     : List Host.Cell
  deriving DecidableEq, Repr

/-- The payload byte of the next bit: read when bit 8·k is first needed (R211). -/
def fetchBits (s : State) (c : Cursor) : Except Halt Byte :=
  if c.bitpos % 8 = 0 then dmaRead s.busHoles c.mem (s.srcAddr.toNat + c.bitpos / 8) else .ok c.byte

/-- `MemWrite(DST_ADDR + j, 1, sym)`, with the cursor back at ROOT (R210). -/
def emitSymbol (s : State) (c : Cursor) (sym : Byte) : Except Halt Cursor := do
  let m ← dmaWrite s.busHoles c.mem (s.dstAddr.toNat + c.written) sym
  .ok { c with written := c.written + 1, cur := s.root, mem := m }

/-- One turn of the loop: consume one bit, most significant first. At a root leaf every bit gives the root's symbol,
whatever its value (R212); otherwise descend left on 0, right on 1, and write a symbol at a leaf (R210). -/
def decodeBit (s : State) (c : Cursor) : Except Halt Cursor := do
  let v ← fetchBits s c
  let bit := byteBit v (c.bitpos % 8)
  let c1 : Cursor := { c with bitpos := c.bitpos + 1, byte := v }
  match (nodeAt s.arena s.root).kind with
  | .leaf => emitSymbol s c1 (nodeAt s.arena s.root).sym
  | .internal =>
    let child := if bit then (nodeAt s.arena c.cur).right else (nodeAt s.arena c.cur).left
    match (nodeAt s.arena child).kind with
    | .internal => .ok { c1 with cur := child }
    | .leaf => emitSymbol s c1 (nodeAt s.arena child).sym

/-- `while j < c` (R210), with the payload bits that are left; none left is PAYLOAD_UNDERRUN (R213). -/
def decodeLoop (s : State) : Nat → Cursor → Except Halt Cursor
  | 0, c => if c.written < s.symCount.toNat then .error (.raised .payloadUnderrun false) else .ok c
  | left + 1, c =>
    if c.written < s.symCount.toNat then do
      let c' ← decodeBit s c
      decodeLoop s left c'
    else .ok c

/-- `run(DECODE)` (R210). -/
def runDecode (s : State) : Except Halt (State × Results) := do
  let c ← decodeLoop s (8 * s.srcLen.toNat) { bitpos := 0, written := 0, cur := s.root, byte := 0, mem := s.mem }
  let used := ceilDiv c.bitpos 8
  .ok ({ s with mem := c.mem },
    { outLen := s.symCount, inUsed := BitVec.ofNat 32 used, pad := BitVec.ofNat 3 (8 * used - c.bitpos) })

/-- DECODE (R210). -/
def execDecode (s : State) : Host.Outcome State Fault Refusal := runCommand .decode runDecode s

end Sys2Proof.Machine
end

