-- ==== Sys2Proof/Machine/CodeGenerator.lean ====
section
/-! DEFINITION. The Code Generator: GENCODES (42_code_generator.md R140 to R146). -/

namespace Sys2Proof.Machine

/-- `walk(i, p)` (R141): the path to each leaf becomes its symbol's code, left before right, a later leaf overwriting an
earlier one (R142). `none`: the walk is deeper than any tree, so it runs in a cycle and never ends. -/
def walkCodes (arena : Vector Node 511) :
    Nat → NodeIndex → Bits → Vector (Option Bits) 256 → Option (Vector (Option Bits) 256)
  | 0, _, _, _ => none
  | depth + 1, i, p, code =>
    match (nodeAt arena i).kind with
    | .leaf => some (setCode code (nodeAt arena i).sym p)
    | .internal =>
      match walkCodes arena depth (nodeAt arena i).left (p ++ [false]) code with
      | none => none
      | some code' => walkCodes arena depth (nodeAt arena i).right (p ++ [true]) code'

/-- The CODE table of a held tree (R141): none present for EMPTY, the single bit `0` at a root leaf (R143). -/
def deriveCodes (treeState : TreeState) (root : NodeIndex) (arena : Vector Node 511) :
    Option (Vector (Option Bits) 256) :=
  match treeState with
  | .none => some noCodes
  | .empty => some noCodes
  | .valid =>
    match (nodeAt arena root).kind with
    | .leaf => some (setCode noCodes (nodeAt arena root).sym [false])
    | .internal => walkCodes arena Config.walkDepth root [] noCodes

/-- `run(GENCODES)` (R141). -/
def runGencodes (s : State) : Except Halt (State × Results) :=
  match deriveCodes s.treeState s.root s.arena with
  | some code => .ok ({ s with code := code, ctValid := true }, Results.zero)
  | none => .error (.stuck .arenaWalkEndless)

/-- GENCODES (R141). -/
def execGencodes (s : State) : Host.Outcome State Fault Refusal := runCommand .gencodes runGencodes s

end Sys2Proof.Machine
end

