-- ==== Sys2Proof/Machine/Control.lean ====
section
/-! DEFINITION. Control: SOFT_RESET (46_control.md R230). -/

namespace Sys2Proof.Machine

/-- `run(SOFT_RESET)` (R230): every state element takes its reset value, WIGN among them ("every state element equals its
hardware-reset value", R230); the DMA space is not touched. -/
def runSoftReset (s : State) : Except Halt (State × Results) :=
  .ok (blockReset s, Results.zero)

/-- SOFT_RESET (R230). -/
def execSoftReset (s : State) : Host.Outcome State Fault Refusal := runCommand .softReset runSoftReset s

end Sys2Proof.Machine
end

