-- ==== Sys2Proof/Machine/TreeBuilder.lean ====
section
/-! DEFINITION. The Tree Builder: BUILD (41_tree_builder.md R120 to R127). -/

namespace Sys2Proof.Machine

/-- An element of the working set: its key (weight, insertion index) (R121). -/
structure Item where
  weight : Nat
  index  : Nat
  deriving DecidableEq, Repr

/-- The lexicographic order of the keys: the smaller weight first, then the smaller index (R121). -/
def Item.before (a b : Item) : Bool := decide (a.weight < b.weight) || (a.weight == b.weight && decide (a.index < b.index))

/-- The least element of the working set, and the rest (R122 `a <- the i ∈ W minimising ...; W <- W \ {a}`). -/
def takeMin : List Item → Option (Item × List Item)
  | [] => none
  | x :: xs =>
    match takeMin xs with
    | none => some (x, [])
    | some (m, rest) => if x.before m then some (x, xs) else some (m, x :: rest)

/-- A build in progress: the arena, the working set W, and the next free index. -/
structure Forest where
  arena : Vector Node 511
  work  : List Item
  next  : Nat
  deriving DecidableEq, Repr

/-- The symbols of the alphabet, ascending: those with FREQ ≠ 0 (R122). -/
def alphabet (freq : Vector Word 256) : List Byte :=
  ((List.range 256).map (BitVec.ofNat 8)).filter fun sym => freqOf freq sym != 0

/-- One leaf at the next free index, entered into the working set (R122). -/
def addLeaf (freq : Vector Word 256) (f : Forest) (sym : Byte) : Forest :=
  let w := (freqOf freq sym).toNat
  { arena := setNode f.arena f.next (Node.leaf sym (BitVec.ofNat 40 w)),
    work := f.work ++ [{ weight := w, index := f.next }],
    next := f.next + 1 }

/-- The merge of two selected elements into a new INTERNAL node at the next free index; the smaller index goes left
(R122, R123). `rest` is the working set without the two. -/
def mergeTwo (f : Forest) (a b : Item) (rest : List Item) : Forest :=
  { arena := setNode f.arena f.next
      (Node.internal (BitVec.ofNat 9 (min a.index b.index)) (BitVec.ofNat 9 (max a.index b.index))
        (BitVec.ofNat 40 (a.weight + b.weight))),
    work := rest ++ [{ weight := a.weight + b.weight, index := f.next }],
    next := f.next + 1 }

/-- `while |W| ≥ 2` (R122), at most `n` times. -/
def mergeAll : Nat → Forest → Forest
  | 0, f => f
  | n + 1, f =>
    match takeMin f.work with
    | none => f
    | some (a, rest) =>
      match takeMin rest with
      | none => f
      | some (b, rest') => mergeAll n (mergeTwo f a b rest')

/-- The arena with the N leaves in place (R122). -/
def plantLeaves (freq : Vector Word 256) : Forest :=
  (alphabet freq).foldl (addLeaf freq) { arena := blankArena, work := [], next := 0 }

/-- The whole build for a nonempty alphabet: N leaves, then N − 1 merges (R122). -/
def growTree (freq : Vector Word 256) : Forest :=
  mergeAll ((alphabet freq).length - 1) (plantLeaves freq)

/-- `run(BUILD)` (R122). -/
def runBuild (s : State) : Except Halt (State × Results) :=
  if (alphabet s.freq).length = 0 then
    .ok ({ s with code := noCodes, ctValid := false, treeState := .empty, nodeCount := 0, root := 0,
                  arena := blankArena }, Results.zero)
  else
    let f := growTree s.freq
    .ok ({ s with code := noCodes, ctValid := false, treeState := .valid, nodeCount := BitVec.ofNat 9 f.next,
                  root := BitVec.ofNat 9 (f.next - 1), arena := f.arena }, Results.zero)

/-- BUILD (R122). -/
def execBuild (s : State) : Host.Outcome State Fault Refusal := runCommand .build runBuild s

end Sys2Proof.Machine
end

