-- ==== Sys2Proof/Machine/TreeCodec.lean ====
section
/-! DEFINITION. The Tree Codec: SERIALIZE and DESERIALIZE (43_tree_codec.md R160 to R174). -/

namespace Sys2Proof.Machine

/-- The tag byte of a Leaf (30_encoding.md R88). -/
def tagLeaf : Byte := 0x01

/-- The tag byte of an Internal node (R88). -/
def tagInternal : Byte := 0x00

/-! ### SERIALIZE -/

/-- `emit(i)` (R161): the pre-order stream below entry i. `none`: the walk never ends. -/
def emit (arena : Vector Node 511) : Nat → NodeIndex → Option (List Byte)
  | 0, _ => none
  | depth + 1, i =>
    match (nodeAt arena i).kind with
    | .leaf => some [tagLeaf, (nodeAt arena i).sym]
    | .internal =>
      match emit arena depth (nodeAt arena i).left with
      | none => none
      | some l =>
        match emit arena depth (nodeAt arena i).right with
        | none => none
        | some r => some (tagInternal :: (l ++ r))

/-- The bytes SERIALIZE has to write: the held tree's stream, or nothing for EMPTY (R161). -/
def streamOut (s : State) : Option (List Byte) :=
  match s.treeState with
  | .none => some []
  | .empty => some []
  | .valid => emit s.arena Config.walkDepth s.root

/-- `run(SERIALIZE)` (R161): the size check comes before every write. -/
def runSerialize (s : State) : Except Halt (State × Results) :=
  match streamOut s with
  | none => .error (.stuck .arenaWalkEndless)
  | some out =>
    if s.dstCap.toNat < out.length then .error (.raised .dstOverflow false)
    else do
      let m ← dmaWriteList s.busHoles s.mem s.dstAddr.toNat out
      .ok ({ s with mem := m }, { outLen := BitVec.ofNat 32 out.length, inUsed := 0, pad := 0 })

/-- SERIALIZE (R161). -/
def execSerialize (s : State) : Host.Outcome State Fault Refusal := runCommand .serialize runSerialize s

/-! ### DESERIALIZE -/

/-- A parse in progress: the stream position, the entries allocated, and the arena (R168). -/
structure Parse where
  pos   : Nat
  cnt   : Nat
  arena : Vector Node 511
  deriving DecidableEq, Repr

/-- `nextbyte()` (R168). -/
def nextByte (s : State) (p : Parse) : Except Halt (Byte × Parse) :=
  if s.srcLen.toNat ≤ p.pos then .error (.raised .fmtTruncated false)
  else do
    let v ← dmaRead s.busHoles s.mem (s.srcAddr.toNat + p.pos)
    .ok (v, { p with pos := p.pos + 1 })

/-- `parse()` (R168), answering the index of the node built. The checks come in R171's order: truncation before the tag,
the tag value, capacity (R170), truncation before a leaf's symbol. The depth bound is never met (`Config.parseDepth`). -/
def parseNode (s : State) : Nat → Parse → Except Halt (Nat × Parse)
  | 0, _ => .error (.raised .fmtCapacity false)
  | depth + 1, p => do
    let (tag, p1) ← nextByte s p
    if tag != tagLeaf && tag != tagInternal then .error (.raised .fmtBadTag false)
    else if p1.cnt = Config.nodeCap then .error (.raised .fmtCapacity false)
    else
      let i := p1.cnt
      let p2 : Parse := { p1 with cnt := p1.cnt + 1 }
      if tag = tagLeaf then do
        let (sym, p3) ← nextByte s p2
        .ok (i, { p3 with arena := setNode p3.arena i (Node.leaf sym 0) })
      else do
        let (l, p3) ← parseNode s depth p2
        let (r, p4) ← parseNode s depth p3
        .ok (i, { p4 with arena := setNode p4.arena i (Node.internal (BitVec.ofNat 9 l) (BitVec.ofNat 9 r) 0) })

/-- `run(DESERIALIZE)` (R168). -/
def runDeserialize (s : State) : Except Halt (State × Results) :=
  if s.srcLen.toNat = 0 then
    .ok ({ s with code := noCodes, ctValid := false, treeState := .empty, nodeCount := 0, root := 0,
                  arena := blankArena }, Results.zero)
  else do
    let (i, p) ← parseNode s Config.parseDepth { pos := 0, cnt := 0, arena := blankArena }
    .ok ({ s with code := noCodes, ctValid := false, treeState := .valid, nodeCount := BitVec.ofNat 9 p.cnt,
                  root := BitVec.ofNat 9 i, arena := p.arena },
      { outLen := 0, inUsed := BitVec.ofNat 32 p.pos, pad := 0 })

/-- DESERIALIZE (R168). -/
def execDeserialize (s : State) : Host.Outcome State Fault Refusal := runCommand .deserialize runDeserialize s

end Sys2Proof.Machine
end

