-- ==== Sys2Proof/Machine/Agents.lean ====
section
/-! DEFINITION. The moves of CORE, of HOST and of the reset input, and which of them comes next. -/

namespace Sys2Proof.Machine

/-! ### CORE -/

/-- CORE's turn: `execute(pending)` (40_command_lifecycle.md R102); a word that selects no command completes with BAD_CMD
(R103). While reset is asserted, or with nothing pending, CORE does nothing. -/
def coreStep (s : State) : Host.Outcome State Fault Refusal :=
  if s.inReset then .next s
  else
    match s.pending with
    | none => .next s
    | some w =>
      match decodeWord w with
      | .ok i => exec i s
      | .reject _ => .next (completeErr none .badCmd false s)

/-! ### HOST's register accesses (46_control.md) -/

/-- `host_read` while idle (R231). -/
def readReg (s : State) : Reg → Word
  | .cmd => 0
  | .status => s.statusWord
  | .ctrl => s.ctrlWord
  | .srcAddr => s.srcAddr
  | .srcLen => s.srcLen
  | .dstAddr => s.dstAddr
  | .dstCap => s.dstCap
  | .symCount => s.symCount
  | .outLen => s.outLen
  | .inUsed => s.inUsed
  | .pad => s.pad.setWidth 32
  | .root => s.root.setWidth 32
  | .nodeCount => s.nodeCount.setWidth 32
  | .freq sym => freqOf s.freq sym
  | .node i k => nodeWindow s i k
  | .codeLen sym => codeLenWindow s sym
  | .codeBits sym w => codeBitsWindow s sym w
  | .reserved => 0

/-- The registers that read as an unspecified value while BUSY (10_state.md R43). -/
def drawnWhileBusy : Reg → Bool
  | .cmd => false
  | .status => false
  | .ctrl => false
  | .srcAddr => false
  | .srcLen => false
  | .dstAddr => false
  | .dstCap => false
  | .symCount => false
  | .outLen => true
  | .inUsed => true
  | .pad => true
  | .root => true
  | .nodeCount => true
  | .freq _ => false
  | .node _ _ => true
  | .codeLen _ => true
  | .codeBits _ _ => true
  | .reserved => false

/-- `host_read(off)` (R231): a read has no side effect on the block; HOST is handed the value. A value of STATUS with
DONE = 1 tells HOST that its last command has completed (70 R292). -/
def hostRead (off : Nat) (s : State) : State :=
  if s.busy && drawnWhileBusy (regAt off) then
    { s with reply := some (.reg off (Config.freeWord s.draws)), draws := s.draws + 1 }
  else { s with reply := some (.reg off (readReg s (regAt off))),
                doneSeen := s.doneSeen || (regAt off == .status && s.done) }

/-- The effect of a write on a register while idle (R232): read-only and reserved registers ignore it (R41, R42). -/
def writeReg (v : Word) (s : State) : Reg → State
  | .cmd => accept v s
  | .status => writeStatus v s
  | .ctrl => writeCtrl v s
  | .srcAddr => { s with srcAddr := v }
  | .srcLen => { s with srcLen := v }
  | .dstAddr => { s with dstAddr := v }
  | .dstCap => { s with dstCap := v }
  | .symCount => { s with symCount := v }
  | .outLen => s
  | .inUsed => s
  | .pad => s
  | .root => s
  | .nodeCount => s
  | .freq sym => { s with freq := setFreq s.freq sym v }
  | .node _ _ => s
  | .codeLen _ => s
  | .codeBits _ _ => s
  | .reserved => s

/-- `host_write(off, v)` (R232): while BUSY every write is ignored and sets WIGN (R43). -/
def hostWrite (off : Nat) (v : Word) (s : State) : State :=
  if s.busy then { s with wign := true } else writeReg v s (regAt off)

/-! ### HOST's moves -/

/-- One operation of HOST. In the state given, the operation has been taken from `inputs`; `waiting` is the state with
the operation still there, for a HOST that goes on polling.
`wait` (30_encoding.md R87): a poll that reads DONE = 1 ends it. While a command is pending its polls change nothing, and
it is CORE's turn (fairness, 70 R291); with nothing pending and DONE = 0 HOST polls on for ever.
A read of the DMA space after a command has completed shows its writes, whether or not HOST has read STATUS since: the
model's choice, DESIGN CHOICE (log entry 7), where 20_memory.md R72 orders only what follows that STATUS read. -/
def hostStep (op : HostOp) (s waiting : State) : Host.Outcome State Fault Refusal :=
  match op with
  | .regRead bytes off =>
    if s.inReset then .refused .hostAccessInReset
    else if accessShapeOk bytes off then .next (hostRead off s)
    else .refused .hostAccessShape
  | .regWrite bytes off v =>
    if s.inReset then .refused .hostAccessInReset
    else if accessShapeOk bytes off then .next (hostWrite off v s)
    else .refused .hostAccessShape
  | .memRead a =>
    if inPendingDst s a.toNat then .refused .hostWindowRace
    else .next { s with reply := some (.mem a (memGet s.mem a.toNat)) }
  | .memWrite a v =>
    if inPendingSrc s a.toNat || inPendingDst s a.toNat then .refused .hostWindowRace
    else .next { s with mem := memSet s.mem a.toNat v }
  | .waitDone =>
    if s.inReset then .refused .hostAccessInReset
    else if s.done then .next (hostRead 0x0004 s)
    else if s.busy then coreStep waiting
    else .next (hostRead 0x0004 waiting)

/-! ### The reset input (70_reset_and_hazards.md R270) -/

/-- A command with a destination window is pending. -/
def pendingUsesDst (s : State) : Bool :=
  match s.pendingInstr with
  | some i => usesDst i
  | none => false

/-- Reset is asserted: every state element takes its reset value, a pending command never completes, and each byte of its
destination window becomes unspecified. -/
def assertReset (s : State) : State :=
  { blockReset (if pendingUsesDst s then spoilDst s else s) with inReset := true }

/-- Reset is released: the block is idle and ready to accept a command. -/
def releaseReset (s : State) : State := { s with inReset := false }

/-! ### Whose move it is -/

/-- The next move. With no event to come, a pending command executes (R291); with nothing pending the block is idle and
"holds all its state" (60_exceptions.md R256). -/
def nextMove (s : State) : Host.Outcome State Fault Refusal :=
  match s.inputs with
  | [] => coreStep s
  | .core :: rest => coreStep { s with inputs := rest }
  | .host op :: rest => hostStep op { s with inputs := rest } s
  | .resetAssert :: rest => .next (assertReset { s with inputs := rest })
  | .resetRelease :: rest => .next (releaseReset { s with inputs := rest })

/-- The state in which the word has just been accepted by a block that is out of reset, and CORE moves next. -/
def placeCommand (w : Word) (s : State) : State :=
  { accept w s with inReset := false, inputs := .core :: s.inputs }

end Sys2Proof.Machine
end

