-- ==== Sys2Proof/Machine/Step.lean ====
section
/-! DEFINITION. One step of the system: the next move of HOST, CORE or the reset input. -/

namespace Sys2Proof.Machine

/-- One step. -/
def step (s : State) : Host.Outcome State Fault Refusal := nextMove s

/-- The state whose very next step executes the command word `w`: the word has just been accepted (40 R101) and CORE
moves next. The block fetches nothing (10_state.md R20): commands come as CMD writes, so this stands for HOST's accepted
write. Log entry 9. -/
def State.withFetchWord (s : State) (nbits w : Nat) : State := placeCommand (BitVec.ofNat 32 (w % 2 ^ nbits)) s

end Sys2Proof.Machine
end

