-- ==== Sys2Proof/Machine/HostProgram.lean ====
section
/-! DEFINITION. HOST's program notation and its pseudo-operations (30_encoding.md R86, R87), as lists of events. -/

namespace Sys2Proof.Machine

/-- `wr OFF, v` (R86). -/
def wr (off : Nat) (v : Word) : List Event := [.host (.regWrite 4 off v)]

/-- `rd OFF` (R86). -/
def rd (off : Nat) : List Event := [.host (.regRead 4 off)]

/-- `cmd M` (R86). -/
def cmd (i : Instr) : List Event := wr 0x0000 (encode i)

/-- `wait` (R87). -/
def waitCompletion : List Event := [.host .waitDone]

/-- `run M` (R87). -/
def runInstr (i : Instr) : List Event := cmd i ++ waitCompletion

/-- `ack` (R87). -/
def ackDone : List Event := wr 0x0004 0x00000002

/-- `setsrc a, n` (R87). -/
def setSrc (a n : Word) : List Event := wr 0x0010 a ++ wr 0x0014 n

/-- `setdst a, n` (R87). -/
def setDst (a n : Word) : List Event := wr 0x0018 a ++ wr 0x001C n

/-- `freq(S)`: the number of positions of S that hold the symbol (00_scope.md R16). -/
def freqCount (bytes : List Byte) (sym : Byte) : Nat := bytes.count sym

/-- A count as the 32-bit value of a `wr` (R86). R11 says that a value written fits and that no rule truncates; what stands for
a count of 2^32 or more the spec does not say: DESIGN CHOICE, a free value (log entry 14). -/
def countWord (n : Nat) : Word :=
  if n < 2 ^ 32 then BitVec.ofNat 32 n else Config.countBeyondWord n

/-- `loadfreq S`: every FREQ entry, ascending (R87); for a symbol that occurs 2^32 times or more, see `countWord`. -/
def loadFreq (bytes : List Byte) : List Event :=
  (List.range 256).flatMap fun k => wr (0x0400 + 4 * k) (countWord (freqCount bytes (BitVec.ofNat 8 k)))

/-- `mem a: b0 b1 ...`: HOST stores bytes before the program runs (R86). What a line that runs past 0xFFFFFFFF does is the
model's choice, DESIGN CHOICE (log entry 13): the bytes beyond have no address (20_memory.md R60) and are not stored. -/
def storeBytes (a : Nat) (bytes : List Byte) : List Event :=
  (bytes.take (Config.dmaSize - a)).zipIdx.map fun (b, k) => .host (.memWrite (BitVec.ofNat 32 (a + k)) b)

end Sys2Proof.Machine
end

