-- ==== Sys2Proof/Safety.lean ====
section
/-! DEFINITION. The terms claims are stated in: tree values, windows of bytes, the states a completion leaves, the
invariants of 10_state.md R44, and what a safe and an ended run are. -/

namespace Sys2Proof

open Sys2Proof.Machine

/-! ### Tree values (00_scope.md R15) -/

/-- A tree value: weight is not part of it (R15). -/
inductive CodeTree where
  | leaf (sym : Byte)
  | node (l r : CodeTree)
  deriving DecidableEq, Repr

/-- `stream(t)` (30_encoding.md R89). -/
def CodeTree.stream : CodeTree → List Byte
  | .leaf sym => [0x01, sym]
  | .node l r => 0x00 :: (l.stream ++ r.stream)

/-- The leaf symbols, left before right. -/
def CodeTree.leaves : CodeTree → List Byte
  | .leaf sym => [sym]
  | .node l r => l.leaves ++ r.leaves

/-- The number of nodes. -/
def CodeTree.size : CodeTree → Nat
  | .leaf _ => 1
  | .node l r => 1 + l.size + r.size

/-- Each leaf's symbol with its root-to-leaf path, in pre-order (42_code_generator.md R140, R142). -/
def CodeTree.paths : CodeTree → List (Byte × Bits)
  | .leaf sym => [(sym, [])]
  | .node l r => (l.paths.map fun e => (e.1, false :: e.2)) ++ (r.paths.map fun e => (e.1, true :: e.2))

/-- The path of the last leaf that holds the symbol, in pre-order (R142). -/
def CodeTree.lastPath (t : CodeTree) (sym : Byte) : Option Bits :=
  ((t.paths.filter fun e => e.1 == sym).getLast?).map fun e => e.2

/-- The code of a symbol: `0` for the symbol of a root leaf (R143), else the path of its last leaf (R141, R142). -/
def CodeTree.code : CodeTree → Byte → Option Bits
  | .leaf x, sym => if sym = x then some [false] else none
  | .node l r, sym => (CodeTree.node l r).lastPath sym

/-- The bitstream of a symbol sequence (30_encoding.md R91); `none` when a symbol has no code. -/
def CodeTree.bits (t : CodeTree) : List Byte → Option Bits
  | [] => some []
  | x :: rest =>
    match t.code x, t.bits rest with
    | some p, some b => some (p ++ b)
    | _, _ => none

/-- The symbol a walk from the top of the tree ends at, with the bits it has not read; `none` when the bits end before a leaf
(45_bit_unpacker.md R210: "descend left on 0", "right on 1"). -/
def CodeTree.descend : CodeTree → Bits → Option (Byte × Bits)
  | .leaf sym, b => some (sym, b)
  | .node _ _, [] => none
  | .node l r, bit :: b => if bit then r.descend b else l.descend b

/-- One symbol off the front of a bitstream: a walk, or exactly one bit at a root leaf (R212). -/
def CodeTree.readSymbol : CodeTree → Bits → Option (Byte × Bits)
  | .leaf _, [] => none
  | .leaf sym, _ :: b => some (sym, b)
  | .node l r, b => (CodeTree.node l r).descend b

/-- `n` symbols off the front of a bitstream, with the bits not read; `none` when the bits run out (R213). -/
def CodeTree.readSymbols (t : CodeTree) : Nat → Bits → Option (List Byte × Bits)
  | 0, b => some ([], b)
  | n + 1, b =>
    match t.readSymbol b with
    | none => none
    | some (x, b') => (t.readSymbols n b').map fun e => (x :: e.1, e.2)

/-- `tree(i)` (R15), for walks no deeper than the bound. -/
def treeAt (arena : Vector Node 511) : Nat → NodeIndex → Option CodeTree
  | 0, _ => none
  | depth + 1, i =>
    match (nodeAt arena i).kind with
    | .leaf => some (.leaf (nodeAt arena i).sym)
    | .internal =>
      match treeAt arena depth (nodeAt arena i).left, treeAt arena depth (nodeAt arena i).right with
      | some l, some r => some (.node l r)
      | _, _ => none

/-- `tree(ROOT)` of the held tree. -/
def heldTree (s : State) : Option CodeTree := treeAt s.arena Config.walkDepth s.root

/-- The arena indices visited in pre-order from an index on. -/
def visits (arena : Vector Node 511) : Nat → NodeIndex → Option (List Nat)
  | 0, _ => none
  | depth + 1, i =>
    match (nodeAt arena i).kind with
    | .leaf => some [i.toNat]
    | .internal =>
      match visits arena depth (nodeAt arena i).left, visits arena depth (nodeAt arena i).right with
      | some l, some r => some (i.toNat :: (l ++ r))
      | _, _ => none

/-! ### The invariants of R44 -/

/-- The number of LEAF entries below NODE_COUNT. -/
def leafCount (s : State) : Nat :=
  (List.range s.nodeCount.toNat).countP fun i => (nodeAt s.arena (BitVec.ofNat 9 i)).kind == .leaf

/-- R44(c): 1 ≤ NODE_COUNT ≤ 511, ROOT < NODE_COUNT, the entries reachable from ROOT are exactly those below NODE_COUNT,
each reached once, and NODE_COUNT = 2·L − 1 for L leaves. -/
def ArenaIsTree (s : State) : Prop :=
  1 ≤ s.nodeCount.toNat ∧ s.nodeCount.toNat ≤ 511 ∧ s.root.toNat < s.nodeCount.toNat ∧
    (∃ v, visits s.arena Config.walkDepth s.root = some v ∧ (∀ i ∈ v, i < s.nodeCount.toNat) ∧
      ∀ i, i < s.nodeCount.toNat → v.count i = 1) ∧
    s.nodeCount.toNat + 1 = 2 * leafCount s

/-- The state invariants (a) to (d) of R44. -/
structure StateInvariant (s : State) : Prop where
  ctValid_needs_tree : s.ctValid = true → s.treeState ≠ .none
  no_tree_is_empty : s.treeState ≠ .valid → s.nodeCount = 0 ∧ s.root = 0
  valid_is_tree : s.treeState = .valid → ArenaIsTree s
  fatal_code : s.fatal = true → s.busy = false →
    s.errCode = .internalInvariant ∨ s.errCode = .locked ∨ s.errCode = .badCmd

/-- R31: CT_VALID is 1 only for a table "derived by GENCODES from the tree currently held". -/
def CodesFollowTree (s : State) : Prop :=
  s.ctValid = true → deriveCodes s.treeState s.root s.arena = some s.code

/-- R270: while reset is asserted "every state element takes its reset value". R46 leaves NODE[0..510] unspecified; that they
are blank here is the model's DESIGN CHOICE (log entry 3). -/
def HeldInReset (s : State) : Prop := s.inReset = true → s = blockReset s

/-! ### Bytes of the DMA space -/

/-- The `n` bytes from `a` on. -/
def bytesAt (m : List Host.Cell) (a n : Nat) : List Byte := (List.range n).map fun k => memGet m (a + k)

/-- Every byte outside `[a, a + n)` reads the same in both memories. -/
def SameOutside (m m' : List Host.Cell) (a n : Nat) : Prop :=
  ∀ x, x < a ∨ a + n ≤ x → memGet m' x = memGet m x

/-- BUS_OK for reads of the `n` bytes from `a` on. -/
def ReadsOk (s : State) (a n : Nat) : Prop := ∀ k, k < n → busOk s.busHoles (a + k) .read = true

/-- BUS_OK for writes of the `n` bytes from `a` on. -/
def WritesOk (s : State) (a n : Nat) : Prop := ∀ k, k < n → busOk s.busHoles (a + k) .write = true

/-- Bit k of the payload stored from `a` on, most significant bit of each byte first (30_encoding.md R90). -/
def payloadBit (m : List Host.Cell) (a k : Nat) : Bool := (memGet m (a + k / 8)).getLsbD (7 - k % 8)

/-- The first `n` bits of the payload stored from `a` on. -/
def payloadBits (m : List Host.Cell) (a n : Nat) : Bits := (List.range n).map (payloadBit m a)

/-! ### A tree stream cut anywhere (43_tree_codec.md R168, R171) -/

/-- What a parse takes off the stream for one node: the tag, and a leaf's symbol (30_encoding.md R88). -/
inductive StreamItem where
  | internal
  | leaf (sym : Byte)
  deriving DecidableEq, Repr

/-- The bytes of an item. -/
def StreamItem.bytes : StreamItem → List Byte
  | .internal => [0x00]
  | .leaf sym => [0x01, sym]

/-- The bytes of a list of items. -/
def itemBytes (items : List StreamItem) : List Byte := items.flatMap StreamItem.bytes

/-- With `n` subtrees still to parse, the items do not finish them: a leaf finishes one, and an internal node is one that two
take the place of. -/
def leavesOpen : Nat → List StreamItem → Bool
  | 0, _ => false
  | _ + 1, [] => true
  | n + 1, .leaf _ :: rest => leavesOpen n rest
  | n + 1, .internal :: rest => leavesOpen (n + 2) rest

/-- The parse of the one tree still has a node to begin after the items. -/
def Unfinished (items : List StreamItem) : Prop := leavesOpen 1 items = true

/-- The source window begins with the items, which fit in the arena and can be read, and the parse goes on after them. -/
def StreamBegins (s : State) (items : List StreamItem) : Prop :=
  Unfinished items ∧ items.length ≤ 511 ∧ (itemBytes items).length ≤ s.srcLen.toNat ∧
    bytesAt s.mem s.srcAddr.toNat (itemBytes items).length = itemBytes items ∧
    ReadsOk s s.srcAddr.toNat (itemBytes items).length

/-! ### The states a completion leaves -/

/-- A successful completion (40_command_lifecycle.md R107). -/
def okState (outLen inUsed : Word) (pad : BitVec 3) (s : State) : State :=
  { s with outLen := outLen, inUsed := inUsed, pad := pad, pending := none, done := true, err := false,
           errCode := .none }

/-- An error completion that changes nothing but STATUS and the result registers (R105, R108). -/
def errState (c : ErrCode) (s : State) : State :=
  { s with outLen := 0, inUsed := 0, pad := 0, pending := none, done := true, err := true, errCode := c }

/-! ### Safe and ended runs -/

/-- A safe step: the machine neither faults nor has no move. -/
def SafeStep (s : State) : Prop := ∃ t, step s = .next t

/-- HOST still has a CMD write to make. -/
def commandToCome (inputs : List Event) : Bool :=
  inputs.any fun
    | .host (.regWrite _ off _) => off == 0x0000
    | _ => false

/-- The end of a run of a HOST program (70 R292): HOST has issued its last command and has read STATUS with DONE = 1 for it.
What HOST reads and stores afterwards does not undo it. -/
def runEnded (s : State) : Bool := !commandToCome s.inputs && !s.busy && s.doneSeen

end Sys2Proof
end

