-- ==== Sys2Proof/Certificates/Slice0/Obligations.lean ====
section
/-! DEFINITION. The statements for the provers. Each docstring names the rules of spec/ it formalises.
HOST moves are written as `step { s with inputs := .host op :: s.inputs }`: every state whose next event is `op` has this
form. A completion is written with `okState` (40_command_lifecycle.md R107) or `errState` (R108), so a statement that gives
the next state as an update of `s` also gives its whole frame. -/

open Sys2Proof Sys2Proof.Machine

/-! ### Encoding -/

/-- 30_encoding.md R81: the seven command words, each written out. -/
def Obligations.OpcodeWordsDecode : Prop :=
  decodeWord 0x00000001#32 = .ok .build ∧ decodeWord 0x00000002#32 = .ok .gencodes ∧
    decodeWord 0x00000003#32 = .ok .serialize ∧ decodeWord 0x00000004#32 = .ok .deserialize ∧
    decodeWord 0x00000005#32 = .ok .encode ∧ decodeWord 0x00000006#32 = .ok .decode ∧
    decodeWord 0x0000000F#32 = .ok .softReset

/-- 30_encoding.md R82: a word selects a command exactly when its bits 31:8 are 0 and its bits 7:0 are the opcode, on all
2^32 words; every other word is rejected. -/
def Obligations.DecoderIsExactOnAllWords : Prop :=
  ∀ w : Word,
    (∀ i, decodeWord w = .ok i ↔ w.extractLsb' 8 24 = 0 ∧ w.extractLsb' 0 8 = i.opcode) ∧
      ((∃ r, decodeWord w = .reject r) ↔
        ¬(w.extractLsb' 8 24 = 0 ∧ w.toNat ∈ [0x01, 0x02, 0x03, 0x04, 0x05, 0x06, 0x0F]))

/-- 30_encoding.md R80 to R82, R85: decoding and encoding agree in both directions, on words, on byte lanes and on the
opcode table's numbering. -/
def Obligations.DecodeAndEncodeAgree : Prop :=
  (∀ i : Instr, decodeWord (encode i) = .ok i ∧ decodeBytes (encodeBytes i) = .ok i ∧
      decodeTableWord 32 (encode i).toNat = some i) ∧
    (∀ (w : Word) (i : Instr), decodeWord w = .ok i → w = encode i) ∧
    ∀ (l : List Byte) (i : Instr), decodeBytes l = .ok i → l = encodeBytes i

/-! ### The life of a command -/

/-- 40_command_lifecycle.md R102, R106: CORE's step executes the pending word's command as one transition. When CORE's turn
comes (a CORE event, no event to come, HOST waiting for DONE) is the model's choice, log entry 4. -/
def Obligations.StepRunsPendingCommand : Prop :=
  ∀ (s : State) (w : Word) (i : Instr), s.inReset = false → s.pending = some w → decodeWord w = .ok i →
    step { s with inputs := .core :: s.inputs } = exec i s ∧
      (s.inputs = [] → step s = exec i s) ∧
      (s.done = false → ∀ rest, s.inputs = .host .waitDone :: rest → step s = exec i s)

/-- 40 R101, R100, 10_state.md R22: a CMD write is accepted exactly when BUSY = 0; acceptance sets BUSY, clears DONE, ERR,
ERRCODE and WIGN, makes the word pending and changes nothing else of the block, so IRQ drops; HOST has not yet seen its DONE. -/
def Obligations.CmdWriteIsAcceptedWhenIdle : Prop :=
  ∀ (s : State) (v : Word), s.inReset = false →
    (s.pending = none →
      step { s with inputs := .host (.regWrite 4 0x0000 v) :: s.inputs } =
        .next { s with done := false, err := false, errCode := .none, wign := false, pending := some v,
                       doneSeen := false }) ∧
    (∀ w, s.pending = some w →
      step { s with inputs := .host (.regWrite 4 0x0000 v) :: s.inputs } = .next { s with wign := true }) ∧
    ∀ t, s.pending = none → step { s with inputs := .host (.regWrite 4 0x0000 v) :: s.inputs } = .next t →
      t.busy = true ∧ t.irq = false

/-- 10_state.md R43, 70 R281: while BUSY a write to any offset of the window is ignored and sets WIGN. -/
def Obligations.WritesWhileBusyAreIgnored : Prop :=
  ∀ (s : State) (w v : Word) (off : Nat), s.inReset = false → s.pending = some w → off % 4 = 0 → off < 0x8000 →
    step { s with inputs := .host (.regWrite 4 off v) :: s.inputs } = .next { s with wign := true }

/-- 30_encoding.md R82, R84, 40 R103: a pending word that selects no command completes with BAD_CMD, whatever FATAL is,
and nothing but STATUS and the result registers changes. -/
def Obligations.IllegalWordCompletesBadCmd : Prop :=
  ∀ (s : State) (w : Word), s.inReset = false → s.pending = some w →
    w.toNat ∉ [0x01, 0x02, 0x03, 0x04, 0x05, 0x06, 0x0F] →
    step { s with inputs := .core :: s.inputs } = .next (errState .badCmd s)

/-- 10_state.md R32, 40 R103: while FATAL = 1 every command except SOFT_RESET completes with LOCKED and changes nothing
else. -/
def Obligations.LockedCommandsChangeNothingElse : Prop :=
  ∀ (i : Instr) (s : State), s.fatal = true → i ≠ .softReset → exec i s = .next (errState .locked s)

/-- 20_memory.md R63, R64, 40 R104, R105: the prechecks of each command, in order, each with its error, and nothing but
STATUS and the result registers changes. -/
def Obligations.PrecheckTable : Prop :=
  ∀ s : State, s.fatal = false →
    let src := s.srcAddr.toNat
    let srcEnd := s.srcAddr.toNat + s.srcLen.toNat
    let dst := s.dstAddr.toNat
    let dstEnd := s.dstAddr.toNat + s.dstCap.toNat
    let overlap := 0 < s.srcLen.toNat ∧ 0 < s.dstCap.toNat ∧ src < dstEnd ∧ dst < srcEnd
    let decodable := s.treeState = .valid ∨ s.treeState = .empty ∧ s.symCount = 0
    (s.treeState = .none → exec .gencodes s = .next (errState .noTree s)) ∧
    (s.treeState = .none → exec .serialize s = .next (errState .noTree s)) ∧
    (s.treeState ≠ .none → 2 ^ 32 < dstEnd → exec .serialize s = .next (errState .addrRange s)) ∧
    (2 ^ 32 < srcEnd → exec .deserialize s = .next (errState .addrRange s)) ∧
    (s.ctValid = false → exec .encode s = .next (errState .noCodes s)) ∧
    (s.ctValid = true → 2 ^ 32 < srcEnd → exec .encode s = .next (errState .addrRange s)) ∧
    (s.ctValid = true → srcEnd ≤ 2 ^ 32 → 2 ^ 32 < dstEnd → exec .encode s = .next (errState .addrRange s)) ∧
    (s.ctValid = true → srcEnd ≤ 2 ^ 32 → dstEnd ≤ 2 ^ 32 → overlap → exec .encode s = .next (errState .overlap s)) ∧
    (s.treeState = .none → exec .decode s = .next (errState .noTree s)) ∧
    (s.treeState = .empty → s.symCount ≠ 0 → exec .decode s = .next (errState .noTree s)) ∧
    (decodable → 2 ^ 32 < srcEnd → exec .decode s = .next (errState .addrRange s)) ∧
    (decodable → srcEnd ≤ 2 ^ 32 → 2 ^ 32 < dstEnd → exec .decode s = .next (errState .addrRange s)) ∧
    (decodable → srcEnd ≤ 2 ^ 32 → dstEnd ≤ 2 ^ 32 → overlap → exec .decode s = .next (errState .overlap s)) ∧
    (decodable → srcEnd ≤ 2 ^ 32 → dstEnd ≤ 2 ^ 32 → ¬overlap → s.dstCap.toNat < s.symCount.toNat →
      exec .decode s = .next (errState .dstOverflow s)) ∧
    (∃ t, exec .build s = .next t ∧ t.errCode = .none) ∧ ∃ t, exec .softReset s = .next t ∧ t.errCode = .none

/-- 40 R107, R108, 60 R244, R246: every command that completes sets DONE, clears BUSY, and sets ERR exactly with an error
code; after an error the result registers read 0; IRQ is then IE. -/
def Obligations.CompletionFields : Prop :=
  ∀ (i : Instr) (s t : State), exec i s = .next t →
    t.done = true ∧ t.busy = false ∧ (t.err = true ↔ t.errCode ≠ .none) ∧ t.irq = t.ie ∧
      (t.err = true → t.outLen = 0 ∧ t.inUsed = 0 ∧ t.pad = 0)

/-- 40 R109: no command hangs: from every state that meets the invariant of R44 each command completes. -/
def Obligations.EveryCommandCompletes : Prop :=
  ∀ (i : Instr) (s : State), StateInvariant s → ∃ t, exec i s = .next t

/-! ### What commands leave alone -/

/-- 20_memory.md R66, R67: a command changes no byte outside its destination window, and BUILD, GENCODES, DESERIALIZE and
SOFT_RESET write no memory at all. -/
def Obligations.CommandsWriteOnlyTheDestination : Prop :=
  ∀ (i : Instr) (s t : State), exec i s = .next t →
    SameOutside s.mem t.mem s.dstAddr.toNat s.dstCap.toNat ∧
      (i = .build ∨ i = .gencodes ∨ i = .deserialize ∨ i = .softReset → t.mem = s.mem)

/-- 10_state.md R26, R27, 46 R230: no command writes CTRL, an operand register or FREQ, except that SOFT_RESET clears
them; SOFT_RESET clears WIGN too; no command changes the platform, HOST's events, what HOST has read or the reset line. -/
def Obligations.CommandsKeepOperandsAndFreq : Prop :=
  ∀ (i : Instr) (s t : State), exec i s = .next t →
    t.busHoles = s.busHoles ∧ t.inputs = s.inputs ∧ t.reply = s.reply ∧ t.doneSeen = s.doneSeen ∧ t.inReset = s.inReset ∧
      (i ≠ .softReset → t.ie = s.ie ∧ t.srcAddr = s.srcAddr ∧ t.srcLen = s.srcLen ∧ t.dstAddr = s.dstAddr ∧
        t.dstCap = s.dstCap ∧ t.symCount = s.symCount ∧ t.freq = s.freq ∧ t.wign = s.wign) ∧
      (i = .softReset → t.wign = false ∧ t.ie = false ∧ t.srcAddr = 0 ∧ t.srcLen = 0 ∧ t.dstAddr = 0 ∧ t.dstCap = 0 ∧
        t.symCount = 0 ∧ ∀ x, freqOf t.freq x = 0)

/-- 43 R161, 45 R210, 40 R108: SERIALIZE, ENCODE and DECODE leave the tree and the code table as they were, with or
without an error; GENCODES leaves the tree as it was. -/
def Obligations.TreeSurvivesSerializeEncodeDecode : Prop :=
  ∀ (i : Instr) (s t : State), exec i s = .next t →
    (i = .serialize ∨ i = .encode ∨ i = .decode ∨ i = .gencodes →
      t.treeState = s.treeState ∧ t.root = s.root ∧ t.nodeCount = s.nodeCount ∧ t.arena = s.arena) ∧
    (i = .serialize ∨ i = .encode ∨ i = .decode → t.code = s.code ∧ t.ctValid = s.ctValid)

/-- 60 R243, 40 R108: INTERNAL_INVARIANT sets FATAL, and it is the only code that does; only ENCODE raises it. FATAL then
locks the block against every command but SOFT_RESET. -/
def Obligations.OnlyInternalInvariantSetsFatal : Prop :=
  (∀ (i : Instr) (s t : State), exec i s = .next t → t.errCode = .internalInvariant → t.fatal = true) ∧
    (∀ s t : State, step s = .next t → s.fatal = false → t.fatal = true →
      t.errCode = .internalInvariant ∧ s.pending = some 0x00000005#32) ∧
    ∀ (i : Instr) (s : State), s.fatal = true →
      (exec i s = .next (errState .locked s) ∨ i = .softReset) ∧ ∃ t, exec .softReset s = .next t ∧ t.fatal = false

/-- 10_state.md R32: only SOFT_RESET and hardware reset clear FATAL. -/
def Obligations.OnlyResetsClearFatal : Prop :=
  ∀ s t : State, step s = .next t → s.fatal = true → t.fatal = false →
    s.pending = some 0x0000000F#32 ∨ ∃ rest, s.inputs = .resetAssert :: rest

/-! ### BUILD -/

/-- 41 R122 (N = 0), 60 R242: with every FREQ entry 0, BUILD completes without error and gives the EMPTY tree. -/
def Obligations.BuildOfEmptyAlphabet : Prop :=
  ∀ s : State, s.fatal = false → (∀ x, freqOf s.freq x = 0) →
    ∃ arena code,
      exec .build s = .next (okState 0 0 0 { s with code := code, ctValid := false, treeState := .empty,
                                                     nodeCount := 0, root := 0, arena := arena }) ∧
      ∀ x, codeOf code x = none

/-- 41 R124, R122: BUILD completes; with N ≥ 1 nonzero entries NODE_COUNT = 2·N − 1, ROOT = 2·N − 2, every internal node
has a larger index than both its children, and the root's weight is the sum of FREQ, which is the input's length when
FREQ = freq(S). The code table is cleared and nothing else changes. -/
def Obligations.BuildShapeFacts : Prop :=
  ∀ (s : State) (n : Nat), s.fatal = false →
    n = (List.range 256).countP (fun k => freqOf s.freq (BitVec.ofNat 8 k) != 0) → 1 ≤ n →
    ∃ arena code nodeCount root,
      exec .build s = .next (okState 0 0 0 { s with code := code, ctValid := false, treeState := .valid,
                                                     nodeCount := nodeCount, root := root, arena := arena }) ∧
      nodeCount.toNat = 2 * n - 1 ∧ root.toNat = 2 * n - 2 ∧
      (∀ i : NodeIndex, i.toNat < 2 * n - 1 → (nodeAt arena i).kind = .internal →
        (nodeAt arena i).left.toNat < i.toNat ∧ (nodeAt arena i).right.toNat < i.toNat) ∧
      (nodeAt arena root).weight.toNat =
        ((List.range 256).map fun k => (freqOf s.freq (BitVec.ofNat 8 k)).toNat).sum ∧
      (∀ input : List Byte, (∀ x, (freqOf s.freq x).toNat = input.count x) →
        (nodeAt arena root).weight.toNat = input.length) ∧
      ∀ x, codeOf code x = none

/-- 41 R121, R123: the leaves stand at indices 0 to N − 1 in ascending symbol order; every later index m holds the merge
of the two least nodes not yet merged, by (weight, index), with the smaller index left. -/
def Obligations.BuildMergesTheTwoLeast : Prop :=
  ∀ (s t : State) (symbols : List Byte), s.fatal = false →
    symbols = ((List.range 256).map (BitVec.ofNat 8)).filter (fun x => freqOf s.freq x != 0) →
    exec .build s = .next t →
    let node := fun k : Nat => nodeAt t.arena (BitVec.ofNat 9 k)
    let unmerged := fun j m : Nat =>
      ∀ k, symbols.length ≤ k → k < m → (node k).left.toNat ≠ j ∧ (node k).right.toNat ≠ j
    let before := fun i j : Nat =>
      (node i).weight.toNat < (node j).weight.toNat ∨ (node i).weight.toNat = (node j).weight.toNat ∧ i < j
    (∀ k x, symbols[k]? = some x →
      node k = { kind := .leaf, sym := x, left := 0, right := 0, weight := (freqOf s.freq x).setWidth 40 }) ∧
    ∀ m, symbols.length ≤ m → m + 1 < 2 * symbols.length →
      ∃ a b, a < b ∧ b < m ∧ unmerged a m ∧ unmerged b m ∧
        (node m).kind = .internal ∧ (node m).sym = 0 ∧ (node m).left.toNat = a ∧ (node m).right.toNat = b ∧
        (node m).weight.toNat = (node a).weight.toNat + (node b).weight.toNat ∧
        ∀ j, j < m → unmerged j m → j ≠ a → j ≠ b → before a j ∧ before b j

/-- 41 R125: two BUILDs from the same FREQ give identical arenas, ROOT and NODE_COUNT, and identical code tables after
GENCODES, whatever else differs. -/
def Obligations.BuildDependsOnlyOnFreq : Prop :=
  ∀ s1 s2 t1 t2 : State, s1.fatal = false → s2.fatal = false → s1.freq = s2.freq →
    exec .build s1 = .next t1 → exec .build s2 = .next t2 →
    t1.arena = t2.arena ∧ t1.root = t2.root ∧ t1.nodeCount = t2.nodeCount ∧ t1.treeState = t2.treeState ∧
      ∀ u1 u2, exec .gencodes t1 = .next u1 → exec .gencodes t2 = .next u2 → u1.code = u2.code

/-! ### GENCODES -/

/-- 42 R141, R142: GENCODES completes on a held tree with an internal root; each symbol's code is the path of the last leaf
in pre-order that holds it, and a symbol at no leaf has none. -/
def Obligations.GencodesRecordsLeafPaths : Prop :=
  ∀ (s : State) (l r : CodeTree), s.fatal = false → s.treeState = .valid → heldTree s = some (.node l r) →
    ∃ code, exec .gencodes s = .next (okState 0 0 0 { s with code := code, ctValid := true }) ∧
      ∀ x, codeOf code x = (CodeTree.node l r).lastPath x

/-- 42 R143: a root leaf's symbol has the code `0` of length 1, and no other symbol has a code. -/
def Obligations.GencodesAtRootLeaf : Prop :=
  ∀ s : State, s.fatal = false → s.treeState = .valid → (nodeAt s.arena s.root).kind = .leaf →
    ∃ code, exec .gencodes s = .next (okState 0 0 0 { s with code := code, ctValid := true }) ∧
      ∀ x, codeOf code x = if x = (nodeAt s.arena s.root).sym then some [false] else none

/-- 42 R141 (EMPTY): an EMPTY tree gives a valid table with no entry. -/
def Obligations.GencodesOfEmptyTree : Prop :=
  ∀ s : State, s.fatal = false → s.treeState = .empty →
    ∃ code, exec .gencodes s = .next (okState 0 0 0 { s with code := code, ctValid := true }) ∧
      ∀ x, codeOf code x = none

/-- 42 R144: after GENCODES on a tree in which each symbol occurs at most once, no present code is a prefix of another
symbol's, and every present code has length at least 1. -/
def Obligations.CodesArePrefixFree : Prop :=
  ∀ (s t : State) (tree : CodeTree), s.fatal = false → s.treeState = .valid → heldTree s = some tree → tree.leaves.Nodup →
    exec .gencodes s = .next t →
    ∀ x p, codeOf t.code x = some p → 1 ≤ p.length ∧
      ∀ y q, codeOf t.code y = some q → x ≠ y → ¬p <+: q

/-- 42 R145: on a tree of R44(c) every present code has length at most 255. -/
def Obligations.CodeLengthIsBounded : Prop :=
  ∀ s t : State, s.fatal = false → s.treeState = .valid → ArenaIsTree s → exec .gencodes s = .next t →
    ∀ x p, codeOf t.code x = some p → 1 ≤ p.length ∧ p.length ≤ 255

/-! ### SERIALIZE -/

/-- 43 R162, R161: SERIALIZE completes and the bytes written are exactly the stream of the held tree, or none for EMPTY;
they start at DST_ADDR and OUT_LEN is their number. Nothing else changes. -/
def Obligations.SerializeWritesTheStream : Prop :=
  ∀ (s : State) (out : List Byte), s.fatal = false → memWf s.mem = true →
    (s.treeState = .empty ∧ out = [] ∨ s.treeState = .valid ∧ ∃ tree, heldTree s = some tree ∧ out = tree.stream) →
    s.dstAddr.toNat + s.dstCap.toNat ≤ 2 ^ 32 → out.length ≤ s.dstCap.toNat →
    WritesOk s s.dstAddr.toNat out.length →
    ∃ m, exec .serialize s = .next (okState (BitVec.ofNat 32 out.length) 0 0 { s with mem := m }) ∧
      bytesAt m s.dstAddr.toNat out.length = out ∧ SameOutside s.mem m s.dstAddr.toNat out.length ∧
      (BitVec.ofNat 32 out.length).toNat = out.length

/-- 43 R161, 20 R67: a stream longer than DST_CAP raises DST_OVERFLOW and leaves memory unchanged. -/
def Obligations.SerializeOverflowWritesNothing : Prop :=
  ∀ (s : State) (tree : CodeTree), s.fatal = false → s.treeState = .valid → heldTree s = some tree →
    s.dstAddr.toNat + s.dstCap.toNat ≤ 2 ^ 32 → s.dstCap.toNat < tree.stream.length →
    exec .serialize s = .next (errState .dstOverflow s)

/-- 20 R62, R67, 40 R108: a BUS_ERROR on a destination write of SERIALIZE or ENCODE completes with BUS_ERROR; bytes outside
the destination window are unchanged, those inside are unspecified, and the rest of the state is as after any error. -/
def Obligations.DestinationWriteBusError : Prop :=
  ∀ (s : State) (i : Instr) (out : List Byte) (k : Nat), s.fatal = false →
    s.dstAddr.toNat + s.dstCap.toNat ≤ 2 ^ 32 → out.length ≤ s.dstCap.toNat → k < out.length →
    busOk s.busHoles (s.dstAddr.toNat + k) .write = false →
    (i = .serialize ∧ s.treeState = .valid ∧ (∃ tree, heldTree s = some tree ∧ out = tree.stream) ∨
      i = .encode ∧ s.ctValid = true ∧ s.srcAddr.toNat + s.srcLen.toNat ≤ 2 ^ 32 ∧
        ¬(0 < s.srcLen.toNat ∧ 0 < s.dstCap.toNat ∧ s.srcAddr.toNat < s.dstAddr.toNat + s.dstCap.toNat ∧
          s.dstAddr.toNat < s.srcAddr.toNat + s.srcLen.toNat) ∧
        ReadsOk s s.srcAddr.toNat s.srcLen.toNat ∧
        ∃ codes : List Bits,
          (bytesAt s.mem s.srcAddr.toNat s.srcLen.toNat).map (codeOf s.code) = codes.map some ∧
            out.length = (codes.flatten.length + 7) / 8) →
    ∃ m draws, exec i s = .next (errState .busError { s with mem := m, draws := draws }) ∧
      SameOutside s.mem m s.dstAddr.toNat s.dstCap.toNat

/-! ### DESERIALIZE -/

/-- 43 R168, R171, 60 R242: a zero-length source window gives the EMPTY tree, and reads nothing. -/
def Obligations.DeserializeOfNothing : Prop :=
  ∀ s : State, s.fatal = false → s.srcLen = 0 →
    ∃ arena code,
      exec .deserialize s = .next (okState 0 0 0 { s with code := code, ctValid := false, treeState := .empty,
                                                           nodeCount := 0, root := 0, arena := arena }) ∧
      ∀ x, codeOf code x = none

/-- 43 R173(a), R168, R172: DESERIALIZE over the stream of a tree with at most 256 leaves completes and rebuilds it: the
tree at ROOT is the same tree, ROOT is 0, the nodes are numbered in pre-order, every weight is 0, IN_USED is the stream's
length, and bytes after it are not read. Nothing else changes. -/
def Obligations.DeserializeRebuildsTheTree : Prop :=
  ∀ (s : State) (tree : CodeTree), s.fatal = false → s.srcAddr.toNat + s.srcLen.toNat ≤ 2 ^ 32 →
    tree.leaves.length ≤ 256 → tree.stream.length ≤ s.srcLen.toNat →
    bytesAt s.mem s.srcAddr.toNat tree.stream.length = tree.stream →
    ReadsOk s s.srcAddr.toNat tree.stream.length →
    ∃ arena code nodeCount,
      exec .deserialize s =
        .next (okState 0 (BitVec.ofNat 32 tree.stream.length) 0
          { s with code := code, ctValid := false, treeState := .valid, nodeCount := nodeCount, root := 0,
                   arena := arena }) ∧
      treeAt arena Config.walkDepth 0 = some tree ∧
      visits arena Config.walkDepth 0 = some (List.range nodeCount.toNat) ∧ nodeCount.toNat = 2 * tree.leaves.length - 1 ∧
      tree.stream.length + 1 = 3 * tree.leaves.length ∧
      (∀ i : NodeIndex, i.toNat < nodeCount.toNat → (nodeAt arena i).weight = 0) ∧ ∀ x, codeOf code x = none

/-- 43 R173(b), R172: after a successful DESERIALIZE of a nonempty window the held tree's stream is exactly the IN_USED
bytes the parse consumed, so a following SERIALIZE has these bytes to write. -/
def Obligations.DeserializedTreeHasTheParsedStream : Prop :=
  ∀ s t : State, s.fatal = false → s.srcLen ≠ 0 → exec .deserialize s = .next t → t.errCode = .none →
    t.treeState = .valid ∧ t.root = 0 ∧ t.inUsed.toNat ≤ s.srcLen.toNat ∧
      ∃ tree, heldTree t = some tree ∧ tree.stream = bytesAt s.mem s.srcAddr.toNat t.inUsed.toNat ∧
        t.inUsed.toNat + 1 = 3 * tree.leaves.length ∧ tree.leaves.length ≤ 256

/-- 43 R168, R170, R171, 30 R94: the format errors, at every position of the stream. The window begins with the items of a
stream that is not finished; then a window that ends there, or after a leaf's tag, raises FMT_TRUNCATED; a byte that is no
tag raises FMT_BAD_TAG; a tag after 511 nodes raises FMT_CAPACITY. Each loses the tree (40 R108) and leaves memory
unchanged. -/
def Obligations.DeserializeFormatErrors : Prop :=
  ∀ (s : State) (c : ErrCode) (items : List StreamItem), s.fatal = false → s.srcAddr.toNat + s.srcLen.toNat ≤ 2 ^ 32 →
    0 < s.srcLen.toNat → StreamBegins s items →
    let pos := (itemBytes items).length
    let tag := (memGet s.mem (s.srcAddr.toNat + pos)).toNat
    let tagRead := pos < s.srcLen.toNat ∧ busOk s.busHoles (s.srcAddr.toNat + pos) .read = true
    (c = .fmtTruncated ∧ (s.srcLen.toNat = pos ∨ s.srcLen.toNat = pos + 1 ∧ tagRead ∧ tag = 1 ∧ items.length < 511) ∨
      c = .fmtBadTag ∧ tagRead ∧ 2 ≤ tag ∨
      c = .fmtCapacity ∧ tagRead ∧ tag < 2 ∧ items.length = 511) →
    ∃ arena code,
      exec .deserialize s =
        .next (errState c { s with code := code, ctValid := false, treeState := .none, nodeCount := 0, root := 0,
                                   arena := arena })

/-- 43 R174: DESERIALIZE of the single byte 00 completes with ERR = 1 and FMT_TRUNCATED and leaves TREE_STATE = NONE. BUS_OK
is asked only for that one byte, so no other byte is read. -/
def Obligations.LoneInternalTagIsTruncated : Prop :=
  ∀ s : State, s.fatal = false → s.srcLen = 1 → memGet s.mem s.srcAddr.toNat = 0 →
    busOk s.busHoles s.srcAddr.toNat .read = true →
    ∃ t, exec .deserialize s = .next t ∧ t.err = true ∧ t.errCode = .fmtTruncated ∧ t.treeState = .none

/-- 40 R108, 60 R241, 43 R168, 20 R62: every DESERIALIZE error after the precheck loses the tree and the code table, writes no
memory and does not set FATAL; and a failing read of a byte the parse needs, a tag or a leaf's symbol, raises BUS_ERROR. -/
def Obligations.DeserializeErrorLosesTheTree : Prop :=
  (∀ s t : State, s.fatal = false → exec .deserialize s = .next t → t.errCode ≠ .none → t.errCode ≠ .addrRange →
    (t.errCode = .fmtTruncated ∨ t.errCode = .fmtBadTag ∨ t.errCode = .fmtCapacity ∨ t.errCode = .busError) ∧
      t.treeState = .none ∧ t.nodeCount = 0 ∧ t.root = 0 ∧ t.ctValid = false ∧ t.mem = s.mem ∧ t.fatal = false) ∧
  ∀ (s : State) (items : List StreamItem), s.fatal = false → s.srcAddr.toNat + s.srcLen.toNat ≤ 2 ^ 32 →
    StreamBegins s items →
    let pos := (itemBytes items).length
    (pos < s.srcLen.toNat ∧ busOk s.busHoles (s.srcAddr.toNat + pos) .read = false ∨
      pos + 1 < s.srcLen.toNat ∧ items.length < 511 ∧ busOk s.busHoles (s.srcAddr.toNat + pos) .read = true ∧
        memGet s.mem (s.srcAddr.toNat + pos) = 0x01 ∧ busOk s.busHoles (s.srcAddr.toNat + (pos + 1)) .read = false) →
    ∃ arena code,
      exec .deserialize s =
        .next (errState .busError { s with code := code, ctValid := false, treeState := .none, nodeCount := 0, root := 0,
                                           arena := arena })

/-! ### ENCODE -/

/-- 44 R193, R191, 30 R90, R91: ENCODE completes and the destination holds the concatenated codes, most significant bit
first, in ceil(n / 8) bytes; the last byte's PAD low-order bits are 0; IN_USED is SRC_LEN. Nothing else changes. -/
def Obligations.EncodeWritesThePackedCodes : Prop :=
  ∀ (s : State) (codes : List Bits), s.fatal = false → memWf s.mem = true → s.ctValid = true →
    s.srcAddr.toNat + s.srcLen.toNat ≤ 2 ^ 32 → s.dstAddr.toNat + s.dstCap.toNat ≤ 2 ^ 32 →
    ¬(0 < s.srcLen.toNat ∧ 0 < s.dstCap.toNat ∧ s.srcAddr.toNat < s.dstAddr.toNat + s.dstCap.toNat ∧
      s.dstAddr.toNat < s.srcAddr.toNat + s.srcLen.toNat) →
    ReadsOk s s.srcAddr.toNat s.srcLen.toNat →
    (bytesAt s.mem s.srcAddr.toNat s.srcLen.toNat).map (codeOf s.code) = codes.map some →
    let b := codes.flatten
    let nbytes := (b.length + 7) / 8
    nbytes ≤ s.dstCap.toNat → WritesOk s s.dstAddr.toNat nbytes →
    ∃ m pad, exec .encode s = .next (okState (BitVec.ofNat 32 nbytes) s.srcLen pad { s with mem := m }) ∧
      (BitVec.ofNat 32 nbytes).toNat = nbytes ∧ pad.toNat + b.length = 8 * nbytes ∧
      (∀ k, k < b.length → payloadBit m s.dstAddr.toNat k = b.getD k false) ∧
      (∀ k, b.length ≤ k → k < 8 * nbytes → payloadBit m s.dstAddr.toNat k = false) ∧
      SameOutside s.mem m s.dstAddr.toNat nbytes

/-- 44 R192, R194: the order of ENCODE's checks after its prechecks: a source read that fails raises BUS_ERROR; then a
symbol with no code raises INTERNAL_INVARIANT, which sets FATAL; then an output longer than DST_CAP raises DST_OVERFLOW.
Memory is unchanged each time. -/
def Obligations.EncodeErrorOrder : Prop :=
  ∀ s : State, s.fatal = false → s.ctValid = true →
    s.srcAddr.toNat + s.srcLen.toNat ≤ 2 ^ 32 → s.dstAddr.toNat + s.dstCap.toNat ≤ 2 ^ 32 →
    ¬(0 < s.srcLen.toNat ∧ 0 < s.dstCap.toNat ∧ s.srcAddr.toNat < s.dstAddr.toNat + s.dstCap.toNat ∧
      s.dstAddr.toNat < s.srcAddr.toNat + s.srcLen.toNat) →
    (∀ k, k < s.srcLen.toNat → busOk s.busHoles (s.srcAddr.toNat + k) .read = false →
      exec .encode s = .next (errState .busError s)) ∧
    (ReadsOk s s.srcAddr.toNat s.srcLen.toNat →
      (∀ k, k < s.srcLen.toNat → codeOf s.code (memGet s.mem (s.srcAddr.toNat + k)) = none →
        exec .encode s = .next { errState .internalInvariant s with fatal := true }) ∧
      ∀ codes : List Bits,
        (bytesAt s.mem s.srcAddr.toNat s.srcLen.toNat).map (codeOf s.code) = codes.map some →
        8 * s.dstCap.toNat < codes.flatten.length →
        exec .encode s = .next (errState .dstOverflow s))

/-! ### DECODE -/

/-- 45 R215, R210, R211, R213: DECODE of a payload that holds the codes of a symbol sequence under the held tree completes
and writes the sequence; it consumes ceil(n / 8) bytes and PAD is the rest of the last one. BUS_OK is asked only for the
bytes consumed and written. Nothing else changes. -/
def Obligations.DecodeInvertsTheCodes : Prop :=
  ∀ (s : State) (tree : CodeTree) (symbols : List Byte) (b : Bits), s.fatal = false → memWf s.mem = true →
    s.treeState = .valid → heldTree s = some tree → tree.bits symbols = some b →
    s.srcAddr.toNat + s.srcLen.toNat ≤ 2 ^ 32 → s.dstAddr.toNat + s.dstCap.toNat ≤ 2 ^ 32 →
    ¬(0 < s.srcLen.toNat ∧ 0 < s.dstCap.toNat ∧ s.srcAddr.toNat < s.dstAddr.toNat + s.dstCap.toNat ∧
      s.dstAddr.toNat < s.srcAddr.toNat + s.srcLen.toNat) →
    s.symCount.toNat = symbols.length → symbols.length ≤ s.dstCap.toNat → b.length ≤ 8 * s.srcLen.toNat →
    ReadsOk s s.srcAddr.toNat ((b.length + 7) / 8) → WritesOk s s.dstAddr.toNat symbols.length →
    (∀ k, k < b.length → payloadBit s.mem s.srcAddr.toNat k = b.getD k false) →
    ∃ m used pad, exec .decode s = .next (okState s.symCount used pad { s with mem := m }) ∧
      used.toNat = (b.length + 7) / 8 ∧ pad.toNat + b.length = 8 * used.toNat ∧
      bytesAt m s.dstAddr.toNat symbols.length = symbols ∧
      SameOutside s.mem m s.dstAddr.toNat symbols.length

/-- 45 R215: if ENCODE succeeded with the code table of the held tree, then DECODE of the payload it wrote, under the same
tree, with SRC_LEN at least its length and SYM_COUNT the source's length, writes the source back, with IN_USED the
payload's length and the same PAD. `s` is the state before ENCODE, `t` after it, `u` before DECODE: between them HOST may
have moved the payload and changed anything but the tree. -/
def Obligations.DecodeUndoesEncode : Prop :=
  ∀ s t u : State, memWf s.mem = true → memWf u.mem = true → CodesFollowTree s →
    (s.treeState = .valid → ∃ tree, heldTree s = some tree) → exec .encode s = .next t → t.errCode = .none →
    u.fatal = false → u.treeState = s.treeState → u.root = s.root → u.arena = s.arena → s.treeState ≠ .none →
    bytesAt u.mem u.srcAddr.toNat t.outLen.toNat = bytesAt t.mem s.dstAddr.toNat t.outLen.toNat →
    t.outLen.toNat ≤ u.srcLen.toNat → u.symCount = s.srcLen → u.symCount.toNat ≤ u.dstCap.toNat →
    u.srcAddr.toNat + u.srcLen.toNat ≤ 2 ^ 32 → u.dstAddr.toNat + u.dstCap.toNat ≤ 2 ^ 32 →
    ¬(0 < u.srcLen.toNat ∧ 0 < u.dstCap.toNat ∧ u.srcAddr.toNat < u.dstAddr.toNat + u.dstCap.toNat ∧
      u.dstAddr.toNat < u.srcAddr.toNat + u.srcLen.toNat) →
    ReadsOk u u.srcAddr.toNat t.outLen.toNat → WritesOk u u.dstAddr.toNat u.symCount.toNat →
    ∃ m, exec .decode u = .next (okState u.symCount t.outLen t.pad { u with mem := m }) ∧
      bytesAt m u.dstAddr.toNat u.symCount.toNat = bytesAt s.mem s.srcAddr.toNat s.srcLen.toNat ∧
      SameOutside u.mem m u.dstAddr.toNat u.symCount.toNat

/-- 45 R212: at a root leaf DECODE consumes exactly one payload bit per symbol, whatever its value, and emits the root's
symbol. -/
def Obligations.DecodeAtRootLeaf : Prop :=
  ∀ s : State, s.fatal = false → memWf s.mem = true → s.treeState = .valid →
    (nodeAt s.arena s.root).kind = .leaf →
    s.srcAddr.toNat + s.srcLen.toNat ≤ 2 ^ 32 → s.dstAddr.toNat + s.dstCap.toNat ≤ 2 ^ 32 →
    ¬(0 < s.srcLen.toNat ∧ 0 < s.dstCap.toNat ∧ s.srcAddr.toNat < s.dstAddr.toNat + s.dstCap.toNat ∧
      s.dstAddr.toNat < s.srcAddr.toNat + s.srcLen.toNat) →
    s.symCount.toNat ≤ s.dstCap.toNat → s.symCount.toNat ≤ 8 * s.srcLen.toNat →
    ReadsOk s s.srcAddr.toNat ((s.symCount.toNat + 7) / 8) → WritesOk s s.dstAddr.toNat s.symCount.toNat →
    ∃ m used pad, exec .decode s = .next (okState s.symCount used pad { s with mem := m }) ∧
      used.toNat = (s.symCount.toNat + 7) / 8 ∧ pad.toNat + s.symCount.toNat = 8 * used.toNat ∧
      bytesAt m s.dstAddr.toNat s.symCount.toNat = List.replicate s.symCount.toNat (nodeAt s.arena s.root).sym ∧
      SameOutside s.mem m s.dstAddr.toNat s.symCount.toNat

/-- 45 R210 (SYM_COUNT = 0), 60 R242: with SYM_COUNT = 0 DECODE completes with OUT_LEN = IN_USED = PAD = 0 and writes
nothing, with a VALID or an EMPTY tree. -/
def Obligations.DecodeOfNoSymbols : Prop :=
  ∀ s : State, s.fatal = false → s.treeState ≠ .none → s.symCount = 0 →
    s.srcAddr.toNat + s.srcLen.toNat ≤ 2 ^ 32 → s.dstAddr.toNat + s.dstCap.toNat ≤ 2 ^ 32 →
    ¬(0 < s.srcLen.toNat ∧ 0 < s.dstCap.toNat ∧ s.srcAddr.toNat < s.dstAddr.toNat + s.dstCap.toNat ∧
      s.dstAddr.toNat < s.srcAddr.toNat + s.srcLen.toNat) →
    exec .decode s = .next (okState 0 0 0 s)

/-- 45 R213, R210, R211, 20 R62, R67: DECODE's errors after its prechecks. When the payload's 8·SRC_LEN bits hold fewer than
SYM_COUNT symbols it raises PAYLOAD_UNDERRUN. A byte that cannot be read raises BUS_ERROR when a symbol still wanted needs
it (the first 8·k bits hold no more than j symbols, byte k fails), and so does a symbol that cannot be written (the first n
bits hold j + 1 symbols, symbol j's byte fails). Bytes outside the destination window are unchanged; those inside are
unspecified (free values, log entry 6). -/
def Obligations.DecodeRaisesUnderrunOrBusError : Prop :=
  ∀ (s : State) (c : ErrCode), s.fatal = false → s.treeState = .valid →
    s.srcAddr.toNat + s.srcLen.toNat ≤ 2 ^ 32 → s.dstAddr.toNat + s.dstCap.toNat ≤ 2 ^ 32 →
    ¬(0 < s.srcLen.toNat ∧ 0 < s.dstCap.toNat ∧ s.srcAddr.toNat < s.dstAddr.toNat + s.dstCap.toNat ∧
      s.dstAddr.toNat < s.srcAddr.toNat + s.srcLen.toNat) →
    s.symCount.toNat ≤ s.dstCap.toNat →
    let bits := payloadBits s.mem s.srcAddr.toNat
    (c = .payloadUnderrun ∧ ReadsOk s s.srcAddr.toNat s.srcLen.toNat ∧
        (8 * s.srcLen.toNat < s.symCount.toNat ∧ WritesOk s s.dstAddr.toNat s.dstCap.toNat ∨
          ∃ tree j, heldTree s = some tree ∧ j < s.symCount.toNat ∧ WritesOk s s.dstAddr.toNat j ∧
            tree.readSymbols (j + 1) (bits (8 * s.srcLen.toNat)) = none) ∨
      (c = .busError ∧ ∃ tree k j, heldTree s = some tree ∧ k < s.srcLen.toNat ∧ j < s.symCount.toNat ∧
        ReadsOk s s.srcAddr.toNat k ∧ WritesOk s s.dstAddr.toNat j ∧ tree.readSymbols (j + 1) (bits (8 * k)) = none ∧
        busOk s.busHoles (s.srcAddr.toNat + k) .read = false) ∨
      (c = .busError ∧ ∃ tree n j e, heldTree s = some tree ∧ n ≤ 8 * s.srcLen.toNat ∧ j < s.symCount.toNat ∧
        ReadsOk s s.srcAddr.toNat ((n + 7) / 8) ∧ WritesOk s s.dstAddr.toNat j ∧
        tree.readSymbols (j + 1) (bits n) = some e ∧ busOk s.busHoles (s.dstAddr.toNat + j) .write = false)) →
    ∃ m draws, exec .decode s = .next (errState c { s with mem := m, draws := draws }) ∧
      SameOutside s.mem m s.dstAddr.toNat s.dstCap.toNat

/-- 45 R214: after the last symbol no more bits matter: a successful DECODE gives the same results and the same symbols
when every unread payload bit and every other byte of memory is changed. -/
def Obligations.DecodeIgnoresUnreadBits : Prop :=
  ∀ (s t : State) (mem' : List Host.Cell), memWf s.mem = true → memWf mem' = true → s.fatal = false →
    exec .decode s = .next t → t.errCode = .none →
    (∀ k, k + t.pad.toNat < 8 * t.inUsed.toNat →
      payloadBit mem' s.srcAddr.toNat k = payloadBit s.mem s.srcAddr.toNat k) →
    ∃ m, exec .decode { s with mem := mem' } = .next { t with mem := m } ∧
      bytesAt m s.dstAddr.toNat s.symCount.toNat = bytesAt t.mem s.dstAddr.toNat s.symCount.toNat

/-! ### SOFT_RESET and hardware reset -/

/-- 46 R230, 10 R46: SOFT_RESET completes in every state, under FATAL too; every state element of the block then equals its
reset value except DONE, which is 1; IRQ is low and the DMA space is untouched. The arena is left open. -/
def Obligations.SoftResetRestoresResetValues : Prop :=
  ∀ s : State, ∃ arena,
    exec .softReset s =
      .next { State.reset with done := true, arena := arena, mem := s.mem, busHoles := s.busHoles, inputs := s.inputs,
                               reply := s.reply, doneSeen := s.doneSeen, draws := s.draws, inReset := s.inReset } ∧
      ∀ t, exec .softReset s = .next t → t.irq = false

/-- 10_state.md R46: what hardware reset leaves, from every state, and what `State.reset` is: STATUS, CTRL, every register,
FREQ and CODE at the values the spec states, IRQ low, no pending command. The DMA space is not reset (a command that was
pending is 70 R270's case). -/
def Obligations.ResetValues : Prop :=
  ∀ s t : State, t = State.reset ∨ step { s with inputs := .resetAssert :: s.inputs } = .next t →
    t.statusWord = 0 ∧ t.ctrlWord = 0 ∧ t.irq = false ∧ t.srcAddr = 0 ∧ t.srcLen = 0 ∧ t.dstAddr = 0 ∧ t.dstCap = 0 ∧
      t.symCount = 0 ∧ t.outLen = 0 ∧ t.inUsed = 0 ∧ t.pad = 0 ∧ t.root = 0 ∧ t.nodeCount = 0 ∧
      (∀ x, freqOf t.freq x = 0) ∧ (∀ x, codeOf t.code x = none) ∧ t.pending = none ∧
      (t ≠ State.reset → s.pending = none → t.mem = s.mem)

/-- 70 R270: asserting reset gives every state element its reset value and drops a pending command, with DONE 0; each byte
of its destination window is unspecified (log entry 10) and every other byte of memory is unchanged. While reset is asserted
HOST register accesses are refused (log entry 8); when it is released the block is as reset left it. -/
def Obligations.HardwareReset : Prop :=
  ∀ s : State,
    (∃ arena m draws,
      step { s with inputs := .resetAssert :: s.inputs } =
        .next { State.reset with arena := arena, mem := m, busHoles := s.busHoles, inputs := s.inputs, reply := s.reply,
                                 doneSeen := s.doneSeen, draws := draws, inReset := true } ∧
        SameOutside s.mem m s.dstAddr.toNat s.dstCap.toNat ∧
        ((∀ i, s.pending = some (encode i) → i ≠ .serialize ∧ i ≠ .encode ∧ i ≠ .decode) → m = s.mem)) ∧
    (s.inReset = true → ∀ bytes off v,
      step { s with inputs := .host (.regRead bytes off) :: s.inputs } = .refused .hostAccessInReset ∧
        step { s with inputs := .host (.regWrite bytes off v) :: s.inputs } = .refused .hostAccessInReset) ∧
    step { s with inputs := .resetRelease :: s.inputs } = .next { s with inReset := false }

/-! ### HOST's register accesses -/

/-- 10_state.md R23, R30, 46 R231, 60 R240: the fields of the STATUS word, with the numbers of ERRCODE and TREE_STATE. -/
def Obligations.StatusWordFields : Prop :=
  ∀ s : State,
    let w := s.statusWord
    let errCode : Nat := match s.errCode with
      | .none => 0x0
      | .fmtTruncated => 0x1
      | .fmtBadTag => 0x2
      | .fmtCapacity => 0x3
      | .internalInvariant => 0x4
      | .noTree => 0x5
      | .noCodes => 0x6
      | .dstOverflow => 0x7
      | .payloadUnderrun => 0x8
      | .addrRange => 0x9
      | .overlap => 0xA
      | .badCmd => 0xB
      | .locked => 0xC
      | .busError => 0xD
    let treeState : Nat := match s.treeState with
      | .none => 0
      | .empty => 1
      | .valid => 2
    w.getLsbD 0 = s.pending.isSome ∧ w.getLsbD 1 = s.done ∧ w.getLsbD 2 = s.err ∧ w.getLsbD 3 = s.wign ∧
      w.getLsbD 4 = s.fatal ∧ w.extractLsb' 5 3 = 0 ∧ (w.extractLsb' 8 4).toNat = errCode ∧ w.extractLsb' 12 4 = 0 ∧
      (w.extractLsb' 16 2).toNat = treeState ∧ w.extractLsb' 18 2 = 0 ∧ w.getLsbD 20 = s.ctValid ∧
      w.extractLsb' 21 11 = 0

/-- 10_state.md R24, R42: a STATUS write while idle clears DONE when bit 1 is 1 and changes nothing else; a write to a
read-only register is ignored; neither sets WIGN. -/
def Obligations.StatusAndReadOnlyWrites : Prop :=
  ∀ (s : State) (v : Word) (off : Nat), s.inReset = false → s.pending = none →
    step { s with inputs := .host (.regWrite 4 0x0004 v) :: s.inputs } =
        .next { s with done := s.done && !v.getLsbD 1 } ∧
      (off % 4 = 0 →
        off = 0x0030 ∨ off = 0x0034 ∨ off = 0x0038 ∨ off = 0x0040 ∨ off = 0x0044 ∨ (0x2000 ≤ off ∧ off < 0x3FF0) ∨
          (0x4000 ≤ off ∧ off < 0x4400) ∨ (0x5000 ≤ off ∧ off < 0x7000) →
        step { s with inputs := .host (.regWrite 4 off v) :: s.inputs } = .next s)

/-- 10_state.md R41: a reserved offset reads 0, idle or busy, and a write to one while idle is ignored and does not set
WIGN. -/
def Obligations.ReservedOffsets : Prop :=
  ∀ (s : State) (v : Word) (off : Nat), s.inReset = false → off % 4 = 0 →
    off = 0x000C ∨ (0x0024 ≤ off ∧ off ≤ 0x002C) ∨ off = 0x003C ∨ (0x0048 ≤ off ∧ off ≤ 0x03FC) ∨
      (0x0800 ≤ off ∧ off ≤ 0x1FFC) ∨ (0x3FF0 ≤ off ∧ off ≤ 0x3FFC) ∨ (0x4400 ≤ off ∧ off ≤ 0x4FFC) ∨
      (0x7000 ≤ off ∧ off ≤ 0x7FFC) →
    step { s with inputs := .host (.regRead 4 off) :: s.inputs } = .next { s with reply := some (.reg off 0) } ∧
      (s.pending = none → step { s with inputs := .host (.regWrite 4 off v) :: s.inputs } = .next s)

/-- 10_state.md R25, R26, R27, 46 R232: what a write to CTRL, to an operand register and to FREQ does while idle. -/
def Obligations.ControlOperandAndFreqWrites : Prop :=
  ∀ (s : State) (v : Word) (x : Byte), s.inReset = false → s.pending = none →
    let write := fun off : Nat => step { s with inputs := .host (.regWrite 4 off v) :: s.inputs }
    write 0x0008 = .next { s with ie := v.getLsbD 0 } ∧ write 0x0010 = .next { s with srcAddr := v } ∧
      write 0x0014 = .next { s with srcLen := v } ∧ write 0x0018 = .next { s with dstAddr := v } ∧
      write 0x001C = .next { s with dstCap := v } ∧ write 0x0020 = .next { s with symCount := v } ∧
      ∃ freq, write (0x0400 + 4 * x.toNat) = .next { s with freq := freq } ∧
        ∀ y, freqOf freq y = if y = x then v else freqOf s.freq y

/-- 10_state.md R21, R43, 46 R231: the registers that read exactly, idle or busy: CMD, STATUS, CTRL, the operand registers
and FREQ. A read has no side effect on the block; a STATUS read with DONE = 1 is what HOST has seen (70 R292). -/
def Obligations.ExactReads : Prop :=
  ∀ (s : State) (x : Byte), s.inReset = false →
    let reads := fun (off : Nat) (v : Word) =>
      step { s with inputs := .host (.regRead 4 off) :: s.inputs } = .next { s with reply := some (.reg off v) }
    step { s with inputs := .host (.regRead 4 0x0004) :: s.inputs } =
        .next { s with reply := some (.reg 0x0004 s.statusWord), doneSeen := s.doneSeen || s.done } ∧
      reads 0x0000 0 ∧ reads 0x0008 (if s.ie then 1 else 0) ∧ reads 0x0010 s.srcAddr ∧
      reads 0x0014 s.srcLen ∧ reads 0x0018 s.dstAddr ∧ reads 0x001C s.dstCap ∧ reads 0x0020 s.symCount ∧
      reads (0x0400 + 4 * x.toNat) (freqOf s.freq x)

/-- 10_state.md R28, R29, R34, 46 R231: the result registers, ROOT, NODE_COUNT and the NODE window while idle; at and above
NODE_COUNT all four words of an entry read 0. -/
def Obligations.ResultAndNodeReadsWhenIdle : Prop :=
  ∀ (s : State) (i : NodeIndex), s.inReset = false → s.pending = none → i.toNat < 511 →
    let reads := fun (off : Nat) (v : Word) =>
      step { s with inputs := .host (.regRead 4 off) :: s.inputs } = .next { s with reply := some (.reg off v) }
    let n := nodeAt s.arena i
    reads 0x0030 s.outLen ∧ reads 0x0034 s.inUsed ∧ reads 0x0038 (s.pad.setWidth 32) ∧
      reads 0x0040 (s.root.setWidth 32) ∧ reads 0x0044 (s.nodeCount.setWidth 32) ∧
      (s.nodeCount.toNat ≤ i.toNat → ∀ k, k < 4 → reads (0x2000 + 16 * i.toNat + 4 * k) 0) ∧
      (i.toNat < s.nodeCount.toNat →
        reads (0x2000 + 16 * i.toNat) (BitVec.ofNat 32 ((if n.kind = .leaf then 1 else 0) + 2 ^ 8 * n.sym.toNat)) ∧
        reads (0x2000 + 16 * i.toNat + 4) (BitVec.ofNat 32 (n.left.toNat + 2 ^ 16 * n.right.toNat)) ∧
        reads (0x2000 + 16 * i.toNat + 8) (BitVec.ofNat 32 (n.weight.toNat % 2 ^ 32)) ∧
        reads (0x2000 + 16 * i.toNat + 12) (BitVec.ofNat 32 (n.weight.toNat / 2 ^ 32)))

/-- 10_state.md R36, R37: the CODE_LEN and CODE_BITS windows while idle, for codes of the lengths R35 allows: the length
with bit 8 set, and code bit 32·w + j at bit 31 − j of word w; 0 where there is no code, no bit, or no valid table. -/
def Obligations.CodeWindowReadsWhenIdle : Prop :=
  ∀ (s : State) (x : Byte), s.inReset = false → s.pending = none →
    let reads := fun (off : Nat) (v : Word) =>
      step { s with inputs := .host (.regRead 4 off) :: s.inputs } = .next { s with reply := some (.reg off v) }
    (∀ p, s.ctValid = true → codeOf s.code x = some p → p.length ≤ 255 →
      reads (0x4000 + 4 * x.toNat) (BitVec.ofNat 32 (p.length + 256)) ∧
      ∀ w, w < 8 → ∃ v : Word, reads (0x5000 + 32 * x.toNat + 4 * w) v ∧
        ∀ j, j < 32 → v.getLsbD (31 - j) = p.getD (32 * w + j) false) ∧
    (s.ctValid = false ∨ codeOf s.code x = none →
      reads (0x4000 + 4 * x.toNat) 0 ∧ ∀ w, w < 8 → reads (0x5000 + 32 * x.toNat + 4 * w) 0)

/-- 10_state.md R43, 70 R280: while BUSY a read of a result register, ROOT, NODE_COUNT or a window completes and changes
nothing of the block; the value handed to HOST is a free value (log entry 6), and nothing is said of it. -/
def Obligations.BusyReadsAreUnspecified : Prop :=
  ∀ (s : State) (w : Word) (off : Nat), s.inReset = false → s.pending = some w → off % 4 = 0 →
    off = 0x0030 ∨ off = 0x0034 ∨ off = 0x0038 ∨ off = 0x0040 ∨ off = 0x0044 ∨ (0x2000 ≤ off ∧ off < 0x3FF0) ∨
      (0x4000 ≤ off ∧ off < 0x4400) ∨ (0x5000 ≤ off ∧ off < 0x7000) →
    step { s with inputs := .host (.regRead 4 off) :: s.inputs } =
      .next { s with reply := some (.reg off (Config.freeWord s.draws)), draws := s.draws + 1 }

/-- 10_state.md R40: a register access that is not 32 bits wide, not at a multiple of 4, or not below 0x8000 is refused. -/
def Obligations.OddAccessesAreRefused : Prop :=
  ∀ (s : State) (bytes off : Nat) (v : Word), s.inReset = false → ¬(bytes = 4 ∧ off % 4 = 0 ∧ off < 0x8000) →
    step { s with inputs := .host (.regRead bytes off) :: s.inputs } = .refused .hostAccessShape ∧
      step { s with inputs := .host (.regWrite bytes off v) :: s.inputs } = .refused .hostAccessShape

/-- 20_memory.md R73: while a command is pending, a HOST write to its source window and any HOST access to its destination
window is refused, and a HOST access elsewhere in the DMA space is not affected. -/
def Obligations.WindowRacesAreRefused : Prop :=
  ∀ (s : State) (i : Instr) (a : Word) (v : Byte), s.pending = some (encode i) →
    let inSrc := (i = .deserialize ∨ i = .encode ∨ i = .decode) ∧ s.srcAddr.toNat ≤ a.toNat ∧
      a.toNat < s.srcAddr.toNat + s.srcLen.toNat
    let inDst := (i = .serialize ∨ i = .encode ∨ i = .decode) ∧ s.dstAddr.toNat ≤ a.toNat ∧
      a.toNat < s.dstAddr.toNat + s.dstCap.toNat
    let read := step { s with inputs := .host (.memRead a) :: s.inputs }
    let write := step { s with inputs := .host (.memWrite a v) :: s.inputs }
    (inDst → read = .refused .hostWindowRace) ∧ (inSrc ∨ inDst → write = .refused .hostWindowRace) ∧
      (¬inDst → read = .next { s with reply := some (.mem a (memGet s.mem a.toNat)) }) ∧
      (¬inSrc → ¬inDst → ∃ m, write = .next { s with mem := m } ∧ SameOutside s.mem m a.toNat 1 ∧
        (memWf s.mem = true → memGet m a.toNat = v))

/-! ### Invariants every step keeps -/

/-- 10_state.md R44, R46: the state after reset meets every invariant stated below, and its memory is canonical. -/
def Obligations.ResetMeetsTheInvariants : Prop :=
  StateInvariant State.reset ∧ CodesFollowTree State.reset ∧ HeldInReset State.reset ∧ memWf State.reset.mem = true

/-- 10_state.md R44: every step keeps the state invariants (a) to (d), among them that the arena below NODE_COUNT is one
tree rooted at ROOT. -/
def Obligations.StepKeepsTheStateInvariant : Prop :=
  ∀ s t : State, StateInvariant s → step s = .next t → StateInvariant t

/-- 10_state.md R31, 42 R146, 70 R283: every step keeps CT_VALID = 1 only for the table derived from the tree held. -/
def Obligations.StepKeepsCodesFollowingTree : Prop :=
  ∀ s t : State, CodesFollowTree s → step s = .next t → CodesFollowTree t

/-- 20_memory.md R60: every step keeps the DMA space in the model's canonical form (log entry 1): addresses rise strictly
below 2^32 and no entry holds what an unlisted address reads as. -/
def Obligations.StepKeepsMemoryCanonical : Prop :=
  ∀ s t : State, memWf s.mem = true → step s = .next t → memWf t.mem = true

/-- 70 R270, 10 R46: every step keeps a block whose reset is asserted at its reset values. `HeldInReset` holds the arena too,
which R46 leaves unspecified, at the blank entries of `State.reset`: the model's choice, log entry 3. -/
def Obligations.StepKeepsHeldInReset : Prop :=
  ∀ s t : State, HeldInReset s → step s = .next t → HeldInReset t
end

