-- ==== Sys2Proof/Laws/State.lean ====
section
/-! SUPPORT. One lemma per field per update of State, each true by rfl, so that no later proof unfolds a record update. -/

namespace Sys2Proof.Machine

/-! ### accept -/

@[simp] theorem accept_done (w : Word) (s : State) : (accept w s).done = false := rfl
@[simp] theorem accept_err (w : Word) (s : State) : (accept w s).err = false := rfl
@[simp] theorem accept_wign (w : Word) (s : State) : (accept w s).wign = false := rfl
@[simp] theorem accept_fatal (w : Word) (s : State) : (accept w s).fatal = s.fatal := rfl
@[simp] theorem accept_errCode (w : Word) (s : State) : (accept w s).errCode = .none := rfl
@[simp] theorem accept_treeState (w : Word) (s : State) : (accept w s).treeState = s.treeState := rfl
@[simp] theorem accept_ctValid (w : Word) (s : State) : (accept w s).ctValid = s.ctValid := rfl
@[simp] theorem accept_ie (w : Word) (s : State) : (accept w s).ie = s.ie := rfl
@[simp] theorem accept_srcAddr (w : Word) (s : State) : (accept w s).srcAddr = s.srcAddr := rfl
@[simp] theorem accept_srcLen (w : Word) (s : State) : (accept w s).srcLen = s.srcLen := rfl
@[simp] theorem accept_dstAddr (w : Word) (s : State) : (accept w s).dstAddr = s.dstAddr := rfl
@[simp] theorem accept_dstCap (w : Word) (s : State) : (accept w s).dstCap = s.dstCap := rfl
@[simp] theorem accept_symCount (w : Word) (s : State) : (accept w s).symCount = s.symCount := rfl
@[simp] theorem accept_freq (w : Word) (s : State) : (accept w s).freq = s.freq := rfl
@[simp] theorem accept_outLen (w : Word) (s : State) : (accept w s).outLen = s.outLen := rfl
@[simp] theorem accept_inUsed (w : Word) (s : State) : (accept w s).inUsed = s.inUsed := rfl
@[simp] theorem accept_pad (w : Word) (s : State) : (accept w s).pad = s.pad := rfl
@[simp] theorem accept_root (w : Word) (s : State) : (accept w s).root = s.root := rfl
@[simp] theorem accept_nodeCount (w : Word) (s : State) : (accept w s).nodeCount = s.nodeCount := rfl
@[simp] theorem accept_arena (w : Word) (s : State) : (accept w s).arena = s.arena := rfl
@[simp] theorem accept_code (w : Word) (s : State) : (accept w s).code = s.code := rfl
@[simp] theorem accept_pending (w : Word) (s : State) : (accept w s).pending = some w := rfl
@[simp] theorem accept_inReset (w : Word) (s : State) : (accept w s).inReset = s.inReset := rfl
@[simp] theorem accept_mem (w : Word) (s : State) : (accept w s).mem = s.mem := rfl
@[simp] theorem accept_busHoles (w : Word) (s : State) : (accept w s).busHoles = s.busHoles := rfl
@[simp] theorem accept_inputs (w : Word) (s : State) : (accept w s).inputs = s.inputs := rfl
@[simp] theorem accept_reply (w : Word) (s : State) : (accept w s).reply = s.reply := rfl
@[simp] theorem accept_doneSeen (w : Word) (s : State) : (accept w s).doneSeen = false := rfl
@[simp] theorem accept_draws (w : Word) (s : State) : (accept w s).draws = s.draws := rfl

/-! ### completeOk -/

@[simp] theorem completeOk_done (r : Results) (s : State) : (completeOk r s).done = true := rfl
@[simp] theorem completeOk_err (r : Results) (s : State) : (completeOk r s).err = false := rfl
@[simp] theorem completeOk_wign (r : Results) (s : State) : (completeOk r s).wign = s.wign := rfl
@[simp] theorem completeOk_fatal (r : Results) (s : State) : (completeOk r s).fatal = s.fatal := rfl
@[simp] theorem completeOk_errCode (r : Results) (s : State) : (completeOk r s).errCode = .none := rfl
@[simp] theorem completeOk_treeState (r : Results) (s : State) : (completeOk r s).treeState = s.treeState := rfl
@[simp] theorem completeOk_ctValid (r : Results) (s : State) : (completeOk r s).ctValid = s.ctValid := rfl
@[simp] theorem completeOk_ie (r : Results) (s : State) : (completeOk r s).ie = s.ie := rfl
@[simp] theorem completeOk_srcAddr (r : Results) (s : State) : (completeOk r s).srcAddr = s.srcAddr := rfl
@[simp] theorem completeOk_srcLen (r : Results) (s : State) : (completeOk r s).srcLen = s.srcLen := rfl
@[simp] theorem completeOk_dstAddr (r : Results) (s : State) : (completeOk r s).dstAddr = s.dstAddr := rfl
@[simp] theorem completeOk_dstCap (r : Results) (s : State) : (completeOk r s).dstCap = s.dstCap := rfl
@[simp] theorem completeOk_symCount (r : Results) (s : State) : (completeOk r s).symCount = s.symCount := rfl
@[simp] theorem completeOk_freq (r : Results) (s : State) : (completeOk r s).freq = s.freq := rfl
@[simp] theorem completeOk_outLen (r : Results) (s : State) : (completeOk r s).outLen = r.outLen := rfl
@[simp] theorem completeOk_inUsed (r : Results) (s : State) : (completeOk r s).inUsed = r.inUsed := rfl
@[simp] theorem completeOk_pad (r : Results) (s : State) : (completeOk r s).pad = r.pad := rfl
@[simp] theorem completeOk_root (r : Results) (s : State) : (completeOk r s).root = s.root := rfl
@[simp] theorem completeOk_nodeCount (r : Results) (s : State) : (completeOk r s).nodeCount = s.nodeCount := rfl
@[simp] theorem completeOk_arena (r : Results) (s : State) : (completeOk r s).arena = s.arena := rfl
@[simp] theorem completeOk_code (r : Results) (s : State) : (completeOk r s).code = s.code := rfl
@[simp] theorem completeOk_pending (r : Results) (s : State) : (completeOk r s).pending = none := rfl
@[simp] theorem completeOk_inReset (r : Results) (s : State) : (completeOk r s).inReset = s.inReset := rfl
@[simp] theorem completeOk_mem (r : Results) (s : State) : (completeOk r s).mem = s.mem := rfl
@[simp] theorem completeOk_busHoles (r : Results) (s : State) : (completeOk r s).busHoles = s.busHoles := rfl
@[simp] theorem completeOk_inputs (r : Results) (s : State) : (completeOk r s).inputs = s.inputs := rfl
@[simp] theorem completeOk_reply (r : Results) (s : State) : (completeOk r s).reply = s.reply := rfl
@[simp] theorem completeOk_doneSeen (r : Results) (s : State) : (completeOk r s).doneSeen = s.doneSeen := rfl
@[simp] theorem completeOk_draws (r : Results) (s : State) : (completeOk r s).draws = s.draws := rfl

/-! ### dropTree -/

@[simp] theorem dropTree_done (s : State) : (dropTree s).done = s.done := rfl
@[simp] theorem dropTree_err (s : State) : (dropTree s).err = s.err := rfl
@[simp] theorem dropTree_wign (s : State) : (dropTree s).wign = s.wign := rfl
@[simp] theorem dropTree_fatal (s : State) : (dropTree s).fatal = s.fatal := rfl
@[simp] theorem dropTree_errCode (s : State) : (dropTree s).errCode = s.errCode := rfl
@[simp] theorem dropTree_treeState (s : State) : (dropTree s).treeState = .none := rfl
@[simp] theorem dropTree_ctValid (s : State) : (dropTree s).ctValid = false := rfl
@[simp] theorem dropTree_ie (s : State) : (dropTree s).ie = s.ie := rfl
@[simp] theorem dropTree_srcAddr (s : State) : (dropTree s).srcAddr = s.srcAddr := rfl
@[simp] theorem dropTree_srcLen (s : State) : (dropTree s).srcLen = s.srcLen := rfl
@[simp] theorem dropTree_dstAddr (s : State) : (dropTree s).dstAddr = s.dstAddr := rfl
@[simp] theorem dropTree_dstCap (s : State) : (dropTree s).dstCap = s.dstCap := rfl
@[simp] theorem dropTree_symCount (s : State) : (dropTree s).symCount = s.symCount := rfl
@[simp] theorem dropTree_freq (s : State) : (dropTree s).freq = s.freq := rfl
@[simp] theorem dropTree_outLen (s : State) : (dropTree s).outLen = s.outLen := rfl
@[simp] theorem dropTree_inUsed (s : State) : (dropTree s).inUsed = s.inUsed := rfl
@[simp] theorem dropTree_pad (s : State) : (dropTree s).pad = s.pad := rfl
@[simp] theorem dropTree_root (s : State) : (dropTree s).root = 0 := rfl
@[simp] theorem dropTree_nodeCount (s : State) : (dropTree s).nodeCount = 0 := rfl
@[simp] theorem dropTree_arena (s : State) : (dropTree s).arena = blankArena := rfl
@[simp] theorem dropTree_code (s : State) : (dropTree s).code = noCodes := rfl
@[simp] theorem dropTree_pending (s : State) : (dropTree s).pending = s.pending := rfl
@[simp] theorem dropTree_inReset (s : State) : (dropTree s).inReset = s.inReset := rfl
@[simp] theorem dropTree_mem (s : State) : (dropTree s).mem = s.mem := rfl
@[simp] theorem dropTree_busHoles (s : State) : (dropTree s).busHoles = s.busHoles := rfl
@[simp] theorem dropTree_inputs (s : State) : (dropTree s).inputs = s.inputs := rfl
@[simp] theorem dropTree_reply (s : State) : (dropTree s).reply = s.reply := rfl
@[simp] theorem dropTree_doneSeen (s : State) : (dropTree s).doneSeen = s.doneSeen := rfl
@[simp] theorem dropTree_draws (s : State) : (dropTree s).draws = s.draws := rfl

/-! ### spoilDst -/

@[simp] theorem spoilDst_done (s : State) : (spoilDst s).done = s.done := rfl
@[simp] theorem spoilDst_err (s : State) : (spoilDst s).err = s.err := rfl
@[simp] theorem spoilDst_wign (s : State) : (spoilDst s).wign = s.wign := rfl
@[simp] theorem spoilDst_fatal (s : State) : (spoilDst s).fatal = s.fatal := rfl
@[simp] theorem spoilDst_errCode (s : State) : (spoilDst s).errCode = s.errCode := rfl
@[simp] theorem spoilDst_treeState (s : State) : (spoilDst s).treeState = s.treeState := rfl
@[simp] theorem spoilDst_ctValid (s : State) : (spoilDst s).ctValid = s.ctValid := rfl
@[simp] theorem spoilDst_ie (s : State) : (spoilDst s).ie = s.ie := rfl
@[simp] theorem spoilDst_srcAddr (s : State) : (spoilDst s).srcAddr = s.srcAddr := rfl
@[simp] theorem spoilDst_srcLen (s : State) : (spoilDst s).srcLen = s.srcLen := rfl
@[simp] theorem spoilDst_dstAddr (s : State) : (spoilDst s).dstAddr = s.dstAddr := rfl
@[simp] theorem spoilDst_dstCap (s : State) : (spoilDst s).dstCap = s.dstCap := rfl
@[simp] theorem spoilDst_symCount (s : State) : (spoilDst s).symCount = s.symCount := rfl
@[simp] theorem spoilDst_freq (s : State) : (spoilDst s).freq = s.freq := rfl
@[simp] theorem spoilDst_outLen (s : State) : (spoilDst s).outLen = s.outLen := rfl
@[simp] theorem spoilDst_inUsed (s : State) : (spoilDst s).inUsed = s.inUsed := rfl
@[simp] theorem spoilDst_pad (s : State) : (spoilDst s).pad = s.pad := rfl
@[simp] theorem spoilDst_root (s : State) : (spoilDst s).root = s.root := rfl
@[simp] theorem spoilDst_nodeCount (s : State) : (spoilDst s).nodeCount = s.nodeCount := rfl
@[simp] theorem spoilDst_arena (s : State) : (spoilDst s).arena = s.arena := rfl
@[simp] theorem spoilDst_code (s : State) : (spoilDst s).code = s.code := rfl
@[simp] theorem spoilDst_pending (s : State) : (spoilDst s).pending = s.pending := rfl
@[simp] theorem spoilDst_inReset (s : State) : (spoilDst s).inReset = s.inReset := rfl
@[simp] theorem spoilDst_mem (s : State) : (spoilDst s).mem = memFill s.mem s.dstAddr.toNat (fun k => Config.freeByte (s.draws + k)) (dstBytes s) := rfl
@[simp] theorem spoilDst_busHoles (s : State) : (spoilDst s).busHoles = s.busHoles := rfl
@[simp] theorem spoilDst_inputs (s : State) : (spoilDst s).inputs = s.inputs := rfl
@[simp] theorem spoilDst_reply (s : State) : (spoilDst s).reply = s.reply := rfl
@[simp] theorem spoilDst_doneSeen (s : State) : (spoilDst s).doneSeen = s.doneSeen := rfl
@[simp] theorem spoilDst_draws (s : State) : (spoilDst s).draws = s.draws + dstBytes s := rfl

/-! ### blockReset -/

@[simp] theorem blockReset_done (s : State) : (blockReset s).done = State.reset.done := rfl
@[simp] theorem blockReset_err (s : State) : (blockReset s).err = State.reset.err := rfl
@[simp] theorem blockReset_wign (s : State) : (blockReset s).wign = State.reset.wign := rfl
@[simp] theorem blockReset_fatal (s : State) : (blockReset s).fatal = State.reset.fatal := rfl
@[simp] theorem blockReset_errCode (s : State) : (blockReset s).errCode = State.reset.errCode := rfl
@[simp] theorem blockReset_treeState (s : State) : (blockReset s).treeState = State.reset.treeState := rfl
@[simp] theorem blockReset_ctValid (s : State) : (blockReset s).ctValid = State.reset.ctValid := rfl
@[simp] theorem blockReset_ie (s : State) : (blockReset s).ie = State.reset.ie := rfl
@[simp] theorem blockReset_srcAddr (s : State) : (blockReset s).srcAddr = State.reset.srcAddr := rfl
@[simp] theorem blockReset_srcLen (s : State) : (blockReset s).srcLen = State.reset.srcLen := rfl
@[simp] theorem blockReset_dstAddr (s : State) : (blockReset s).dstAddr = State.reset.dstAddr := rfl
@[simp] theorem blockReset_dstCap (s : State) : (blockReset s).dstCap = State.reset.dstCap := rfl
@[simp] theorem blockReset_symCount (s : State) : (blockReset s).symCount = State.reset.symCount := rfl
@[simp] theorem blockReset_freq (s : State) : (blockReset s).freq = State.reset.freq := rfl
@[simp] theorem blockReset_outLen (s : State) : (blockReset s).outLen = State.reset.outLen := rfl
@[simp] theorem blockReset_inUsed (s : State) : (blockReset s).inUsed = State.reset.inUsed := rfl
@[simp] theorem blockReset_pad (s : State) : (blockReset s).pad = State.reset.pad := rfl
@[simp] theorem blockReset_root (s : State) : (blockReset s).root = State.reset.root := rfl
@[simp] theorem blockReset_nodeCount (s : State) : (blockReset s).nodeCount = State.reset.nodeCount := rfl
@[simp] theorem blockReset_arena (s : State) : (blockReset s).arena = State.reset.arena := rfl
@[simp] theorem blockReset_code (s : State) : (blockReset s).code = State.reset.code := rfl
@[simp] theorem blockReset_pending (s : State) : (blockReset s).pending = State.reset.pending := rfl
@[simp] theorem blockReset_inReset (s : State) : (blockReset s).inReset = s.inReset := rfl
@[simp] theorem blockReset_mem (s : State) : (blockReset s).mem = s.mem := rfl
@[simp] theorem blockReset_busHoles (s : State) : (blockReset s).busHoles = s.busHoles := rfl
@[simp] theorem blockReset_inputs (s : State) : (blockReset s).inputs = s.inputs := rfl
@[simp] theorem blockReset_reply (s : State) : (blockReset s).reply = s.reply := rfl
@[simp] theorem blockReset_doneSeen (s : State) : (blockReset s).doneSeen = s.doneSeen := rfl
@[simp] theorem blockReset_draws (s : State) : (blockReset s).draws = s.draws := rfl

/-! ### releaseReset -/

@[simp] theorem releaseReset_done (s : State) : (releaseReset s).done = s.done := rfl
@[simp] theorem releaseReset_err (s : State) : (releaseReset s).err = s.err := rfl
@[simp] theorem releaseReset_wign (s : State) : (releaseReset s).wign = s.wign := rfl
@[simp] theorem releaseReset_fatal (s : State) : (releaseReset s).fatal = s.fatal := rfl
@[simp] theorem releaseReset_errCode (s : State) : (releaseReset s).errCode = s.errCode := rfl
@[simp] theorem releaseReset_treeState (s : State) : (releaseReset s).treeState = s.treeState := rfl
@[simp] theorem releaseReset_ctValid (s : State) : (releaseReset s).ctValid = s.ctValid := rfl
@[simp] theorem releaseReset_ie (s : State) : (releaseReset s).ie = s.ie := rfl
@[simp] theorem releaseReset_srcAddr (s : State) : (releaseReset s).srcAddr = s.srcAddr := rfl
@[simp] theorem releaseReset_srcLen (s : State) : (releaseReset s).srcLen = s.srcLen := rfl
@[simp] theorem releaseReset_dstAddr (s : State) : (releaseReset s).dstAddr = s.dstAddr := rfl
@[simp] theorem releaseReset_dstCap (s : State) : (releaseReset s).dstCap = s.dstCap := rfl
@[simp] theorem releaseReset_symCount (s : State) : (releaseReset s).symCount = s.symCount := rfl
@[simp] theorem releaseReset_freq (s : State) : (releaseReset s).freq = s.freq := rfl
@[simp] theorem releaseReset_outLen (s : State) : (releaseReset s).outLen = s.outLen := rfl
@[simp] theorem releaseReset_inUsed (s : State) : (releaseReset s).inUsed = s.inUsed := rfl
@[simp] theorem releaseReset_pad (s : State) : (releaseReset s).pad = s.pad := rfl
@[simp] theorem releaseReset_root (s : State) : (releaseReset s).root = s.root := rfl
@[simp] theorem releaseReset_nodeCount (s : State) : (releaseReset s).nodeCount = s.nodeCount := rfl
@[simp] theorem releaseReset_arena (s : State) : (releaseReset s).arena = s.arena := rfl
@[simp] theorem releaseReset_code (s : State) : (releaseReset s).code = s.code := rfl
@[simp] theorem releaseReset_pending (s : State) : (releaseReset s).pending = s.pending := rfl
@[simp] theorem releaseReset_inReset (s : State) : (releaseReset s).inReset = false := rfl
@[simp] theorem releaseReset_mem (s : State) : (releaseReset s).mem = s.mem := rfl
@[simp] theorem releaseReset_busHoles (s : State) : (releaseReset s).busHoles = s.busHoles := rfl
@[simp] theorem releaseReset_inputs (s : State) : (releaseReset s).inputs = s.inputs := rfl
@[simp] theorem releaseReset_reply (s : State) : (releaseReset s).reply = s.reply := rfl
@[simp] theorem releaseReset_doneSeen (s : State) : (releaseReset s).doneSeen = s.doneSeen := rfl
@[simp] theorem releaseReset_draws (s : State) : (releaseReset s).draws = s.draws := rfl

/-! ### writeCtrl -/

@[simp] theorem writeCtrl_done (v : Word) (s : State) : (writeCtrl v s).done = s.done := rfl
@[simp] theorem writeCtrl_err (v : Word) (s : State) : (writeCtrl v s).err = s.err := rfl
@[simp] theorem writeCtrl_wign (v : Word) (s : State) : (writeCtrl v s).wign = s.wign := rfl
@[simp] theorem writeCtrl_fatal (v : Word) (s : State) : (writeCtrl v s).fatal = s.fatal := rfl
@[simp] theorem writeCtrl_errCode (v : Word) (s : State) : (writeCtrl v s).errCode = s.errCode := rfl
@[simp] theorem writeCtrl_treeState (v : Word) (s : State) : (writeCtrl v s).treeState = s.treeState := rfl
@[simp] theorem writeCtrl_ctValid (v : Word) (s : State) : (writeCtrl v s).ctValid = s.ctValid := rfl
@[simp] theorem writeCtrl_ie (v : Word) (s : State) : (writeCtrl v s).ie = v.getLsbD 0 := rfl
@[simp] theorem writeCtrl_srcAddr (v : Word) (s : State) : (writeCtrl v s).srcAddr = s.srcAddr := rfl
@[simp] theorem writeCtrl_srcLen (v : Word) (s : State) : (writeCtrl v s).srcLen = s.srcLen := rfl
@[simp] theorem writeCtrl_dstAddr (v : Word) (s : State) : (writeCtrl v s).dstAddr = s.dstAddr := rfl
@[simp] theorem writeCtrl_dstCap (v : Word) (s : State) : (writeCtrl v s).dstCap = s.dstCap := rfl
@[simp] theorem writeCtrl_symCount (v : Word) (s : State) : (writeCtrl v s).symCount = s.symCount := rfl
@[simp] theorem writeCtrl_freq (v : Word) (s : State) : (writeCtrl v s).freq = s.freq := rfl
@[simp] theorem writeCtrl_outLen (v : Word) (s : State) : (writeCtrl v s).outLen = s.outLen := rfl
@[simp] theorem writeCtrl_inUsed (v : Word) (s : State) : (writeCtrl v s).inUsed = s.inUsed := rfl
@[simp] theorem writeCtrl_pad (v : Word) (s : State) : (writeCtrl v s).pad = s.pad := rfl
@[simp] theorem writeCtrl_root (v : Word) (s : State) : (writeCtrl v s).root = s.root := rfl
@[simp] theorem writeCtrl_nodeCount (v : Word) (s : State) : (writeCtrl v s).nodeCount = s.nodeCount := rfl
@[simp] theorem writeCtrl_arena (v : Word) (s : State) : (writeCtrl v s).arena = s.arena := rfl
@[simp] theorem writeCtrl_code (v : Word) (s : State) : (writeCtrl v s).code = s.code := rfl
@[simp] theorem writeCtrl_pending (v : Word) (s : State) : (writeCtrl v s).pending = s.pending := rfl
@[simp] theorem writeCtrl_inReset (v : Word) (s : State) : (writeCtrl v s).inReset = s.inReset := rfl
@[simp] theorem writeCtrl_mem (v : Word) (s : State) : (writeCtrl v s).mem = s.mem := rfl
@[simp] theorem writeCtrl_busHoles (v : Word) (s : State) : (writeCtrl v s).busHoles = s.busHoles := rfl
@[simp] theorem writeCtrl_inputs (v : Word) (s : State) : (writeCtrl v s).inputs = s.inputs := rfl
@[simp] theorem writeCtrl_reply (v : Word) (s : State) : (writeCtrl v s).reply = s.reply := rfl
@[simp] theorem writeCtrl_doneSeen (v : Word) (s : State) : (writeCtrl v s).doneSeen = s.doneSeen := rfl
@[simp] theorem writeCtrl_draws (v : Word) (s : State) : (writeCtrl v s).draws = s.draws := rfl

/-! ### okState -/

@[simp] theorem okState_done (outLen inUsed : Word) (pad : BitVec 3) (s : State) : (okState outLen inUsed pad s).done = true := rfl
@[simp] theorem okState_err (outLen inUsed : Word) (pad : BitVec 3) (s : State) : (okState outLen inUsed pad s).err = false := rfl
@[simp] theorem okState_wign (outLen inUsed : Word) (pad : BitVec 3) (s : State) : (okState outLen inUsed pad s).wign = s.wign := rfl
@[simp] theorem okState_fatal (outLen inUsed : Word) (pad : BitVec 3) (s : State) : (okState outLen inUsed pad s).fatal = s.fatal := rfl
@[simp] theorem okState_errCode (outLen inUsed : Word) (pad : BitVec 3) (s : State) : (okState outLen inUsed pad s).errCode = .none := rfl
@[simp] theorem okState_treeState (outLen inUsed : Word) (pad : BitVec 3) (s : State) : (okState outLen inUsed pad s).treeState = s.treeState := rfl
@[simp] theorem okState_ctValid (outLen inUsed : Word) (pad : BitVec 3) (s : State) : (okState outLen inUsed pad s).ctValid = s.ctValid := rfl
@[simp] theorem okState_ie (outLen inUsed : Word) (pad : BitVec 3) (s : State) : (okState outLen inUsed pad s).ie = s.ie := rfl
@[simp] theorem okState_srcAddr (outLen inUsed : Word) (pad : BitVec 3) (s : State) : (okState outLen inUsed pad s).srcAddr = s.srcAddr := rfl
@[simp] theorem okState_srcLen (outLen inUsed : Word) (pad : BitVec 3) (s : State) : (okState outLen inUsed pad s).srcLen = s.srcLen := rfl
@[simp] theorem okState_dstAddr (outLen inUsed : Word) (pad : BitVec 3) (s : State) : (okState outLen inUsed pad s).dstAddr = s.dstAddr := rfl
@[simp] theorem okState_dstCap (outLen inUsed : Word) (pad : BitVec 3) (s : State) : (okState outLen inUsed pad s).dstCap = s.dstCap := rfl
@[simp] theorem okState_symCount (outLen inUsed : Word) (pad : BitVec 3) (s : State) : (okState outLen inUsed pad s).symCount = s.symCount := rfl
@[simp] theorem okState_freq (outLen inUsed : Word) (pad : BitVec 3) (s : State) : (okState outLen inUsed pad s).freq = s.freq := rfl
@[simp] theorem okState_outLen (outLen inUsed : Word) (pad : BitVec 3) (s : State) : (okState outLen inUsed pad s).outLen = outLen := rfl
@[simp] theorem okState_inUsed (outLen inUsed : Word) (pad : BitVec 3) (s : State) : (okState outLen inUsed pad s).inUsed = inUsed := rfl
@[simp] theorem okState_pad (outLen inUsed : Word) (pad : BitVec 3) (s : State) : (okState outLen inUsed pad s).pad = pad := rfl
@[simp] theorem okState_root (outLen inUsed : Word) (pad : BitVec 3) (s : State) : (okState outLen inUsed pad s).root = s.root := rfl
@[simp] theorem okState_nodeCount (outLen inUsed : Word) (pad : BitVec 3) (s : State) : (okState outLen inUsed pad s).nodeCount = s.nodeCount := rfl
@[simp] theorem okState_arena (outLen inUsed : Word) (pad : BitVec 3) (s : State) : (okState outLen inUsed pad s).arena = s.arena := rfl
@[simp] theorem okState_code (outLen inUsed : Word) (pad : BitVec 3) (s : State) : (okState outLen inUsed pad s).code = s.code := rfl
@[simp] theorem okState_pending (outLen inUsed : Word) (pad : BitVec 3) (s : State) : (okState outLen inUsed pad s).pending = none := rfl
@[simp] theorem okState_inReset (outLen inUsed : Word) (pad : BitVec 3) (s : State) : (okState outLen inUsed pad s).inReset = s.inReset := rfl
@[simp] theorem okState_mem (outLen inUsed : Word) (pad : BitVec 3) (s : State) : (okState outLen inUsed pad s).mem = s.mem := rfl
@[simp] theorem okState_busHoles (outLen inUsed : Word) (pad : BitVec 3) (s : State) : (okState outLen inUsed pad s).busHoles = s.busHoles := rfl
@[simp] theorem okState_inputs (outLen inUsed : Word) (pad : BitVec 3) (s : State) : (okState outLen inUsed pad s).inputs = s.inputs := rfl
@[simp] theorem okState_reply (outLen inUsed : Word) (pad : BitVec 3) (s : State) : (okState outLen inUsed pad s).reply = s.reply := rfl
@[simp] theorem okState_doneSeen (outLen inUsed : Word) (pad : BitVec 3) (s : State) : (okState outLen inUsed pad s).doneSeen = s.doneSeen := rfl
@[simp] theorem okState_draws (outLen inUsed : Word) (pad : BitVec 3) (s : State) : (okState outLen inUsed pad s).draws = s.draws := rfl

/-! ### errState -/

@[simp] theorem errState_done (c : ErrCode) (s : State) : (errState c s).done = true := rfl
@[simp] theorem errState_err (c : ErrCode) (s : State) : (errState c s).err = true := rfl
@[simp] theorem errState_wign (c : ErrCode) (s : State) : (errState c s).wign = s.wign := rfl
@[simp] theorem errState_fatal (c : ErrCode) (s : State) : (errState c s).fatal = s.fatal := rfl
@[simp] theorem errState_errCode (c : ErrCode) (s : State) : (errState c s).errCode = c := rfl
@[simp] theorem errState_treeState (c : ErrCode) (s : State) : (errState c s).treeState = s.treeState := rfl
@[simp] theorem errState_ctValid (c : ErrCode) (s : State) : (errState c s).ctValid = s.ctValid := rfl
@[simp] theorem errState_ie (c : ErrCode) (s : State) : (errState c s).ie = s.ie := rfl
@[simp] theorem errState_srcAddr (c : ErrCode) (s : State) : (errState c s).srcAddr = s.srcAddr := rfl
@[simp] theorem errState_srcLen (c : ErrCode) (s : State) : (errState c s).srcLen = s.srcLen := rfl
@[simp] theorem errState_dstAddr (c : ErrCode) (s : State) : (errState c s).dstAddr = s.dstAddr := rfl
@[simp] theorem errState_dstCap (c : ErrCode) (s : State) : (errState c s).dstCap = s.dstCap := rfl
@[simp] theorem errState_symCount (c : ErrCode) (s : State) : (errState c s).symCount = s.symCount := rfl
@[simp] theorem errState_freq (c : ErrCode) (s : State) : (errState c s).freq = s.freq := rfl
@[simp] theorem errState_outLen (c : ErrCode) (s : State) : (errState c s).outLen = 0 := rfl
@[simp] theorem errState_inUsed (c : ErrCode) (s : State) : (errState c s).inUsed = 0 := rfl
@[simp] theorem errState_pad (c : ErrCode) (s : State) : (errState c s).pad = 0 := rfl
@[simp] theorem errState_root (c : ErrCode) (s : State) : (errState c s).root = s.root := rfl
@[simp] theorem errState_nodeCount (c : ErrCode) (s : State) : (errState c s).nodeCount = s.nodeCount := rfl
@[simp] theorem errState_arena (c : ErrCode) (s : State) : (errState c s).arena = s.arena := rfl
@[simp] theorem errState_code (c : ErrCode) (s : State) : (errState c s).code = s.code := rfl
@[simp] theorem errState_pending (c : ErrCode) (s : State) : (errState c s).pending = none := rfl
@[simp] theorem errState_inReset (c : ErrCode) (s : State) : (errState c s).inReset = s.inReset := rfl
@[simp] theorem errState_mem (c : ErrCode) (s : State) : (errState c s).mem = s.mem := rfl
@[simp] theorem errState_busHoles (c : ErrCode) (s : State) : (errState c s).busHoles = s.busHoles := rfl
@[simp] theorem errState_inputs (c : ErrCode) (s : State) : (errState c s).inputs = s.inputs := rfl
@[simp] theorem errState_reply (c : ErrCode) (s : State) : (errState c s).reply = s.reply := rfl
@[simp] theorem errState_doneSeen (c : ErrCode) (s : State) : (errState c s).doneSeen = s.doneSeen := rfl
@[simp] theorem errState_draws (c : ErrCode) (s : State) : (errState c s).draws = s.draws := rfl

end Sys2Proof.Machine
end

