-- ==== Sys2Proof/Laws/Memory.lean ====
section
/-! SUPPORT. The laws of the DMA space: a read after a write, what a write leaves alone, the canonical form, and what each
of CORE's accesses can answer. -/

namespace Sys2Proof.Machine

/-! ### One byte -/

theorem memGet_of_lt {lo x : Nat} (h : x < lo) : ∀ {m : List Host.Cell}, memWfFrom lo m = true → memGet m x = 0
  | [], _ => rfl
  | (a, b) :: rest, hw => by
    simp only [memWfFrom, Bool.and_eq_true, decide_eq_true_eq] at hw
    have hne : a ≠ x := by omega
    simp only [memGet, hne, if_false]
    exact memGet_of_lt (lo := a + 1) (by omega) hw.2

/-- A write leaves every other byte alone; this needs no canonical form. -/
theorem memGet_memSet_of_ne {x y : Nat} (h : x ≠ y) (v : Byte) : ∀ m, memGet (memSet m x v) y = memGet m y
  | [] => by
    unfold memSet
    split <;> simp [memGet, h]
  | (a, b) :: rest => by
    unfold memSet
    split
    · split <;> simp [memGet, h]
    · split
      · subst_vars
        split <;> simp [memGet, h]
      · simp [memGet, memGet_memSet_of_ne h v rest]

/-- A read after a write to the same address gives the byte written. -/
theorem memGet_memSet_self {x lo : Nat} (v : Byte) :
    ∀ {m : List Host.Cell}, memWfFrom lo m = true → memGet (memSet m x v) x = v
  | [], _ => by
    unfold memSet
    split <;> simp_all [memGet]
  | (a, b) :: rest, hw => by
    simp only [memWfFrom, Bool.and_eq_true, decide_eq_true_eq] at hw
    unfold memSet
    split
    · rename_i hlt
      split
      · rename_i h0
        have hne : a ≠ x := by omega
        simp [memGet, hne, memGet_of_lt (lo := a + 1) (x := x) (by omega) hw.2, h0]
      · simp [memGet]
    · split
      · rename_i he
        split
        · rename_i h0
          rw [memGet_of_lt (lo := a + 1) (by omega) hw.2, h0]
        · simp [memGet]
      · rename_i hne
        have : a ≠ x := fun h => hne h.symm
        simp only [memGet, this, if_false]
        exact memGet_memSet_self v hw.2

theorem memWfFrom_mono {lo lo' : Nat} (h : lo' ≤ lo) : ∀ {m : List Host.Cell}, memWfFrom lo m = true → memWfFrom lo' m = true
  | [], _ => rfl
  | (a, b) :: rest, hw => by
    simp only [memWfFrom, Bool.and_eq_true, decide_eq_true_eq] at hw ⊢
    exact ⟨⟨⟨by omega, hw.1.1.2⟩, hw.1.2⟩, hw.2⟩

theorem memSet_wfFrom {x : Nat} (hx : x < Config.dmaSize) (v : Byte) :
    ∀ {lo : Nat} {m : List Host.Cell}, lo ≤ x → memWfFrom lo m = true → memWfFrom lo (memSet m x v) = true
  | lo, [], hlo, _ => by
    unfold memSet
    split
    · rfl
    · simp_all [memWfFrom]
  | lo, (a, b) :: rest, hlo, hw => by
    have hw' := hw
    simp only [memWfFrom, Bool.and_eq_true, decide_eq_true_eq] at hw
    unfold memSet
    split
    · split
      · exact hw'
      · simp only [memWfFrom, Bool.and_eq_true, decide_eq_true_eq, bne_iff_ne]
        exact ⟨⟨⟨hlo, hx⟩, by assumption⟩, ⟨⟨by omega, hw.1.1.2⟩, by simpa using hw.1.2⟩, hw.2⟩
    · split
      · split
        · exact memWfFrom_mono (by omega) hw.2
        · subst_vars
          simp only [memWfFrom, Bool.and_eq_true, decide_eq_true_eq, bne_iff_ne]
          exact ⟨⟨⟨by omega, hx⟩, by assumption⟩, hw.2⟩
      · simp only [memWfFrom, Bool.and_eq_true, decide_eq_true_eq]
        exact ⟨⟨⟨hw.1.1.1, hw.1.1.2⟩, hw.1.2⟩, memSet_wfFrom hx v (by omega) hw.2⟩

/-- A write inside the DMA space keeps the canonical form. -/
theorem memSet_wf {m : List Host.Cell} {x : Nat} (hx : x < Config.dmaSize) (v : Byte) (hw : memWf m = true) :
    memWf (memSet m x v) = true :=
  memSet_wfFrom hx v (Nat.zero_le _) hw

theorem memGet_memSet_same {m : List Host.Cell} (hw : memWf m = true) (x : Nat) (v : Byte) :
    memGet (memSet m x v) x = v :=
  memGet_memSet_self v hw

theorem reset_mem_wf : memWf State.reset.mem = true := rfl

/-! ### A window filled with unspecified bytes -/

theorem memGet_memFill_outside (m : List Host.Cell) (a : Nat) (f : Nat → Byte) (x : Nat) :
    ∀ n, x < a ∨ a + n ≤ x → memGet (memFill m a f n) x = memGet m x
  | 0, _ => rfl
  | n + 1, h => by
    rw [memFill, memGet_memSet_of_ne (by omega)]
    exact memGet_memFill_outside m a f x n (by omega)

theorem memFill_wf {m : List Host.Cell} {a : Nat} (f : Nat → Byte) (hw : memWf m = true) :
    ∀ n, a + n ≤ Config.dmaSize → memWf (memFill m a f n) = true
  | 0, _ => hw
  | n + 1, h => memSet_wf (by omega) _ (memFill_wf f hw n (by omega))

theorem memGet_memFill_inside {m : List Host.Cell} {a : Nat} (f : Nat → Byte) (hw : memWf m = true) :
    ∀ n, a + n ≤ Config.dmaSize → ∀ k, k < n → memGet (memFill m a f n) (a + k) = f k
  | n + 1, h, k, hk => by
    rw [memFill]
    by_cases e : k = n
    · subst e
      exact memGet_memSet_same (memFill_wf f hw k (by omega)) _ _
    · rw [memGet_memSet_of_ne (by omega)]
      exact memGet_memFill_inside f hw n (by omega) k (by omega)

theorem dstBytes_le_cap (s : State) : dstBytes s ≤ s.dstCap.toNat := Nat.min_le_left _ _

theorem dstBytes_inside (s : State) : s.dstAddr.toNat + dstBytes s ≤ Config.dmaSize := by
  have h : s.dstAddr.toNat < Config.dmaSize := s.dstAddr.isLt
  have : dstBytes s ≤ Config.dmaSize - s.dstAddr.toNat := Nat.min_le_right _ _
  omega

/-- Spoiling the destination window changes no byte outside it (R67). -/
theorem spoilDst_outside (s : State) : SameOutside s.mem (spoilDst s).mem s.dstAddr.toNat s.dstCap.toNat := by
  intro x hx
  have := dstBytes_le_cap s
  exact memGet_memFill_outside _ _ _ _ _ (by omega)

theorem spoilDst_wf {s : State} (hw : memWf s.mem = true) : memWf (spoilDst s).mem = true :=
  memFill_wf _ hw _ (dstBytes_inside s)

/-! ### CORE's accesses -/

/-- A MemRead gives the byte where BUS_OK is true, and else raises BUS_ERROR (R62). -/
theorem dmaRead_cases (holes : List BusHole) (m : List Host.Cell) (a : Nat) :
    (busOk holes a .read = true ∧ dmaRead holes m a = .ok (memGet m a)) ∨
      (busOk holes a .read = false ∧ dmaRead holes m a = .error (.raised .busError false)) := by
  unfold dmaRead
  cases h : busOk holes a .read <;> simp

/-- A MemWrite stores the byte where BUS_OK is true, and else raises BUS_ERROR (R62). -/
theorem dmaWrite_cases (holes : List BusHole) (m : List Host.Cell) (a : Nat) (v : Byte) :
    (busOk holes a .write = true ∧ dmaWrite holes m a v = .ok (memSet m a v)) ∨
      (busOk holes a .write = false ∧ dmaWrite holes m a v = .error (.raised .busError true)) := by
  unfold dmaWrite
  cases h : busOk holes a .write <;> simp

theorem bytesAt_succ (m : List Host.Cell) (a n : Nat) : bytesAt m a (n + 1) = memGet m a :: bytesAt m (a + 1) n := by
  simp [bytesAt, List.range_succ_eq_map, Function.comp_def, Nat.add_comm, Nat.add_left_comm]

/-- Reading a range gives its bytes, or raises BUS_ERROR because BUS_OK is false for one of them (R62, R65). -/
theorem dmaReadRange_cases (holes : List BusHole) (m : List Host.Cell) :
    ∀ n a, ((∀ k, k < n → busOk holes (a + k) .read = true) ∧ dmaReadRange holes m a n = .ok (bytesAt m a n)) ∨
      ((∃ k, k < n ∧ busOk holes (a + k) .read = false) ∧
        dmaReadRange holes m a n = .error (.raised .busError false))
  | 0, a => .inl ⟨by simp, rfl⟩
  | n + 1, a => by
    rcases dmaRead_cases holes m a with ⟨hb, hr⟩ | ⟨hb, hr⟩
    · rcases dmaReadRange_cases holes m n (a + 1) with ⟨hk, hn⟩ | ⟨⟨k, hk, hkb⟩, hn⟩
      · refine .inl ⟨fun k hk' => ?_, ?_⟩
        · cases k with
          | zero => simpa using hb
          | succ k => simpa [Nat.add_assoc, Nat.add_comm 1] using hk k (by omega)
        · simp [dmaReadRange, hr, hn, bytesAt_succ, bind, Except.bind]
      · refine .inr ⟨⟨k + 1, by omega, by simpa [Nat.add_assoc, Nat.add_comm 1] using hkb⟩, ?_⟩
        simp [dmaReadRange, hr, hn, bind, Except.bind]
    · refine .inr ⟨⟨0, by omega, by simpa using hb⟩, ?_⟩
      simp [dmaReadRange, hr, bind, Except.bind]

/-- Writing a list stores it in increasing address order, or raises BUS_ERROR by a MemWrite because BUS_OK is false for
one of its addresses (R62, R66). -/
theorem dmaWriteList_cases (holes : List BusHole) :
    ∀ (l : List Byte) (m : List Host.Cell) (a : Nat),
      ((∀ k, k < l.length → busOk holes (a + k) .write = true) ∧ ∃ m', dmaWriteList holes m a l = .ok m' ∧
        SameOutside m m' a l.length ∧
        (memWf m = true → a + l.length ≤ Config.dmaSize → memWf m' = true ∧ bytesAt m' a l.length = l)) ∨
      ((∃ k, k < l.length ∧ busOk holes (a + k) .write = false) ∧
        dmaWriteList holes m a l = .error (.raised .busError true))
  | [], m, a => .inl ⟨by simp, m, rfl, fun _ _ => rfl, fun h _ => ⟨h, rfl⟩⟩
  | v :: rest, m, a => by
    rcases dmaWrite_cases holes m a v with ⟨hb, hr⟩ | ⟨hb, hr⟩
    · rcases dmaWriteList_cases holes rest (memSet m a v) (a + 1) with ⟨hk, m', hm, hout, hin⟩ | ⟨⟨k, hk, hkb⟩, hn⟩
      · refine .inl ⟨fun k hk' => ?_, m', ?_, ?_, ?_⟩
        · cases k with
          | zero => simpa using hb
          | succ k => simpa [Nat.add_assoc, Nat.add_comm 1] using hk k (by simpa using hk')
        · simp [dmaWriteList, hr, hm, bind, Except.bind]
        · intro x hx
          simp only [List.length_cons] at hx
          rw [hout x (by omega), memGet_memSet_of_ne (by omega)]
        · intro hw hl
          simp only [List.length_cons] at hl ⊢
          obtain ⟨hw', hb'⟩ := hin (memSet_wf (by omega) _ hw) (by omega)
          refine ⟨hw', ?_⟩
          rw [bytesAt_succ, hb', hout a (by omega), memGet_memSet_same hw]
      · refine .inr ⟨⟨k + 1, by simpa using hk, by simpa [Nat.add_assoc, Nat.add_comm 1] using hkb⟩, ?_⟩
        simp [dmaWriteList, hr, hn, bind, Except.bind]
    · refine .inr ⟨⟨0, by simp, by simpa using hb⟩, ?_⟩
      simp [dmaWriteList, hr, bind, Except.bind]

end Sys2Proof.Machine
end

