-- ==== Sys2Proof/Laws/Command.lean ====
section
/-! SUPPORT. The life of a command: what an error completion leaves, and everything `runCommand` can answer. -/

namespace Sys2Proof.Machine

/-! ### Error completion -/

/-- An error that neither loses the tree, nor spoils the window, nor is INTERNAL_INVARIANT changes only STATUS and the
result registers (R105, R108). -/
theorem completeErr_plain {i : Option Instr} {c : ErrCode} {w : Bool} (hl : losesTree i c = false)
    (hs : spoilsWindow i c w = false) (hc : c ≠ .internalInvariant) (s : State) :
    completeErr i c w s = errState c s := by
  have : (c == ErrCode.internalInvariant) = false := by simpa using hc
  simp [completeErr, hl, hs, this, errState]

/-- INTERNAL_INVARIANT also sets FATAL (R108, R243). -/
theorem completeErr_internal (i : Option Instr) (hi : i ≠ some .deserialize) (w : Bool) (s : State) :
    completeErr i .internalInvariant w s = { errState .internalInvariant s with fatal := true } := by
  have hl : losesTree i .internalInvariant = false := by simp [losesTree, hi]
  have hs : spoilsWindow i .internalInvariant w = false := by simp [spoilsWindow]
  simp [completeErr, hl, hs, errState]

/-- An error of the parse loses the tree as well (R108). -/
theorem completeErr_parse {c : ErrCode} (hl : losesTree (some .deserialize) c = true) (hc : c ≠ .internalInvariant)
    (w : Bool) (s : State) : completeErr (some .deserialize) c w s = errState c (dropTree s) := by
  have hs : spoilsWindow (some .deserialize) c w = false := by simp [spoilsWindow]
  have : (c == ErrCode.internalInvariant) = false := by simpa using hc
  simp [completeErr, hl, hs, this, errState]

/-- An error after a possible destination write also spoils the window (R67, R108). -/
theorem completeErr_spoils {i : Option Instr} {c : ErrCode} {w : Bool} (hs : spoilsWindow i c w = true) (s : State) :
    completeErr i c w s = errState c (spoilDst s) := by
  have hl : losesTree i c = false := by
    revert hs; unfold spoilsWindow losesTree
    cases i with
    | none => simp
    | some j => cases j <;> simp
  have hc : (c == ErrCode.internalInvariant) = false := by
    revert hs; unfold spoilsWindow
    cases c <;> simp
  simp [completeErr, hl, hs, hc, errState]

/-- Everything an error completion can be. -/
theorem completeErr_cases (i : Option Instr) (c : ErrCode) (w : Bool) (s : State) :
    completeErr i c w s = { errState c s with fatal := s.fatal || c == .internalInvariant } ∨
      (losesTree i c = true ∧
        completeErr i c w s = { errState c (dropTree s) with fatal := s.fatal || c == .internalInvariant }) ∨
      (spoilsWindow i c w = true ∧ completeErr i c w s = errState c (spoilDst s)) := by
  by_cases hs : spoilsWindow i c w = true
  · exact .inr (.inr ⟨hs, completeErr_spoils hs s⟩)
  · have hs' : spoilsWindow i c w = false := by simpa using hs
    by_cases hl : losesTree i c = true
    · exact .inr (.inl ⟨hl, by simp [completeErr, hl, hs', errState]⟩)
    · have hl' : losesTree i c = false := by simpa using hl
      exact .inl (by simp [completeErr, hl', hs', errState])

/-- What every error completion leaves: the completion fields, and all that no error touches (R108). -/
theorem completeErr_frame (i : Option Instr) (c : ErrCode) (w : Bool) (s : State) :
    let t := completeErr i c w s
    t.done = true ∧ t.err = true ∧ t.errCode = c ∧ t.pending = none ∧ t.outLen = 0 ∧ t.inUsed = 0 ∧ t.pad = 0 ∧
      t.fatal = (s.fatal || c == .internalInvariant) ∧ t.wign = s.wign ∧ t.ie = s.ie ∧
      t.srcAddr = s.srcAddr ∧ t.srcLen = s.srcLen ∧ t.dstAddr = s.dstAddr ∧ t.dstCap = s.dstCap ∧
      t.symCount = s.symCount ∧ t.freq = s.freq ∧ t.inReset = s.inReset ∧ t.busHoles = s.busHoles ∧
      t.inputs = s.inputs ∧ t.reply = s.reply ∧ t.doneSeen = s.doneSeen := by
  unfold completeErr
  split <;> split <;> simp

/-- An error completion changes no byte outside the destination window (R67). -/
theorem completeErr_mem_outside (i : Option Instr) (c : ErrCode) (w : Bool) (s : State) :
    SameOutside s.mem (completeErr i c w s).mem s.dstAddr.toNat s.dstCap.toNat := by
  rcases completeErr_cases i c w s with h | ⟨_, h⟩ | ⟨_, h⟩
  · rw [h]; exact fun _ _ => rfl
  · rw [h]; exact fun _ _ => rfl
  · rw [h]; exact spoilDst_outside s

theorem completeErr_mem_wf {s : State} (hw : memWf s.mem = true) (i : Option Instr) (c : ErrCode) (w : Bool) :
    memWf (completeErr i c w s).mem = true := by
  rcases completeErr_cases i c w s with h | ⟨_, h⟩ | ⟨_, h⟩
  · rw [h]; exact hw
  · rw [h]; exact hw
  · rw [h]; exact spoilDst_wf hw

/-- A command without a destination window changes no byte by an error (R66, R67). -/
theorem completeErr_mem_same {i : Option Instr} (h : ∀ j, i = some j → usesDst j = false) (c : ErrCode) (w : Bool)
    (s : State) : (completeErr i c w s).mem = s.mem := by
  rcases completeErr_cases i c w s with h' | ⟨_, h'⟩ | ⟨hs, _⟩
  · rw [h']; rfl
  · rw [h']; rfl
  · exfalso
    revert hs h; unfold spoilsWindow
    cases i with
    | none => simp
    | some j => cases j <;> simp [usesDst]

/-! ### Prechecks -/

/-- A failing precheck is one of the table's errors, none of which loses the tree or spoils a window (R104, R105). -/
theorem precheck_error {i : Instr} {s : State} {c : ErrCode} (h : firstFailing (prechecks i s) = some c) :
    c = .noTree ∨ c = .noCodes ∨ c = .addrRange ∨ c = .overlap ∨ c = .dstOverflow ∧ i = .decode := by
  cases i <;> simp only [prechecks, firstFailing] at h <;>
    first | contradiction | (split_ifs at h <;> simp_all)

theorem completeErr_precheck {i : Instr} {s : State} {c : ErrCode} (h : firstFailing (prechecks i s) = some c) :
    completeErr (some i) c false s = errState c s := by
  have hne : i = .deserialize → c = .addrRange := by
    rintro rfl
    simp only [prechecks, firstFailing] at h
    split_ifs at h
    simp_all
  have hc := precheck_error h
  apply completeErr_plain
  · unfold losesTree
    by_cases hi : i = .deserialize
    · simp [hne hi]
    · simp [hi]
  · rcases hc with rfl | rfl | rfl | rfl | ⟨rfl, _⟩ <;> simp [spoilsWindow]
  · rcases hc with rfl | rfl | rfl | rfl | ⟨rfl, _⟩ <;> simp

theorem completeErr_locked (i : Instr) (s : State) : completeErr (some i) .locked false s = errState .locked s :=
  completeErr_plain (by simp [losesTree]) (by simp [spoilsWindow]) (by simp) s

theorem completeErr_badCmd (s : State) : completeErr none .badCmd false s = errState .badCmd s :=
  completeErr_plain (by simp [losesTree]) (by simp [spoilsWindow]) (by simp) s

/-! ### `runCommand` -/

/-- The lock comes first (R103). -/
theorem runCommand_locked {i : Instr} {s : State} (run : State → Except Halt (State × Results)) (hf : s.fatal = true)
    (hi : i ≠ .softReset) : runCommand i run s = .next (errState .locked s) := by
  have : (i != Instr.softReset) = true := by simpa using hi
  simp [runCommand, hf, this, completeErr_locked]

/-- Then the first precheck that fails (R104, R105). -/
theorem runCommand_precheck {i : Instr} {s : State} {c : ErrCode} (run : State → Except Halt (State × Results))
    (hf : s.fatal = false) (hc : firstFailing (prechecks i s) = some c) :
    runCommand i run s = .next (errState c s) := by
  simp [runCommand, hf, hc, completeErr_precheck hc]

/-- Then the run (R102). -/
theorem runCommand_run {i : Instr} {s : State} (run : State → Except Halt (State × Results)) (hf : s.fatal = false)
    (hc : firstFailing (prechecks i s) = none) : runCommand i run s = finish i s (run s) := by
  simp [runCommand, hf, hc]

/-- Everything `runCommand` can do when it answers a next state. -/
theorem runCommand_next {i : Instr} {run : State → Except Halt (State × Results)} {s t : State}
    (h : runCommand i run s = .next t) :
    (s.fatal = true ∧ i ≠ .softReset ∧ t = errState .locked s) ∨
      (∃ c, firstFailing (prechecks i s) = some c ∧ t = errState c s) ∨
      ((s.fatal = false ∨ i = .softReset) ∧ firstFailing (prechecks i s) = none ∧
        ((∃ s' r, run s = .ok (s', r) ∧ t = completeOk r s') ∨
          ∃ c w, run s = .error (.raised c w) ∧ t = completeErr (some i) c w s)) := by
  unfold runCommand at h
  split at h
  · rename_i hl
    simp only [Bool.and_eq_true, bne_iff_ne] at hl
    rw [completeErr_locked] at h
    exact .inl ⟨hl.1, hl.2, (by simpa using h.symm)⟩
  · rename_i hl
    have hl' : s.fatal = false ∨ i = .softReset := by
      cases hf : s.fatal <;> simp_all
    split at h
    · rename_i c hc
      rw [completeErr_precheck hc] at h
      exact .inr (.inl ⟨c, hc, by simpa using h.symm⟩)
    · rename_i hc
      refine .inr (.inr ⟨hl', hc, ?_⟩)
      unfold finish at h
      split at h
      · rename_i s' r hr
        exact .inl ⟨s', r, hr, by simpa using h.symm⟩
      · rename_i c w hr
        exact .inr ⟨c, w, hr, by simpa using h.symm⟩
      · simp at h

/-- The run function of each command. -/
def runOf : Instr → State → Except Halt (State × Results)
  | .build => runBuild
  | .gencodes => runGencodes
  | .serialize => runSerialize
  | .deserialize => runDeserialize
  | .encode => runEncode
  | .decode => runDecode
  | .softReset => runSoftReset

/-- Every command runs through `runCommand`. -/
theorem exec_eq_runCommand (i : Instr) (s : State) : exec i s = runCommand i (runOf i) s := by
  cases i <;> rfl

end Sys2Proof.Machine
end

