-- ==== Sys2Proof/Laws/Walks.lean ====
section
/-! SUPPORT. The walks over the arena against tree values: `emit` is the stream of `tree(i)`, `walkCodes` records its paths,
`visits` counts its nodes. -/

namespace Sys2Proof.Machine

/-! ### Tables -/

theorem freqOf_setFreq (f : Vector Word 256) (x y : Byte) (v : Word) :
    freqOf (setFreq f x v) y = if y = x then v else freqOf f y := by
  unfold freqOf setFreq
  rw [Vector.getElem_set]
  by_cases h : y = x
  · simp [h]
  · have : x.toNat ≠ y.toNat := fun e => h (BitVec.eq_of_toNat_eq e.symm)
    simp [h, this]

theorem codeOf_setCode (c : Vector (Option Bits) 256) (x y : Byte) (p : Bits) :
    codeOf (setCode c x p) y = if y = x then some p else codeOf c y := by
  unfold codeOf setCode
  rw [Vector.getElem_set]
  by_cases h : y = x
  · simp [h]
  · have : x.toNat ≠ y.toNat := fun e => h (BitVec.eq_of_toNat_eq e.symm)
    simp [h, this]

@[simp] theorem codeOf_noCodes (x : Byte) : codeOf noCodes x = none := by
  simp [codeOf, noCodes]

theorem freqOf_reset (x : Byte) : freqOf State.reset.freq x = 0 := by
  simp [freqOf, State.reset]

theorem nodeAt_blank (i : NodeIndex) : nodeAt blankArena i = Node.blank := by
  unfold nodeAt blankArena
  rw [Vector.getElem?_replicate]
  split <;> rfl

theorem nodeAt_setNode (a : Vector Node 511) (k : Nat) (n : Node) (i : NodeIndex) (hk : k < 511) :
    nodeAt (setNode a k n) i = if i.toNat = k then n else nodeAt a i := by
  unfold nodeAt setNode
  rw [Vector.getElem?_setIfInBounds]
  by_cases h : i.toNat = k
  · simp [h, hk]
  · have : k ≠ i.toNat := fun e => h e.symm
    simp [h, this]

/-! ### `treeAt` -/

theorem treeAt_leaf {a : Vector Node 511} {d : Nat} {i : NodeIndex} (h : (nodeAt a i).kind = .leaf) :
    treeAt a (d + 1) i = some (.leaf (nodeAt a i).sym) := by
  simp [treeAt, h]

theorem treeAt_internal {a : Vector Node 511} {d : Nat} {i : NodeIndex} (h : (nodeAt a i).kind = .internal) :
    treeAt a (d + 1) i = (treeAt a d (nodeAt a i).left).bind fun l =>
      (treeAt a d (nodeAt a i).right).map fun r => .node l r := by
  simp only [treeAt, h]
  cases treeAt a d (nodeAt a i).left <;> cases treeAt a d (nodeAt a i).right <;> rfl

/-- A tree found at some depth bound is found at every larger one. -/
theorem treeAt_mono {a : Vector Node 511} {t : CodeTree} : ∀ {d e : Nat} {i : NodeIndex}, d ≤ e →
    treeAt a d i = some t → treeAt a e i = some t := by
  intro d
  induction d generalizing t with
  | zero => intro e i _ h; simp [treeAt] at h
  | succ d ih =>
    intro e i hde h
    obtain ⟨e, rfl⟩ : ∃ e', e = e' + 1 := ⟨e - 1, by omega⟩
    cases hk : (nodeAt a i).kind with
    | leaf => rw [treeAt_leaf hk] at h ⊢; exact h
    | internal =>
      rw [treeAt_internal hk] at h ⊢
      simp only [Option.bind_eq_some_iff, Option.map_eq_some_iff] at h ⊢
      obtain ⟨l, hl, r, hr, rfl⟩ := h
      exact ⟨l, ih (by omega) hl, r, ih (by omega) hr, rfl⟩

/-! ### `emit` -/

/-- SERIALIZE's walk emits `stream(tree(i))` (R161, R162), and never ends exactly when there is no such tree. -/
theorem emit_eq_stream (a : Vector Node 511) : ∀ d i, emit a d i = (treeAt a d i).map CodeTree.stream := by
  intro d
  induction d with
  | zero => intro i; rfl
  | succ d ih =>
    intro i
    cases hk : (nodeAt a i).kind with
    | leaf => rw [treeAt_leaf hk]; simp [emit, hk, CodeTree.stream, tagLeaf]
    | internal =>
      rw [treeAt_internal hk]
      simp only [emit, hk, ih]
      cases treeAt a d (nodeAt a i).left <;> cases treeAt a d (nodeAt a i).right <;>
        simp [CodeTree.stream, tagInternal]

/-! ### `visits` -/

/-- The walk that counts visits ends exactly when there is a tree, and visits one entry per node. -/
theorem visits_length (a : Vector Node 511) : ∀ d i, (visits a d i).map List.length = (treeAt a d i).map CodeTree.size := by
  intro d
  induction d with
  | zero => intro i; rfl
  | succ d ih =>
    intro i
    cases hk : (nodeAt a i).kind with
    | leaf => rw [treeAt_leaf hk]; simp [visits, hk, CodeTree.size]
    | internal =>
      rw [treeAt_internal hk]
      have hl := ih (nodeAt a i).left
      have hr := ih (nodeAt a i).right
      simp only [visits, hk]
      cases h1 : visits a d (nodeAt a i).left <;> cases h2 : treeAt a d (nodeAt a i).left <;>
        cases h3 : visits a d (nodeAt a i).right <;> cases h4 : treeAt a d (nodeAt a i).right <;>
        simp_all [CodeTree.size]
      omega

theorem visits_some_iff (a : Vector Node 511) (d : Nat) (i : NodeIndex) :
    (∃ v, visits a d i = some v) ↔ ∃ t, treeAt a d i = some t := by
  have h := visits_length a d i
  cases hv : visits a d i <;> cases ht : treeAt a d i <;> simp_all

theorem heldTree_of_arenaIsTree {s : State} (h : ArenaIsTree s) : ∃ t, heldTree s = some t := by
  obtain ⟨_, _, _, ⟨v, hv, _⟩, _⟩ := h
  exact (visits_some_iff _ _ _).1 ⟨v, hv⟩

/-! ### Tree values -/

end Sys2Proof.Machine

namespace Sys2Proof

theorem CodeTree.size_eq (t : CodeTree) : t.size + 1 = 2 * t.leaves.length := by
  induction t with
  | leaf x => rfl
  | node l r ihl ihr => simp only [CodeTree.size, CodeTree.leaves, List.length_append]; omega

theorem CodeTree.stream_length (t : CodeTree) : t.stream.length + 1 = 3 * t.leaves.length := by
  induction t with
  | leaf x => rfl
  | node l r ihl ihr =>
    simp only [CodeTree.stream, CodeTree.leaves, List.length_append, List.length_cons]; omega

theorem CodeTree.size_pos (t : CodeTree) : 1 ≤ t.size := by
  cases t <;> simp only [CodeTree.size] <;> omega

theorem CodeTree.stream_head (t : CodeTree) : ∃ v l, t.stream = v :: l ∧ (v = 0x00 ∨ v = 0x01) := by
  cases t with
  | leaf x => exact ⟨_, _, rfl, .inr rfl⟩
  | node l r => exact ⟨_, _, rfl, .inl rfl⟩

theorem CodeTree.leaves_pos (t : CodeTree) : 1 ≤ t.leaves.length := by
  induction t with
  | leaf x => simp [CodeTree.leaves]
  | node l r ihl ihr => simp only [CodeTree.leaves, List.length_append]; omega

theorem CodeTree.paths_syms (t : CodeTree) : t.paths.map (fun e => e.1) = t.leaves := by
  induction t with
  | leaf x => rfl
  | node l r ihl ihr =>
    simp only [CodeTree.paths, CodeTree.leaves, List.map_append, List.map_map]
    rw [← ihl, ← ihr]; rfl

/-- A path is shorter than the number of leaves. -/
theorem CodeTree.path_length_lt (t : CodeTree) : ∀ e ∈ t.paths, e.2.length < t.leaves.length := by
  induction t with
  | leaf x => simp [CodeTree.paths, CodeTree.leaves]
  | node l r ihl ihr =>
    intro e he
    have h1 := l.leaves_pos
    have h2 := r.leaves_pos
    simp only [CodeTree.paths, List.mem_append, List.mem_map] at he
    simp only [CodeTree.leaves, List.length_append]
    rcases he with ⟨f, hf, rfl⟩ | ⟨f, hf, rfl⟩
    · have := ihl f hf; simp only [List.length_cons]; omega
    · have := ihr f hf; simp only [List.length_cons]; omega

/-- No leaf's path is a prefix of another leaf's path; so leaves with comparable paths hold the same symbol (R144). -/
theorem CodeTree.paths_prefix_unique : ∀ (t : CodeTree) (x y : Byte) (p q : Bits), (x, p) ∈ t.paths → (y, q) ∈ t.paths →
    p <+: q → x = y
  | .leaf z, x, y, p, q, h1, h2, _ => by simp [CodeTree.paths] at h1 h2; rw [h1.1, h2.1]
  | .node l r, x, y, p, q, h1, h2, hp => by
    simp only [CodeTree.paths, List.mem_append, List.mem_map, Prod.mk.injEq, Prod.exists] at h1 h2
    rcases h1 with ⟨_, p', h1, rfl, rfl⟩ | ⟨_, p', h1, rfl, rfl⟩ <;>
      rcases h2 with ⟨_, q', h2, rfl, rfl⟩ | ⟨_, q', h2, rfl, rfl⟩
    · exact CodeTree.paths_prefix_unique l _ _ _ _ h1 h2 (by simpa using hp)
    · simp at hp
    · simp at hp
    · exact CodeTree.paths_prefix_unique r _ _ _ _ h1 h2 (by simpa using hp)

theorem CodeTree.lastPath_leaf (x y : Byte) : (CodeTree.leaf x).lastPath y = if y = x then some [] else none := by
  unfold CodeTree.lastPath
  by_cases h : y = x
  · simp [CodeTree.paths, h]
  · have : ¬x = y := fun e => h e.symm
    simp [CodeTree.paths, h, this]

/-- The last leaf of an internal node is the right subtree's if it has one (R142). -/
theorem CodeTree.lastPath_node (l r : CodeTree) (y : Byte) :
    (CodeTree.node l r).lastPath y =
      match r.lastPath y with
      | some q => some (true :: q)
      | none => (l.lastPath y).map fun q => false :: q := by
  unfold CodeTree.lastPath
  simp only [CodeTree.paths, List.filter_append, List.filter_map, Function.comp_def, List.getLast?_append,
    List.getLast?_map]
  cases (r.paths.filter fun e => e.1 == y).getLast? <;>
    cases (l.paths.filter fun e => e.1 == y).getLast? <;> simp

theorem CodeTree.lastPath_mem {t : CodeTree} {x : Byte} {p : Bits} (h : t.lastPath x = some p) : (x, p) ∈ t.paths := by
  unfold CodeTree.lastPath at h
  simp only [Option.map_eq_some_iff] at h
  obtain ⟨e, he, rfl⟩ := h
  have := List.mem_of_getLast? he
  simp only [List.mem_filter, beq_iff_eq] at this
  rw [← this.2]; exact this.1

end Sys2Proof

namespace Sys2Proof.Machine

/-! ### `walkCodes` -/

/-- GENCODES' walk ends exactly when there is a tree, and then gives each symbol of the tree the path of its last leaf after
the path so far, leaving every other entry alone (R141, R142). -/
theorem walkCodes_spec (a : Vector Node 511) : ∀ d i p c,
    (treeAt a d i = none → walkCodes a d i p c = none) ∧
    ∀ t, treeAt a d i = some t → ∃ c', walkCodes a d i p c = some c' ∧
      ∀ x, codeOf c' x = match t.lastPath x with
        | some q => some (p ++ q)
        | none => codeOf c x := by
  intro d
  induction d with
  | zero => intro i p c; exact ⟨fun _ => rfl, fun t h => by simp [treeAt] at h⟩
  | succ d ih =>
    intro i p c
    cases hk : (nodeAt a i).kind with
    | leaf =>
      rw [treeAt_leaf hk]
      refine ⟨by simp, fun t ht => ?_⟩
      obtain rfl : CodeTree.leaf (nodeAt a i).sym = t := by simpa using ht
      refine ⟨setCode c (nodeAt a i).sym p, by simp only [walkCodes, hk], fun x => ?_⟩
      rw [codeOf_setCode, CodeTree.lastPath_leaf]
      by_cases h : x = (nodeAt a i).sym <;> simp [h]
    | internal =>
      rw [treeAt_internal hk]
      obtain ⟨hl0, hl1⟩ := ih (nodeAt a i).left (p ++ [false]) c
      constructor
      · intro h
        cases hl : treeAt a d (nodeAt a i).left with
        | none => simp [walkCodes, hk, hl0 hl]
        | some l =>
          have hr : treeAt a d (nodeAt a i).right = none := by
            cases hr : treeAt a d (nodeAt a i).right <;> simp_all
          obtain ⟨c', hc', _⟩ := hl1 l hl
          simp [walkCodes, hk, hc', (ih (nodeAt a i).right (p ++ [true]) c').1 hr]
      · intro t ht
        simp only [Option.bind_eq_some_iff, Option.map_eq_some_iff] at ht
        obtain ⟨l, hl, r, hr, rfl⟩ := ht
        obtain ⟨c1, hc1, h1⟩ := hl1 l hl
        obtain ⟨c2, hc2, h2⟩ := (ih (nodeAt a i).right (p ++ [true]) c1).2 r hr
        refine ⟨c2, by simp [walkCodes, hk, hc1, hc2], fun x => ?_⟩
        rw [h2 x, h1 x, CodeTree.lastPath_node]
        cases r.lastPath x with
        | some q => simp
        | none => cases l.lastPath x <;> simp

/-- The table GENCODES derives from a held tree (R141, R143): no walk fails on a tree. -/
theorem deriveCodes_valid {root : NodeIndex} {a : Vector Node 511} {t : CodeTree}
    (h : treeAt a Config.walkDepth root = some t) :
    ∃ c, deriveCodes .valid root a = some c ∧ ∀ x, codeOf c x = t.code x := by
  cases hk : (nodeAt a root).kind with
  | leaf =>
    have h' := treeAt_leaf (d := 511) hk
    have : t = CodeTree.leaf (nodeAt a root).sym := by
      have e : Config.walkDepth = 511 + 1 := rfl
      rw [e, h'] at h; simpa using h.symm
    subst this
    refine ⟨setCode noCodes (nodeAt a root).sym [false], by simp only [deriveCodes, hk], fun x => ?_⟩
    rw [codeOf_setCode]
    simp [CodeTree.code]
  | internal =>
    obtain ⟨c, hc, hx⟩ := (walkCodes_spec a Config.walkDepth root [] noCodes).2 t h
    refine ⟨c, by simp only [deriveCodes, hk]; exact hc, fun x => ?_⟩
    rw [hx x]
    have e : Config.walkDepth = 511 + 1 := rfl
    rw [e, treeAt_internal hk] at h
    simp only [Option.bind_eq_some_iff, Option.map_eq_some_iff] at h
    obtain ⟨l, _, r, _, rfl⟩ := h
    simp only [CodeTree.code, List.nil_append, codeOf_noCodes]
    cases (CodeTree.node l r).lastPath x <;> rfl

/-! ### What the walks read -/

/-- `visits` reads only the entries it visits. -/
theorem visits_congr {a b : Vector Node 511} : ∀ {d : Nat} {i : NodeIndex} {v : List Nat}, visits a d i = some v →
    (∀ j : NodeIndex, j.toNat ∈ v → nodeAt b j = nodeAt a j) → visits b d i = some v := by
  intro d
  induction d with
  | zero => intro i v h; simp [visits] at h
  | succ d ih =>
    intro i v h hv
    simp only [visits] at h ⊢
    cases hk : (nodeAt a i).kind with
    | leaf =>
      rw [hk] at h
      have : [i.toNat] = v := by simpa using h
      rw [hv i (by simp [← this]), hk]; exact h
    | internal =>
      simp only [hk] at h
      cases hl : visits a d (nodeAt a i).left with
      | none => simp [hl] at h
      | some l =>
        cases hr : visits a d (nodeAt a i).right with
        | none => simp [hl, hr] at h
        | some r =>
          have : i.toNat :: (l ++ r) = v := by simpa [hl, hr] using h
          subst this
          rw [hv i (by simp), hk]
          have h1 := ih hl fun j hj => hv j (by simp [hj])
          have h2 := ih hr fun j hj => hv j (by simp [hj])
          simp [h1, h2]

theorem visits_mono {a : Vector Node 511} : ∀ {d e : Nat} {i : NodeIndex} {v : List Nat}, d ≤ e →
    visits a d i = some v → visits a e i = some v := by
  intro d
  induction d with
  | zero => intro e i v _ h; simp [visits] at h
  | succ d ih =>
    intro e i v hde h
    obtain ⟨e, rfl⟩ : ∃ e', e = e' + 1 := ⟨e - 1, by omega⟩
    simp only [visits] at h ⊢
    cases hk : (nodeAt a i).kind with
    | leaf => rw [hk] at h; exact h
    | internal =>
      simp only [hk] at h
      cases hl : visits a d (nodeAt a i).left with
      | none => simp [hl] at h
      | some l =>
        cases hr : visits a d (nodeAt a i).right with
        | none => simp [hl, hr] at h
        | some r =>
          have h1 := ih (e := e) (by omega) hl
          have h2 := ih (e := e) (by omega) hr
          simp only [hl, hr] at h
          simp [h1, h2]; simpa using h

end Sys2Proof.Machine
end

