-- ==== Sys2Proof/Laws/BitStreams.lean ====
section
/-! SUPPORT. Bit strings in bytes and words, ENCODE's code stream, and DECODE's loop: what one bit does, what the loop writes,
and when it ends. -/

namespace Sys2Proof.Machine

/-! ### Bits of a number written most significant bit first (30_encoding.md R90) -/

theorem msbFirst_append_bit (b : Bits) (x : Bool) : msbFirst (b ++ [x]) = 2 * msbFirst b + x.toNat := by
  simp [msbFirst, List.foldl_append]

/-- Bit j of the string is bit `length − 1 − j` of the number. -/
theorem msbFirst_testBit (b : Bits) : ∀ j, j < b.length → (msbFirst b).testBit (b.length - 1 - j) = b.getD j false := by
  induction b using List.reverseRecOn with
  | nil => simp
  | append_singleton b x ih =>
    intro j hj
    simp only [List.length_append, List.length_cons, List.length_nil] at hj ⊢
    rw [msbFirst_append_bit]
    by_cases e : j = b.length
    · subst e
      have : b.length + (0 + 1) - 1 - b.length = 0 := by omega
      rw [this, Nat.testBit_zero]
      cases x <;> simp [Nat.add_mod]
    · have h1 : b.length + (0 + 1) - 1 - j = (b.length - 1 - j) + 1 := by omega
      have h2 : (2 * msbFirst b + x.toNat) / 2 = msbFirst b := by cases x <;> simp; omega
      rw [h1, Nat.testBit_succ, h2, ih j (by omega), List.getD_append _ _ _ _ (by omega)]

theorem firstBits_length (n : Nat) (b : Bits) : (firstBits n b).length = n := by
  simp [firstBits]

theorem firstBits_getD (n : Nat) (b : Bits) {j : Nat} (h : j < n) : (firstBits n b).getD j false = b.getD j false := by
  have h1 : (firstBits n b)[j]? = (b ++ List.replicate n false)[j]? := by
    unfold firstBits; rw [List.getElem?_take]; simp [h]
  rw [List.getD_eq_getElem?_getD, List.getD_eq_getElem?_getD, h1]
  by_cases hb : j < b.length
  · rw [List.getElem?_append_left hb]
  · rw [List.getElem?_append_right (by omega), List.getElem?_replicate, List.getElem?_eq_none (by omega)]
    split <;> rfl

/-- A word of `n` bits filled from a bit string, most significant bit first, with 0 for every missing bit. -/
theorem ofNat_msbFirst_getLsbD (n : Nat) (b : Bits) {j : Nat} (h : j < n) :
    (BitVec.ofNat n (msbFirst (firstBits n b))).getLsbD (n - 1 - j) = b.getD j false := by
  have := msbFirst_testBit (firstBits n b) j (by rw [firstBits_length]; exact h)
  rw [firstBits_length, firstBits_getD n b h] at this
  rw [BitVec.getLsbD_ofNat, this]
  simp; omega

theorem byteBit_byteOfBits (b : Bits) {j : Nat} (h : j < 8) : byteBit (byteOfBits b) j = b.getD j false :=
  ofNat_msbFirst_getLsbD 8 b h

theorem ceilDiv_eq (a : Nat) : ceilDiv a 8 = (a + 7) / 8 := rfl

@[simp] theorem packBytes_length : ∀ n b, (packBytes n b).length = n
  | 0, _ => rfl
  | n + 1, b => by simp [packBytes, packBytes_length n]

theorem pack_length (b : Bits) : (pack b).length = (b.length + 7) / 8 := by rw [pack, packBytes_length, ceilDiv_eq]

/-- Bit k of the string is bit k of its bytes, counted from the most significant bit of the first (R90). -/
theorem packBytes_bit : ∀ n b k, k < 8 * n → byteBit ((packBytes n b).getD (k / 8) 0) (k % 8) = b.getD k false
  | 0, b, k, h => by omega
  | n + 1, b, k, h => by
    by_cases hk : k < 8
    · have h1 : k / 8 = 0 := by omega
      have h2 : k % 8 = k := by omega
      rw [h1, h2]
      show byteBit (byteOfBits b) k = _
      exact byteBit_byteOfBits b hk
    · have h1 : k / 8 = (k - 8) / 8 + 1 := by omega
      have h2 : k % 8 = (k - 8) % 8 := by omega
      rw [h1, h2]
      show byteBit ((packBytes n (b.drop 8)).getD ((k - 8) / 8) 0) ((k - 8) % 8) = _
      rw [packBytes_bit n (b.drop 8) (k - 8) (by omega)]
      rw [List.getD_eq_getElem?_getD, List.getD_eq_getElem?_getD, List.getElem?_drop]
      congr 2; omega

theorem bytesAt_getD {m : List Host.Cell} {a n k : Nat} (h : k < n) : (bytesAt m a n).getD k 0 = memGet m (a + k) := by
  simp [bytesAt, List.getD_eq_getElem?_getD, h]

theorem payloadBit_eq (m : List Host.Cell) (a k : Nat) : payloadBit m a k = byteBit (memGet m (a + k / 8)) (k % 8) := rfl

/-- A window that holds `pack b` holds the bits of `b`, and 0 after them (R90). -/
theorem payloadBit_pack {m : List Host.Cell} {a : Nat} {b : Bits} (h : bytesAt m a ((b.length + 7) / 8) = pack b) {k : Nat}
    (hk : k < 8 * ((b.length + 7) / 8)) : payloadBit m a k = b.getD k false := by
  rw [payloadBit_eq, ← bytesAt_getD (n := (b.length + 7) / 8) (by omega), h]
  exact packBytes_bit _ b k (by rw [ceilDiv_eq]; exact hk)

/-! ### The code stream (30_encoding.md R91, 44_bit_packer.md R191, R194) -/

theorem codeStream_some (code : Vector (Option Bits) 256) : ∀ (l : List Byte) (codes : List Bits),
    l.map (codeOf code) = codes.map some → codeStream code l = some codes.flatten
  | [], codes, h => by
    cases codes with
    | nil => rfl
    | cons c cs => simp at h
  | x :: xs, codes, h => by
    cases codes with
    | nil => simp at h
    | cons c cs =>
      simp only [List.map_cons, List.cons.injEq] at h
      simp [codeStream, h.1, codeStream_some code xs cs h.2]

/-- ENCODE's check fails exactly when some symbol has no code (R194). -/
theorem codeStream_none (code : Vector (Option Bits) 256) : ∀ l : List Byte,
    codeStream code l = none ↔ ∃ x ∈ l, codeOf code x = none
  | [] => by simp [codeStream]
  | x :: xs => by
    have ih := codeStream_none code xs
    cases hx : codeOf code x with
    | none => simp [codeStream, hx]
    | some p =>
      cases hs : codeStream code xs with
      | none => simp only [codeStream, hx, hs, true_iff]; obtain ⟨y, hy, h⟩ := ih.1 hs; exact ⟨y, by simp [hy], h⟩
      | some b =>
        simp only [codeStream, hx, hs, reduceCtorEq, false_iff]
        rintro ⟨y, hy, h⟩
        rcases List.mem_cons.1 hy with rfl | hy
        · rw [hx] at h; simp at h
        · have := ih.2 ⟨y, hy, h⟩; rw [hs] at this; simp at this

/-- With the code table of a tree, ENCODE's stream is the tree's bitstream (R91). -/
theorem codeStream_eq_bits {code : Vector (Option Bits) 256} {tree : CodeTree} (h : ∀ x, codeOf code x = tree.code x) :
    ∀ l, codeStream code l = tree.bits l
  | [] => rfl
  | x :: xs => by
    simp only [codeStream, CodeTree.bits, h x, codeStream_eq_bits h xs]
    cases tree.code x <;> cases tree.bits xs <;> rfl

/-! ### One turn of DECODE's loop (45_bit_unpacker.md R210) -/

/-- Where the cursor goes on a bit, and the symbol it gives, if it gives one (R210, R212). -/
def turn (s : State) (cur : NodeIndex) (bit : Bool) : NodeIndex × Option Byte :=
  match (nodeAt s.arena s.root).kind with
  | .leaf => (s.root, some (nodeAt s.arena s.root).sym)
  | .internal =>
    let child := if bit then (nodeAt s.arena cur).right else (nodeAt s.arena cur).left
    match (nodeAt s.arena child).kind with
    | .internal => (child, none)
    | .leaf => (s.root, some (nodeAt s.arena child).sym)

/-- A loop in progress: what it has written so far, and the byte it is reading. -/
structure Progress (s : State) (c : Cursor) (done : List Byte) : Prop where
  written : c.written = done.length
  wf : memWf s.mem = true → memWf c.mem = true
  bytes : memWf s.mem = true → bytesAt c.mem s.dstAddr.toNat done.length = done
  outside : SameOutside s.mem c.mem s.dstAddr.toNat done.length
  byte : c.bitpos % 8 ≠ 0 → c.byte = memGet s.mem (s.srcAddr.toNat + c.bitpos / 8)

/-- The source window and the bytes DECODE writes have no byte in common. -/
def Apart (s : State) : Prop :=
  ∀ j k, j < s.symCount.toNat → k < s.srcLen.toNat → s.srcAddr.toNat + k ≠ s.dstAddr.toNat + j

theorem apart_of_no_overlap {s : State}
    (h : ¬(0 < s.srcLen.toNat ∧ 0 < s.dstCap.toNat ∧ s.srcAddr.toNat < s.dstAddr.toNat + s.dstCap.toNat ∧
      s.dstAddr.toNat < s.srcAddr.toNat + s.srcLen.toNat)) (hc : s.symCount.toNat ≤ s.dstCap.toNat) : Apart s := by
  intro j k hj hk he
  exact h ⟨by omega, by omega, by omega, by omega⟩

theorem progress_start (s : State) :
    Progress s { bitpos := 0, written := 0, cur := s.root, byte := 0, mem := s.mem } [] :=
  ⟨rfl, fun h => h, fun _ => rfl, fun _ _ => rfl, fun h => absurd rfl h⟩

/-- The cursor after a bit that gives no symbol. -/
def Cursor.skip (c : Cursor) (cur : NodeIndex) (v : Byte) : Cursor :=
  { c with bitpos := c.bitpos + 1, byte := v, cur := cur }

/-- The cursor after a bit that gives a symbol. -/
def Cursor.put (c : Cursor) (s : State) (v sym : Byte) : Cursor :=
  { bitpos := c.bitpos + 1, written := c.written + 1, cur := s.root, byte := v,
    mem := memSet c.mem (s.dstAddr.toNat + c.written) sym }

theorem byte_after {s : State} {k : Nat} {v : Byte} (hv : v = memGet s.mem (s.srcAddr.toNat + k / 8)) (h : (k + 1) % 8 ≠ 0) :
    v = memGet s.mem (s.srcAddr.toNat + (k + 1) / 8) := by
  have : (k + 1) / 8 = k / 8 := by omega
  rw [this]; exact hv

theorem progress_skip {s : State} {c : Cursor} {done : List Byte} (h : Progress s c done) (cur : NodeIndex) {v : Byte}
    (hv : v = memGet s.mem (s.srcAddr.toNat + c.bitpos / 8)) : Progress s (c.skip cur v) done :=
  ⟨h.written, h.wf, h.bytes, h.outside, fun h' => byte_after hv h'⟩

theorem bytesAt_set_last {m : List Host.Cell} {a n : Nat} {x : Byte} (hw : memWf m = true) {l : List Byte}
    (h : bytesAt m a n = l) : bytesAt (memSet m (a + n) x) a (n + 1) = l ++ [x] := by
  subst h
  simp only [bytesAt, List.range_succ, List.map_append, List.map_cons, List.map_nil]
  rw [memGet_memSet_same hw]
  congr 1
  apply List.map_congr_left
  intro k hk
  rw [List.mem_range] at hk
  exact memGet_memSet_of_ne (by omega) _ _

theorem progress_put {s : State} {c : Cursor} {done : List Byte} (h : Progress s c done) {v sym : Byte}
    (hv : v = memGet s.mem (s.srcAddr.toNat + c.bitpos / 8)) (hd : s.dstAddr.toNat + done.length < Config.dmaSize) :
    Progress s (c.put s v sym) (done ++ [sym]) := by
  have hw := h.written
  refine ⟨by simp [Cursor.put, hw], fun hm => ?_, fun hm => ?_, ?_, fun h' => byte_after hv h'⟩
  · exact memSet_wf (by rw [hw]; exact hd) _ (h.wf hm)
  · simp only [Cursor.put, hw, List.length_append, List.length_cons, List.length_nil, Nat.zero_add]
    exact bytesAt_set_last (h.wf hm) (h.bytes hm)
  · intro x hx
    simp only [List.length_append, List.length_cons, List.length_nil] at hx
    simp only [Cursor.put, hw]
    rw [memGet_memSet_of_ne (by omega), h.outside x (by omega)]

theorem fetchBits_ok {s : State} {c : Cursor} {done : List Byte} (h : Progress s c done) (ha : Apart s)
    (hl : done.length ≤ s.symCount.toNat) (hb : c.bitpos < 8 * s.srcLen.toNat)
    (hr : c.bitpos % 8 = 0 → busOk s.busHoles (s.srcAddr.toNat + c.bitpos / 8) .read = true) :
    fetchBits s c = .ok (memGet s.mem (s.srcAddr.toNat + c.bitpos / 8)) := by
  unfold fetchBits
  split
  · rename_i h0
    have hsame : memGet c.mem (s.srcAddr.toNat + c.bitpos / 8) = memGet s.mem (s.srcAddr.toNat + c.bitpos / 8) := by
      apply h.outside
      by_contra hc
      have : ∃ j, j < s.symCount.toNat ∧ s.srcAddr.toNat + c.bitpos / 8 = s.dstAddr.toNat + j :=
        ⟨s.srcAddr.toNat + c.bitpos / 8 - s.dstAddr.toNat, by omega, by omega⟩
      obtain ⟨j, hj, he⟩ := this
      exact ha j (c.bitpos / 8) hj (by omega) he
    simp [dmaRead, hr h0, hsame]
  · rename_i h0; rw [h.byte h0]

/-- Everything writing a symbol can do (R210). -/
theorem emitSymbol_eq (s : State) (c : Cursor) (sym : Byte) :
    emitSymbol s c sym =
      if busOk s.busHoles (s.dstAddr.toNat + c.written) .write then
        .ok { c with written := c.written + 1, cur := s.root, mem := memSet c.mem (s.dstAddr.toNat + c.written) sym }
      else .error (.raised .busError true) := by
  unfold emitSymbol dmaWrite
  split <;> rfl

/-- One bit, with the byte it is in at hand (R210). -/
theorem decodeBit_eq {s : State} {c : Cursor} {v : Byte} (h : fetchBits s c = .ok v) :
    decodeBit s c = match turn s c.cur (byteBit v (c.bitpos % 8)) with
      | (cur, none) => .ok (c.skip cur v)
      | (_, some sym) =>
        if busOk s.busHoles (s.dstAddr.toNat + c.written) .write then .ok (c.put s v sym)
        else .error (.raised .busError true) := by
  unfold decodeBit turn
  simp only [h, bind, Except.bind]
  cases (nodeAt s.arena s.root).kind with
  | leaf => simp only [emitSymbol_eq]; rfl
  | internal =>
    simp only
    split
    · rename_i hk; simp only [hk]; rfl
    · rename_i hk; simp only [hk, emitSymbol_eq]; rfl

/-- A turn that is to give a symbol (`some`) or none, in a loop in progress (R210, R211). -/
theorem decodeBit_run {s : State} {c : Cursor} {done : List Byte} (h : Progress s c done) (ha : Apart s)
    (hl : done.length < s.symCount.toNat) (hb : c.bitpos < 8 * s.srcLen.toNat)
    (hr : c.bitpos % 8 = 0 → busOk s.busHoles (s.srcAddr.toNat + c.bitpos / 8) .read = true) :
    let v := memGet s.mem (s.srcAddr.toNat + c.bitpos / 8)
    decodeBit s c = match turn s c.cur (payloadBit s.mem s.srcAddr.toNat c.bitpos) with
      | (cur, none) => .ok (c.skip cur v)
      | (_, some sym) =>
        if busOk s.busHoles (s.dstAddr.toNat + done.length) .write then .ok (c.put s v sym)
        else .error (.raised .busError true) := by
  intro v
  rw [decodeBit_eq (fetchBits_ok h ha (by omega) hb hr), h.written]; rfl

/-! ### What the loop can do in any state -/

/-- Everything one turn can do (R210): skip, write one symbol, or raise BUS_ERROR. -/
theorem decodeBit_cases (s : State) (c : Cursor) :
    (∃ cur v, decodeBit s c = .ok (c.skip cur v)) ∨ (∃ v sym, decodeBit s c = .ok (c.put s v sym)) ∨
      ∃ w, decodeBit s c = .error (.raised .busError w) := by
  cases hf : fetchBits s c with
  | error e =>
    refine .inr (.inr ?_)
    have : e = .raised .busError false := by
      unfold fetchBits at hf
      split at hf
      · rcases dmaRead_cases s.busHoles c.mem (s.srcAddr.toNat + c.bitpos / 8) with ⟨_, h⟩ | ⟨_, h⟩ <;> rw [h] at hf <;>
          simp at hf
        exact hf.symm
      · simp at hf
    exact ⟨false, by simp [decodeBit, hf, this, bind, Except.bind]⟩
  | ok v =>
    rw [decodeBit_eq hf]
    split
    · exact .inl ⟨_, _, rfl⟩
    · split
      · exact .inr (.inl ⟨_, _, rfl⟩)
      · exact .inr (.inr ⟨_, rfl⟩)

/-- Everything the loop can do (R210, R213): it ends with SYM_COUNT symbols written and no byte but theirs changed, or
raises PAYLOAD_UNDERRUN or BUS_ERROR. -/
theorem decodeLoop_cases (s : State) : ∀ (n : Nat) (c : Cursor), c.written ≤ s.symCount.toNat →
    (∃ c', decodeLoop s n c = .ok c' ∧ c'.written = s.symCount.toNat ∧ c.bitpos ≤ c'.bitpos ∧ c'.bitpos ≤ c.bitpos + n ∧
      SameOutside c.mem c'.mem s.dstAddr.toNat s.symCount.toNat ∧
      (memWf c.mem = true → s.dstAddr.toNat + s.symCount.toNat ≤ Config.dmaSize → memWf c'.mem = true)) ∨
    (∃ w, decodeLoop s n c = .error (.raised .payloadUnderrun w)) ∨ ∃ w, decodeLoop s n c = .error (.raised .busError w)
  | 0, c, hc => by
    unfold decodeLoop
    split
    · exact .inr (.inl ⟨_, rfl⟩)
    · exact .inl ⟨c, rfl, by omega, by omega, by omega, fun _ _ => rfl, fun h _ => h⟩
  | n + 1, c, hc => by
    by_cases hw : c.written < s.symCount.toNat
    · simp only [decodeLoop, hw, if_true, bind, Except.bind]
      rcases decodeBit_cases s c with ⟨cur, v, h⟩ | ⟨v, sym, h⟩ | ⟨w, h⟩
      · rw [h]
        rcases decodeLoop_cases s n (c.skip cur v) hc with ⟨c', h1, h2, h3, h4, h5, h6⟩ | h' | h'
        · refine .inl ⟨c', h1, h2, ?_, ?_, h5, h6⟩ <;> simp only [Cursor.skip] at h3 h4 <;> omega
        · exact .inr (.inl h')
        · exact .inr (.inr h')
      · rw [h]
        rcases decodeLoop_cases s n (c.put s v sym) hw with ⟨c', h1, h2, h3, h4, h5, h6⟩ | h' | h'
        · refine .inl ⟨c', h1, h2, ?_, ?_, fun x hx => ?_, fun hm hd => h6 (memSet_wf (by omega) _ hm) hd⟩
          · simp only [Cursor.put] at h3; omega
          · simp only [Cursor.put] at h4; omega
          · rw [h5 x hx]; exact memGet_memSet_of_ne (by omega) _ _
        · exact .inr (.inl h')
        · exact .inr (.inr h')
      · rw [h]; exact .inr (.inr ⟨w, rfl⟩)
    · simp only [decodeLoop, hw, if_false]
      exact .inl ⟨c, rfl, by omega, by omega, by omega, fun _ _ => rfl, fun h _ => h⟩

/-! ### Reading the payload with a tree value (45_bit_unpacker.md R210, R213) -/

end Sys2Proof.Machine

namespace Sys2Proof

open Machine

/-- A walk that ends does so on a bit after which it had not ended. -/
theorem CodeTree.descend_last : ∀ (t : CodeTree) (b b' : Bits) (x : Byte), t.descend [] = none → t.descend b = some (x, b') →
    ∃ p bit, b = p ++ bit :: b' ∧ t.descend p = none ∧ ∀ more, t.descend (p ++ bit :: more) = some (x, more)
  | .leaf y, b, b', x, h0, h => by simp [CodeTree.descend] at h0
  | .node l r, [], b', x, h0, h => by simp [CodeTree.descend] at h
  | .node l r, bit :: b, b', x, h0, h => by
    have hs : ∀ c, (CodeTree.node l r).descend (bit :: c) = (if bit then r else l).descend c := by
      intro c; cases bit <;> rfl
    rw [hs] at h
    cases hn : (if bit then r else l).descend [] with
    | some e =>
      have hl : ∃ y, (if bit then r else l) = .leaf y := by
        cases hc : (if bit then r else l) with
        | leaf y => exact ⟨y, rfl⟩
        | node _ _ => rw [hc] at hn; simp [CodeTree.descend] at hn
      obtain ⟨y, hy⟩ := hl
      rw [hy] at h
      obtain ⟨rfl, rfl⟩ : y = x ∧ b = b' := by simpa [CodeTree.descend] using h
      exact ⟨[], bit, rfl, rfl, fun more => by rw [List.nil_append, hs, hy]; rfl⟩
    | none =>
      have ih : ∃ p bit', b = p ++ bit' :: b' ∧ (if bit then r else l).descend p = none ∧
          ∀ more, (if bit then r else l).descend (p ++ bit' :: more) = some (x, more) := by
        cases bit
        · exact CodeTree.descend_last l b b' x hn h
        · exact CodeTree.descend_last r b b' x hn h
      obtain ⟨p, bit', rfl, h1, h2⟩ := ih
      exact ⟨bit :: p, bit', rfl, by rw [hs]; exact h1, fun more => by rw [List.cons_append, hs]; exact h2 more⟩

/-- A leaf's path leads to its symbol, whatever follows (42_code_generator.md R141). -/
theorem CodeTree.descend_path : ∀ (t : CodeTree) (x : Byte) (p more : Bits), (x, p) ∈ t.paths →
    t.descend (p ++ more) = some (x, more)
  | .leaf y, x, p, more, h => by
    simp only [CodeTree.paths, List.mem_singleton, Prod.mk.injEq] at h
    obtain ⟨rfl, rfl⟩ := h; rfl
  | .node l r, x, p, more, h => by
    simp only [CodeTree.paths, List.mem_append, List.mem_map, Prod.mk.injEq, Prod.exists] at h
    rcases h with ⟨_, q, h, rfl, rfl⟩ | ⟨_, q, h, rfl, rfl⟩
    · exact CodeTree.descend_path l _ q more h
    · exact CodeTree.descend_path r _ q more h

/-- A symbol's code reads back as the symbol (R215). -/
theorem CodeTree.readSymbol_code {t : CodeTree} {x : Byte} {p : Bits} (h : t.code x = some p) (more : Bits) :
    t.readSymbol (p ++ more) = some (x, more) := by
  cases t with
  | leaf y =>
    simp only [CodeTree.code] at h
    split at h <;> simp at h
    rename_i e
    rw [← h, e]; rfl
  | node l r => exact CodeTree.descend_path _ x p more (CodeTree.lastPath_mem h)

/-- No code is empty (42_code_generator.md R141, R143). -/
theorem CodeTree.code_ne_nil {t : CodeTree} {x : Byte} {p : Bits} (h : t.code x = some p) : p ≠ [] := by
  rintro rfl
  have := CodeTree.readSymbol_code h []
  cases t <;> simp [CodeTree.readSymbol, CodeTree.descend] at this

end Sys2Proof

namespace Sys2Proof.Machine

/-- The bits from a position on are the payload's. -/
def BitsFrom (s : State) (pos : Nat) (b : Bits) : Prop :=
  ∀ k, k < b.length → payloadBit s.mem s.srcAddr.toNat (pos + k) = b.getD k false

theorem bitsFrom_cons {s : State} {pos : Nat} {bit : Bool} {b : Bits} (h : BitsFrom s pos (bit :: b)) :
    payloadBit s.mem s.srcAddr.toNat pos = bit ∧ BitsFrom s (pos + 1) b := by
  refine ⟨by simpa using h 0 (by simp), fun k hk => ?_⟩
  have := h (k + 1) (by simpa using hk)
  rw [Nat.add_assoc, Nat.add_comm 1 k, this]; rfl

theorem bitsFrom_append {s : State} {pos : Nat} {a b : Bits} (h : BitsFrom s pos (a ++ b)) :
    BitsFrom s pos a ∧ BitsFrom s (pos + a.length) b := by
  refine ⟨fun k hk => ?_, fun k hk => ?_⟩
  · rw [h k (by simp; omega), List.getD_append _ _ _ _ hk]
  · have := h (a.length + k) (by simp; omega)
    rw [Nat.add_assoc, this, List.getD_append_right _ _ _ _ (by omega)]
    congr 1; omega

/-- What a loop in progress can read: the bytes that hold the first `n` bits. -/
def BitsReadable (s : State) (n : Nat) : Prop :=
  n ≤ 8 * s.srcLen.toNat ∧ ∀ k, 8 * k < n → busOk s.busHoles (s.srcAddr.toNat + k) .read = true

theorem bitsReadable_of_readsOk {s : State} {n : Nat} (hn : n ≤ 8 * s.srcLen.toNat)
    (h : ReadsOk s s.srcAddr.toNat ((n + 7) / 8)) : BitsReadable s n :=
  ⟨hn, fun k hk => h k (by omega)⟩

/-- One turn of the loop, on a bit that can be read. -/
theorem decodeLoop_turn {s : State} {c : Cursor} {done : List Byte} {n : Nat} (hp : Progress s c done) (ha : Apart s)
    (hl : done.length < s.symCount.toNat) (hr : BitsReadable s n) (hb : c.bitpos < n) (left : Nat) :
    let v := memGet s.mem (s.srcAddr.toNat + c.bitpos / 8)
    decodeLoop s (left + 1) c = match turn s c.cur (payloadBit s.mem s.srcAddr.toNat c.bitpos) with
      | (cur, none) => decodeLoop s left (c.skip cur v)
      | (_, some sym) =>
        if busOk s.busHoles (s.dstAddr.toNat + done.length) .write then decodeLoop s left (c.put s v sym)
        else .error (.raised .busError true) := by
  intro v
  have hrun := decodeBit_run hp ha hl (Nat.lt_of_lt_of_le hb hr.1) (fun _ => hr.2 _ (by omega))
  simp only at hrun
  simp only [decodeLoop, hp.written, hl, if_true, hrun, bind]
  rcases turn s c.cur (payloadBit s.mem s.srcAddr.toNat c.bitpos) with ⟨cur, _ | sym⟩
  · rfl
  · simp only
    split <;> rfl

/-- Bits that end inside a walk move the cursor down the tree and write nothing (R210). -/
theorem decodeLoop_descend_none {s : State} (hroot : (nodeAt s.arena s.root).kind = .internal) (ha : Apart s) {n : Nat}
    (hr : BitsReadable s n) {done : List Byte} (hl : done.length < s.symCount.toNat) :
    ∀ (b : Bits) (d : Nat) (sub : CodeTree) (c : Cursor) (left : Nat), treeAt s.arena d c.cur = some sub →
      sub.descend b = none → Progress s c done → c.bitpos + b.length ≤ n → BitsFrom s c.bitpos b →
      ∃ c' d' sub', decodeLoop s (b.length + left) c = decodeLoop s left c' ∧ Progress s c' done ∧
        c'.bitpos = c.bitpos + b.length ∧ treeAt s.arena d' c'.cur = some sub' ∧
        ∀ more, sub.descend (b ++ more) = sub'.descend more
  | [], d, sub, c, left, ht, _, hp, _, _ => ⟨c, d, sub, by simp, hp, rfl, ht, fun _ => rfl⟩
  | bit :: b, 0, sub, c, left, ht, _, _, _, _ => by simp [treeAt] at ht
  | bit :: b, d + 1, sub, c, left, ht, hd, hp, hb, hf => by
    simp only [List.length_cons] at hb ⊢
    obtain ⟨hbit, hf'⟩ := bitsFrom_cons hf
    cases hk : (nodeAt s.arena c.cur).kind with
    | leaf =>
      rw [treeAt_leaf hk] at ht
      obtain rfl : CodeTree.leaf (nodeAt s.arena c.cur).sym = sub := by simpa using ht
      simp [CodeTree.descend] at hd
    | internal =>
      rw [treeAt_internal hk] at ht
      simp only [Option.bind_eq_some_iff, Option.map_eq_some_iff] at ht
      obtain ⟨l, htl, r, htr, rfl⟩ := ht
      have hs : ∀ c, (CodeTree.node l r).descend (bit :: c) = (if bit then r else l).descend c := by
        intro c; cases bit <;> rfl
      obtain ⟨child, hchild, htc⟩ : ∃ child,
          child = (if bit then (nodeAt s.arena c.cur).right else (nodeAt s.arena c.cur).left) ∧
            treeAt s.arena d child = some (if bit then r else l) := by
        refine ⟨_, rfl, ?_⟩
        cases bit
        · exact htl
        · exact htr
      rw [hs] at hd
      cases d with
      | zero => simp [treeAt] at htc
      | succ d =>
      have hrun := decodeLoop_turn hp ha hl hr (by omega) (b.length + left)
      simp only [hbit, turn, hroot, ← hchild] at hrun
      cases hkc : (nodeAt s.arena child).kind with
      | leaf =>
        rw [treeAt_leaf hkc] at htc
        rw [← Option.some.inj htc] at hd
        simp [CodeTree.descend] at hd
      | internal =>
        simp only [hkc] at hrun
        obtain ⟨c', d', sub', h1, h2, h3, h4, h5⟩ := decodeLoop_descend_none hroot ha hr hl b (d + 1) _ (c.skip child _) left htc hd
          (progress_skip hp child rfl) (by simp only [Cursor.skip]; omega) hf'
        refine ⟨c', d', sub', ?_, h2, ?_, h4, fun more => by rw [List.cons_append, hs]; exact h5 more⟩
        · rw [show b.length + 1 + left = b.length + left + 1 by omega, hrun]; exact h1
        · rw [h3]; simp only [Cursor.skip]; omega

/-- What the loop makes of one symbol of the payload, read with the tree value (R210, R212). -/
theorem decodeLoop_readSymbol {s : State} {tree : CodeTree} (ht : heldTree s = some tree) (ha : Apart s)
    (hdst : s.dstAddr.toNat + s.symCount.toNat ≤ Config.dmaSize) {n : Nat} (hr : BitsReadable s n) {done : List Byte}
    (hl : done.length < s.symCount.toNat) {c : Cursor} (hcur : c.cur = s.root) (hp : Progress s c done) (b : Bits)
    (hb : c.bitpos + b.length ≤ n) (hf : BitsFrom s c.bitpos b) (left : Nat) :
    match tree.readSymbol b with
    | none => ∃ c', decodeLoop s (b.length + left) c = decodeLoop s left c' ∧ Progress s c' done ∧
        c'.bitpos = c.bitpos + b.length
    | some (x, b') => ∃ c' p, b = p ++ b' ∧ c'.cur = s.root ∧ c'.bitpos = c.bitpos + p.length ∧ Progress s c' (done ++ [x]) ∧
        decodeLoop s (b.length + left) c =
          if busOk s.busHoles (s.dstAddr.toNat + done.length) .write then decodeLoop s (b'.length + left) c'
          else .error (.raised .busError true) := by
  have e : Config.walkDepth = 511 + 1 := rfl
  cases hk : (nodeAt s.arena s.root).kind with
  | leaf =>
    have ht' := ht
    unfold heldTree at ht'
    rw [e, treeAt_leaf hk] at ht'
    obtain rfl : CodeTree.leaf (nodeAt s.arena s.root).sym = tree := by simpa using ht'
    cases b with
    | nil => exact ⟨c, by simp, hp, rfl⟩
    | cons bit b =>
      simp only [List.length_cons] at hb ⊢
      have hrun := decodeLoop_turn hp ha hl hr (by omega) (b.length + left)
      simp only [turn, hk] at hrun
      refine ⟨c.put s (memGet s.mem (s.srcAddr.toNat + c.bitpos / 8)) (nodeAt s.arena s.root).sym, [bit], rfl, rfl, rfl,
        progress_put hp rfl (by omega), ?_⟩
      rw [show b.length + 1 + left = b.length + left + 1 by omega, hrun]
  | internal =>
    have ht' := ht
    unfold heldTree at ht'
    have ht2 := ht'
    rw [e, treeAt_internal hk] at ht'
    simp only [Option.bind_eq_some_iff, Option.map_eq_some_iff] at ht'
    obtain ⟨l, _, r, _, rfl⟩ := ht'
    rw [← hcur] at ht2
    show match (CodeTree.node l r).descend b with | none => _ | some (x, b') => _
    cases hd : (CodeTree.node l r).descend b with
    | none =>
      obtain ⟨c', _, _, h1, h2, h3, _⟩ := decodeLoop_descend_none hk ha hr hl b _ _ c left ht2 hd hp hb hf
      exact ⟨c', h1, h2, h3⟩
    | some y =>
      obtain ⟨x, b'⟩ := y
      obtain ⟨p, bit, rfl, hn, hall⟩ := CodeTree.descend_last _ _ _ _ rfl hd
      simp only [List.length_append, List.length_cons] at hb
      obtain ⟨hf1, hf2⟩ := bitsFrom_append hf
      obtain ⟨c1, d1, sub, h1, h2, h3, h4, h5⟩ := decodeLoop_descend_none hk ha hr hl p _ _ c (b'.length + left + 1) ht2 hn hp
        (by omega) hf1
      rw [← h3] at hf2
      obtain ⟨hbit, _⟩ := bitsFrom_cons hf2
      have hx : sub.descend [bit] = some (x, []) := by rw [← h5, hall]
      have hrun := decodeLoop_turn h2 ha hl hr (by omega) (b'.length + left)
      have hsub : sub.descend [] = none := by rw [← h5, List.append_nil]; exact hn
      cases d1 with
      | zero => simp [treeAt] at h4
      | succ d1 =>
      cases hk1 : (nodeAt s.arena c1.cur).kind with
      | leaf =>
        rw [treeAt_leaf hk1] at h4
        rw [← Option.some.inj h4] at hsub
        simp [CodeTree.descend] at hsub
      | internal =>
        rw [treeAt_internal hk1] at h4
        simp only [Option.bind_eq_some_iff, Option.map_eq_some_iff] at h4
        obtain ⟨l', htl, r', htr, rfl⟩ := h4
        obtain ⟨child, hchild, htc⟩ : ∃ child,
            child = (if bit then (nodeAt s.arena c1.cur).right else (nodeAt s.arena c1.cur).left) ∧
              treeAt s.arena d1 child = some (.leaf x) := by
          refine ⟨_, rfl, ?_⟩
          have hleaf : (if bit then r' else l') = .leaf x := by
            have : (if bit then r' else l').descend [] = some (x, []) := by cases bit <;> exact hx
            cases hc : (if bit then r' else l') with
            | leaf y => rw [hc] at this; simpa [CodeTree.descend] using this
            | node _ _ => rw [hc] at this; simp [CodeTree.descend] at this
          cases bit
          · rw [← hleaf]; exact htl
          · rw [← hleaf]; exact htr
        have hkc : (nodeAt s.arena child).kind = .leaf ∧ (nodeAt s.arena child).sym = x := by
          cases d1 with
          | zero => simp [treeAt] at htc
          | succ d1 =>
          cases hkc : (nodeAt s.arena child).kind with
          | leaf => rw [treeAt_leaf hkc] at htc; exact ⟨rfl, by simpa using htc⟩
          | internal =>
            rw [treeAt_internal hkc] at htc
            simp only [Option.bind_eq_some_iff, Option.map_eq_some_iff] at htc
            obtain ⟨_, _, _, _, h⟩ := htc
            cases h
        simp only [hbit, turn, hk, ← hchild, hkc.1, hkc.2] at hrun
        refine ⟨c1.put s (memGet s.mem (s.srcAddr.toNat + c1.bitpos / 8)) x, p ++ [bit], by simp, rfl, ?_,
          progress_put h2 rfl (by omega), ?_⟩
        · simp only [Cursor.put, h3, List.length_append, List.length_cons, List.length_nil]; omega
        · rw [show (p ++ bit :: b').length + left = p.length + (b'.length + left + 1) by simp; omega, h1, hrun]

/-- The loop over readable bits that hold no more than `j` symbols reads them all and goes on (R213). -/
theorem decodeLoop_runs_out {s : State} {tree : CodeTree} (ht : heldTree s = some tree) (ha : Apart s)
    (hdst : s.dstAddr.toNat + s.symCount.toNat ≤ Config.dmaSize) {n : Nat} (hr : BitsReadable s n) (left : Nat) :
    ∀ (j : Nat) (b : Bits) (c : Cursor) (done : List Byte), tree.readSymbols (j + 1) b = none → c.cur = s.root →
      Progress s c done → done.length + j < s.symCount.toNat →
      (∀ k, k < done.length + j → busOk s.busHoles (s.dstAddr.toNat + k) .write = true) → c.bitpos + b.length ≤ n →
      BitsFrom s c.bitpos b →
      ∃ c' done', decodeLoop s (b.length + left) c = decodeLoop s left c' ∧ Progress s c' done' ∧
        done'.length < s.symCount.toNat ∧ c'.bitpos = c.bitpos + b.length := by
  intro j
  induction j with
  | zero =>
    intro b c done h hcur hp hl hw hb hf
    have hone := decodeLoop_readSymbol ht ha hdst hr hl hcur hp b hb hf left
    cases hx : tree.readSymbol b with
    | some y => simp [CodeTree.readSymbols, hx] at h
    | none =>
      rw [hx] at hone
      obtain ⟨c', h1, h2, h3⟩ := hone
      exact ⟨c', done, h1, h2, hl, h3⟩
  | succ j ih =>
    intro b c done h hcur hp hl hw hb hf
    have hone := decodeLoop_readSymbol ht ha hdst hr (by omega) hcur hp b hb hf left
    cases hx : tree.readSymbol b with
    | none =>
      rw [hx] at hone
      obtain ⟨c', h1, h2, h3⟩ := hone
      exact ⟨c', done, h1, h2, by omega, h3⟩
    | some y =>
      obtain ⟨x, b'⟩ := y
      rw [hx] at hone
      obtain ⟨c', p, rfl, h1, h2, h3, h4⟩ := hone
      rw [CodeTree.readSymbols, hx] at h
      simp only [Option.map_eq_none_iff] at h
      rw [if_pos (hw _ (by omega))] at h4
      simp only [List.length_append] at hb
      obtain ⟨c2, done', g1, g2, g3, g4⟩ := ih b' c' (done ++ [x]) h h1 h3
        (by simp only [List.length_append, List.length_cons, List.length_nil]; omega)
        (fun k hk => hw k (by simp only [List.length_append, List.length_cons, List.length_nil] at hk; omega)) (by omega)
        (by rw [h2]; exact (bitsFrom_append hf).2)
      exact ⟨c2, done', h4.trans g1, g2, g3, by simp only [List.length_append]; omega⟩

/-- The loop stops with BUS_ERROR at a symbol that the readable bits hold and that cannot be written (R62, R210). -/
theorem decodeLoop_write_fails {s : State} {tree : CodeTree} (ht : heldTree s = some tree) (ha : Apart s)
    (hdst : s.dstAddr.toNat + s.symCount.toNat ≤ Config.dmaSize) {n : Nat} (hr : BitsReadable s n) (left : Nat) :
    ∀ (j : Nat) (b : Bits) (c : Cursor) (done : List Byte) (e : List Byte × Bits), tree.readSymbols (j + 1) b = some e →
      c.cur = s.root → Progress s c done → done.length + j < s.symCount.toNat →
      (∀ k, k < done.length + j → busOk s.busHoles (s.dstAddr.toNat + k) .write = true) →
      busOk s.busHoles (s.dstAddr.toNat + (done.length + j)) .write = false → c.bitpos + b.length ≤ n →
      BitsFrom s c.bitpos b → decodeLoop s (b.length + left) c = .error (.raised .busError true) := by
  intro j
  induction j with
  | zero =>
    intro b c done e h hcur hp hl hw hx hb hf
    have hone := decodeLoop_readSymbol ht ha hdst hr hl hcur hp b hb hf left
    cases hs : tree.readSymbol b with
    | none => simp [CodeTree.readSymbols, hs] at h
    | some y =>
      rw [hs] at hone
      obtain ⟨c', p, _, _, _, _, h4⟩ := hone
      rw [h4, if_neg (by simpa using hx)]
  | succ j ih =>
    intro b c done e h hcur hp hl hw hx hb hf
    have hone := decodeLoop_readSymbol ht ha hdst hr (by omega) hcur hp b hb hf left
    cases hs : tree.readSymbol b with
    | none => simp [CodeTree.readSymbols, hs] at h
    | some y =>
      obtain ⟨x, b'⟩ := y
      rw [hs] at hone
      obtain ⟨c', p, rfl, h1, h2, h3, h4⟩ := hone
      rw [CodeTree.readSymbols, hs] at h
      simp only [Option.map_eq_some_iff] at h
      obtain ⟨e', h, _⟩ := h
      rw [if_pos (hw _ (by omega))] at h4
      simp only [List.length_append] at hb
      rw [h4]
      refine ih b' c' (done ++ [x]) e' h h1 h3 ?_ (fun k hk => hw k ?_) ?_ (by omega) ?_
      · simp only [List.length_append, List.length_cons, List.length_nil]; omega
      · simp only [List.length_append, List.length_cons, List.length_nil] at hk; omega
      · simp only [List.length_append, List.length_cons, List.length_nil]
        rw [show done.length + (0 + 1) + j = done.length + (j + 1) by omega]; exact hx
      · rw [h2]; exact (bitsFrom_append hf).2

theorem payloadBits_from (s : State) (n : Nat) : BitsFrom s 0 (payloadBits s.mem s.srcAddr.toNat n) := by
  intro k hk
  simp only [payloadBits, List.length_map, List.length_range] at hk
  simp [payloadBits, List.getD_eq_getElem?_getD, hk]

@[simp] theorem payloadBits_length (m : List Host.Cell) (a n : Nat) : (payloadBits m a n).length = n := by simp [payloadBits]

/-! ### Decoding a symbol sequence (45_bit_unpacker.md R215) -/

/-- A bit at a root leaf writes the root's symbol, whatever the bit (R212). -/
theorem decodeLoop_root_leaf {s : State} (hroot : (nodeAt s.arena s.root).kind = .leaf) (ha : Apart s)
    (hdst : s.dstAddr.toNat + s.symCount.toNat ≤ Config.dmaSize) {c : Cursor} {done : List Byte} (left : Nat)
    (hp : Progress s c done) (hl : done.length < s.symCount.toNat) {n : Nat} (hr : BitsReadable s n) (hb : c.bitpos < n)
    (hwr : busOk s.busHoles (s.dstAddr.toNat + done.length) .write = true) :
    ∃ c', decodeLoop s (left + 1) c = decodeLoop s left c' ∧ c'.bitpos = c.bitpos + 1 ∧ c'.cur = s.root ∧
      Progress s c' (done ++ [(nodeAt s.arena s.root).sym]) := by
  have hrun := decodeLoop_turn hp ha hl hr hb left
  simp only [turn, hroot, hwr, if_true] at hrun
  exact ⟨_, hrun, rfl, rfl, progress_put hp rfl (by omega)⟩

/-- One symbol's code at the front of the payload decodes to the symbol. -/
theorem decodeLoop_symbol {s : State} {tree : CodeTree} (ht : heldTree s = some tree) (ha : Apart s)
    (hdst : s.dstAddr.toNat + s.symCount.toNat ≤ Config.dmaSize) {n : Nat} (hr : BitsReadable s n) {sym : Byte} {p : Bits}
    (hcode : tree.code sym = some p) {c : Cursor} {done : List Byte} (left : Nat) (hcur : c.cur = s.root)
    (hp : Progress s c done) (hl : done.length < s.symCount.toNat)
    (hwr : busOk s.busHoles (s.dstAddr.toNat + done.length) .write = true) (hpos : c.bitpos + p.length ≤ n)
    (hf : BitsFrom s c.bitpos p) :
    ∃ c', decodeLoop s (p.length + left) c = decodeLoop s left c' ∧ c'.cur = s.root ∧
      c'.bitpos = c.bitpos + p.length ∧ Progress s c' (done ++ [sym]) := by
  have hone := decodeLoop_readSymbol ht ha hdst hr hl hcur hp p hpos hf left
  have hread := CodeTree.readSymbol_code hcode []
  rw [List.append_nil] at hread
  simp only [hread, hwr, if_true, List.append_nil, List.length_nil, Nat.zero_add] at hone
  obtain ⟨c', q, rfl, h1, h2, h3, h4⟩ := hone
  exact ⟨c', h4, h1, h2, h3⟩

/-- A payload that begins with the codes of a symbol sequence decodes to the sequence (R215). -/
theorem decodeLoop_symbols {s : State} {tree : CodeTree} (ht : heldTree s = some tree) (ha : Apart s)
    (hdst : s.dstAddr.toNat + s.symCount.toNat ≤ Config.dmaSize) {n : Nat} (hr : BitsReadable s n)
    (hwr : WritesOk s s.dstAddr.toNat s.symCount.toNat) :
    ∀ (symbols : List Byte) (b : Bits) (c : Cursor) (done : List Byte) (left : Nat), tree.bits symbols = some b →
      c.cur = s.root → Progress s c done → done.length + symbols.length = s.symCount.toNat →
      c.bitpos + b.length ≤ n → BitsFrom s c.bitpos b →
      ∃ c', decodeLoop s (b.length + left) c = .ok c' ∧ c'.bitpos = c.bitpos + b.length ∧ Progress s c' (done ++ symbols)
  | [], b, c, done, left, hb, hcur, hp, hl, hpos, hf => by
    obtain rfl : [] = b := by simpa [CodeTree.bits] using hb
    have hw := hp.written
    simp only [List.length_nil, Nat.add_zero] at hl
    refine ⟨c, ?_, rfl, by simpa using hp⟩
    have : ¬c.written < s.symCount.toNat := by omega
    cases left <;> simp [decodeLoop, this]
  | x :: xs, b, c, done, left, hb, hcur, hp, hl, hpos, hf => by
    simp only [CodeTree.bits] at hb
    cases hx : tree.code x with
    | none => simp [hx] at hb
    | some p =>
      cases hxs : tree.bits xs with
      | none => simp [hx, hxs] at hb
      | some b' =>
        obtain rfl : p ++ b' = b := by simpa [hx, hxs] using hb
        simp only [List.length_append, List.length_cons] at hpos hl ⊢
        obtain ⟨hf1, hf2⟩ := bitsFrom_append hf
        obtain ⟨c1, h1, h2, h3, h4⟩ := decodeLoop_symbol ht ha hdst hr hx (b'.length + left) hcur hp (by omega)
          (hwr _ (by omega)) (by omega) hf1
        obtain ⟨c2, g1, g2, g3⟩ := decodeLoop_symbols ht ha hdst hr hwr xs b' c1 (done ++ [x]) left hxs h2 h4
          (by simp only [List.length_append, List.length_cons, List.length_nil]; omega) (by omega) (by rw [h3]; exact hf2)
        refine ⟨c2, ?_, by omega, by simpa using g3⟩
        rw [Nat.add_assoc, h1, g1]

/-- The loop over a root leaf writes the root's symbol SYM_COUNT times (R212). -/
theorem decodeLoop_repeat {s : State} (hroot : (nodeAt s.arena s.root).kind = .leaf) (ha : Apart s)
    (hdst : s.dstAddr.toNat + s.symCount.toNat ≤ Config.dmaSize) (hr : BitsReadable s s.symCount.toNat)
    (hwr : WritesOk s s.dstAddr.toNat s.symCount.toNat) :
    ∀ (n : Nat) (c : Cursor) (done : List Byte) (left : Nat), Progress s c done → done.length + n = s.symCount.toNat →
      c.bitpos = done.length →
      ∃ c', decodeLoop s (n + left) c = .ok c' ∧ c'.bitpos = s.symCount.toNat ∧
        Progress s c' (done ++ List.replicate n (nodeAt s.arena s.root).sym)
  | 0, c, done, left, hp, hl, hpos => by
    have hw := hp.written
    have : ¬c.written < s.symCount.toNat := by omega
    refine ⟨c, ?_, by omega, by simpa using hp⟩
    cases left <;> simp [decodeLoop, this]
  | n + 1, c, done, left, hp, hl, hpos => by
    obtain ⟨c1, h1, h2, h3, h4⟩ := decodeLoop_root_leaf hroot ha hdst (n + left) hp (by omega) hr (by omega) (hwr _ (by omega))
    obtain ⟨c2, g1, g2, g3⟩ := decodeLoop_repeat hroot ha hdst hr hwr n c1 _ left h4
      (by simp only [List.length_append, List.length_cons, List.length_nil]; omega)
      (by simp only [List.length_append, List.length_cons, List.length_nil]; omega)
    refine ⟨c2, ?_, g2, ?_⟩
    · rw [← g1, ← h1]; congr 1; omega
    · rw [List.replicate_succ]; simpa using g3

end Sys2Proof.Machine
end

