-- ==== Sys2Proof/Laws/Builder.lean ====
section
/-! SUPPORT. BUILD: the selection of the least element, and the one invariant that the leaves and every merge keep. -/

namespace Sys2Proof.Machine

/-! ### Selection (R121) -/

theorem before_iff (a b : Item) :
    a.before b = true ↔ a.weight < b.weight ∨ a.weight = b.weight ∧ a.index < b.index := by
  simp [Item.before]

theorem before_trans {a b c : Item} (h1 : a.before b = true) (h2 : c.before b = false) : c.before a = false := by
  rw [Bool.eq_false_iff] at h2 ⊢
  rw [Ne, before_iff] at h2 ⊢
  rw [before_iff] at h1
  omega

/-- Two different indices are always ordered by the key. -/
theorem before_of_not_before {a b : Item} (h : b.before a = false) (hne : a.index ≠ b.index) : a.before b = true := by
  rw [Bool.eq_false_iff, Ne, before_iff] at h
  rw [before_iff]
  omega

theorem takeMin_none {l : List Item} : takeMin l = none ↔ l = [] := by
  cases l with
  | nil => simp [takeMin]
  | cons x xs =>
    simp only [takeMin]
    cases takeMin xs with
    | none => simp
    | some p => obtain ⟨m, rest⟩ := p; simp only; split <;> simp

/-- `takeMin` takes out one element that none of the others precedes (R122). -/
theorem takeMin_spec : ∀ {l : List Item} {m : Item} {rest : List Item}, takeMin l = some (m, rest) →
    l.Perm (m :: rest) ∧ ∀ x ∈ rest, x.before m = false
  | [], m, rest, h => by simp [takeMin] at h
  | x :: xs, m, rest, h => by
    simp only [takeMin] at h
    cases ht : takeMin xs with
    | none =>
      rw [ht] at h
      obtain ⟨rfl, rfl⟩ : x = m ∧ [] = rest := by simpa using h
      rw [takeMin_none] at ht
      subst ht
      exact ⟨List.Perm.refl _, by simp⟩
    | some p =>
      obtain ⟨m', rest'⟩ := p
      obtain ⟨hp, hm⟩ := takeMin_spec ht
      rw [ht] at h
      simp only at h
      split at h
      · rename_i hx
        obtain ⟨rfl, rfl⟩ : x = m ∧ xs = rest := by simpa using h
        refine ⟨List.Perm.refl _, fun y hy => ?_⟩
        rcases List.mem_cons.1 (hp.mem_iff.1 hy) with rfl | hy'
        · rw [Bool.eq_false_iff, Ne, before_iff]; rw [before_iff] at hx; omega
        · exact before_trans hx (hm y hy')
      · rename_i hx
        obtain ⟨rfl, rfl⟩ : m' = m ∧ x :: rest' = rest := by simpa using h
        refine ⟨(hp.cons x).trans (List.Perm.swap _ _ _), fun y hy => ?_⟩
        rcases List.mem_cons.1 hy with rfl | hy'
        · simpa using hx
        · exact hm y hy'

/-! ### The forest invariant -/

/-- Entry k of a forest. -/
def Forest.node (f : Forest) (k : Nat) : Node := nodeAt f.arena (BitVec.ofNat 9 k)

/-- No internal node between the leaves and `m` has `j` for a child. -/
def Forest.Unmerged (f : Forest) (n j m : Nat) : Prop :=
  ∀ k, n ≤ k → k < m → (f.node k).left.toNat ≠ j ∧ (f.node k).right.toNat ≠ j

/-- The key order on entries of a forest (R121). -/
def Forest.Before (f : Forest) (i j : Nat) : Prop :=
  (f.node i).weight.toNat < (f.node j).weight.toNat ∨ (f.node i).weight.toNat = (f.node j).weight.toNat ∧ i < j

/-- Entry m is the merge of the two least entries not yet merged (R121, R123). -/
def Forest.MergeAt (f : Forest) (n m : Nat) : Prop :=
  ∃ a b, a < b ∧ b < m ∧ f.Unmerged n a m ∧ f.Unmerged n b m ∧
    (f.node m).kind = .internal ∧ (f.node m).sym = 0 ∧ (f.node m).left.toNat = a ∧ (f.node m).right.toNat = b ∧
    (f.node m).weight.toNat = (f.node a).weight.toNat + (f.node b).weight.toNat ∧
    ∀ j, j < m → f.Unmerged n j m → j ≠ a → j ≠ b → f.Before a j ∧ f.Before b j

/-- What holds of a forest with `n` leaves of total weight `total` while it is built (R122). -/
structure Grown (n total : Nat) (f : Forest) : Prop where
  leaves_le : n ≤ 256
  total_lt : total < 2 ^ 40
  next_ge : n ≤ f.next
  count : f.next + f.work.length = 2 * n
  nonempty : 0 < n → 0 < f.work.length
  nodup : (f.work.map Item.index).Nodup
  items : ∀ it ∈ f.work, it.index < f.next ∧ it.weight = (f.node it.index).weight.toNat
  sum : (f.work.map Item.weight).sum = total
  leaf : ∀ k, k < n → (f.node k).kind = .leaf
  merge : ∀ m, n ≤ m → m < f.next → f.MergeAt n m
  unmerged : ∀ j, (∃ it ∈ f.work, it.index = j) ↔ j < f.next ∧ f.Unmerged n j f.next
  forest : ∃ vs : List (List Nat),
    List.Forall₂ (fun (it : Item) v => visits f.arena (it.index + 1) (BitVec.ofNat 9 it.index) = some v) f.work vs ∧
      vs.flatten.Perm (List.range f.next)

theorem Grown.next_lt {n total : Nat} {f : Forest} (h : Grown n total f) (h0 : 0 < n) : f.next < 512 := by
  have := h.leaves_le; have := h.count; have := h.nonempty h0; omega

theorem node_set_ne {f : Forest} {k j : Nat} {n : Node} {w : List Item} {x : Nat} (hk : k < 511) (hj : j < 512) (h : j ≠ k) :
    (Forest.mk (setNode f.arena k n) w x).node j = f.node j := by
  unfold Forest.node
  have : (BitVec.ofNat 9 j).toNat = j := by simp; omega
  rw [nodeAt_setNode _ _ _ _ hk, this]; simp [h]

theorem node_set_self {f : Forest} {k : Nat} {n : Node} {w : List Item} {x : Nat} (hk : k < 511) :
    (Forest.mk (setNode f.arena k n) w x).node k = n := by
  unfold Forest.node
  have : (BitVec.ofNat 9 k).toNat = k := by simp; omega
  rw [nodeAt_setNode _ _ _ _ hk, this]; simp

theorem unmerged_congr {f g : Forest} {n j m : Nat} (h : ∀ k, k < m → g.node k = f.node k) :
    g.Unmerged n j m ↔ f.Unmerged n j m := by
  unfold Forest.Unmerged
  constructor <;> intro hu k h1 h2
  · rw [← h k h2]; exact hu k h1 h2
  · rw [h k h2]; exact hu k h1 h2

theorem mergeAt_congr {f g : Forest} {n m : Nat} (h : ∀ k, k ≤ m → g.node k = f.node k) (hm : f.MergeAt n m) :
    g.MergeAt n m := by
  obtain ⟨a, b, hab, hbm, ha, hb, h1, h2, h3, h4, h5, h6⟩ := hm
  have hc : ∀ k, k < m → g.node k = f.node k := fun k hk => h k (by omega)
  refine ⟨a, b, hab, hbm, (unmerged_congr hc).2 ha, (unmerged_congr hc).2 hb, ?_⟩
  rw [h m (Nat.le_refl _), h a (by omega), h b (by omega)]
  refine ⟨h1, h2, h3, h4, h5, fun j hj hu ja jb => ?_⟩
  have := h6 j hj ((unmerged_congr hc).1 hu) ja jb
  unfold Forest.Before at this ⊢
  rwa [h a (by omega), h b (by omega), h j (by omega)]

theorem unmerged_succ {f : Forest} {n j m : Nat} :
    f.Unmerged n j (m + 1) ↔ f.Unmerged n j m ∧ (n ≤ m → (f.node m).left.toNat ≠ j ∧ (f.node m).right.toNat ≠ j) := by
  unfold Forest.Unmerged
  constructor
  · intro h
    exact ⟨fun k h1 h2 => h k h1 (by omega), fun hn => h m hn (by omega)⟩
  · rintro ⟨h1, h2⟩ k hk hkm
    by_cases e : k = m
    · subst e; exact h2 hk
    · exact h1 k hk (by omega)

/-- The empty forest. -/
theorem grown_empty : Grown 0 0 { arena := blankArena, work := [], next := 0 } where
  leaves_le := by omega
  total_lt := by omega
  next_ge := by simp
  count := by simp
  nonempty := by simp
  nodup := by simp
  items := by simp
  sum := by simp
  leaf := by simp
  merge := by simp
  unmerged := by simp
  forest := ⟨[], .nil, by simp⟩

/-- The trees already in the forest stay as they are when the next free entry is written. -/
theorem forest_visits_set {f : Forest} {vs : List (List Nat)} (hn : f.next < 511) (node : Node)
    (hv : List.Forall₂ (fun (it : Item) v => visits f.arena (it.index + 1) (BitVec.ofNat 9 it.index) = some v) f.work vs)
    (hp : vs.flatten.Perm (List.range f.next)) :
    List.Forall₂ (fun (it : Item) v =>
      visits (setNode f.arena f.next node) (it.index + 1) (BitVec.ofNat 9 it.index) = some v) f.work vs := by
  have hb : ∀ v ∈ vs, ∀ j ∈ v, j < f.next := fun v hv' j hj =>
    List.mem_range.1 (hp.mem_iff.1 (List.mem_flatten.2 ⟨v, hv', hj⟩))
  clear hp
  generalize f.work = ws at hv
  induction hv with
  | nil => exact .nil
  | cons h _ ih =>
    refine .cons (visits_congr h fun j hj => ?_) (ih fun v hv' => hb v (List.mem_cons_of_mem _ hv'))
    have := hb _ List.mem_cons_self _ hj
    rw [nodeAt_setNode _ _ _ _ hn]
    have : j.toNat ≠ f.next := by omega
    simp [this]

/-- One more leaf keeps the invariant, while nothing has been merged. -/
theorem grown_addLeaf {n total : Nat} {f : Forest} (h : Grown n total f) (hn : f.next = n) (hlt : n < 256)
    (freq : Vector Word 256) (sym : Byte) (ht : total + (freqOf freq sym).toNat < 2 ^ 40) :
    Grown (n + 1) (total + (freqOf freq sym).toNat) (addLeaf freq f sym) := by
  set w := (freqOf freq sym).toNat with hw
  have hnode : ∀ k, k < n → (addLeaf freq f sym).node k = f.node k := fun k hk =>
    node_set_ne (by omega) (by omega) (by omega)
  have hself : (addLeaf freq f sym).node n = Node.leaf sym (BitVec.ofNat 40 w) := by
    rw [← hn]; exact node_set_self (by omega)
  have hwlt : w < 2 ^ 40 := by omega
  refine ⟨by omega, ht, ?_, ?_, ?_, ?_, ?_, ?_, ?_, ?_, ?_, ?_⟩
  · simp [addLeaf, hn]
  · have := h.count
    simp [addLeaf]; omega
  · simp [addLeaf]
  · have := h.nodup
    simp only [addLeaf, List.map_append, List.map_cons, List.map_nil]
    rw [List.nodup_append]
    refine ⟨this, by simp, fun a ha b hb => ?_⟩
    obtain ⟨it, hit, rfl⟩ := List.mem_map.1 ha
    have := (h.items it hit).1
    simp at hb; omega
  · intro it hit
    simp only [addLeaf, List.mem_append, List.mem_singleton] at hit
    rcases hit with hit | rfl
    · have := h.items it hit
      refine ⟨by simp only [addLeaf]; omega, ?_⟩
      rw [hnode it.index (by omega)]; exact this.2
    · refine ⟨by simp [addLeaf], ?_⟩
      simp only [hn]
      rw [hself]
      simp [Node.leaf]; omega
  · simp [addLeaf, h.sum, hw]
  · intro k hk
    by_cases e : k = n
    · subst e; rw [hself]; rfl
    · rw [hnode k (by omega)]; exact h.leaf k (by omega)
  · intro m h1 h2
    simp only [addLeaf] at h2; omega
  · intro j
    have e : (addLeaf freq f sym).next = n + 1 := by simp [addLeaf, hn]
    rw [e]
    have hu : (addLeaf freq f sym).Unmerged (n + 1) j (n + 1) := fun k h1 h2 => by omega
    have hu' : f.Unmerged n j f.next := fun k h1 h2 => by omega
    constructor
    · rintro ⟨it, hit, rfl⟩
      simp only [addLeaf, List.mem_append, List.mem_singleton] at hit
      rcases hit with hit | rfl
      · exact ⟨by have := (h.items it hit).1; omega, hu⟩
      · exact ⟨by simp; omega, hu⟩
    · rintro ⟨hj, -⟩
      by_cases ej : j = n
      · exact ⟨⟨w, f.next⟩, by simp [addLeaf, hw], by simp; omega⟩
      · obtain ⟨it, hit, he⟩ := (h.unmerged j).2 ⟨by omega, hu'⟩
        exact ⟨it, by simp [addLeaf, hit], he⟩
  · obtain ⟨vs, hv, hp⟩ := h.forest
    refine ⟨vs ++ [[f.next]], ?_, ?_⟩
    · refine List.rel_append (forest_visits_set (by omega) _ hv hp) (.cons ?_ .nil)
      have : (BitVec.ofNat 9 f.next).toNat = f.next := by simp; omega
      simp only [visits]
      rw [nodeAt_setNode _ _ _ _ (by omega), this]
      simp [Node.leaf]
    · have : (addLeaf freq f sym).next = f.next + 1 := rfl
      rw [this, List.range_succ]
      simpa using hp.append_right [f.next]
theorem visits_internal {A : Vector Node 511} {d : Nat} {i l r : NodeIndex} {w : Weight} {v u : List Nat}
    (hk : nodeAt A i = Node.internal l r w) (hl : visits A d l = some v) (hr : visits A d r = some u) :
    visits A (d + 1) i = some (i.toNat :: (v ++ u)) := by
  simp [visits, hk, Node.internal, hl, hr]

/-- A merge keeps the invariant (R122). -/
theorem grown_mergeTwo {n total : Nat} {f : Forest} (h : Grown n total f) {a b : Item} {rest rest' : List Item}
    (ha : takeMin f.work = some (a, rest)) (hb : takeMin rest = some (b, rest')) :
    Grown n total (mergeTwo f a b rest') := by
  obtain ⟨pa, ma⟩ := takeMin_spec ha
  obtain ⟨pb, mb⟩ := takeMin_spec hb
  have pw : f.work.Perm (a :: b :: rest') := pa.trans (pb.cons a)
  have hlen : f.work.length = rest'.length + 2 := by rw [pw.length_eq]; simp
  have hcount := h.count
  have hle := h.leaves_le
  have hn : f.next < 511 := by omega
  have hmemw : ∀ it, it ∈ f.work ↔ it = a ∨ it = b ∨ it ∈ rest' := fun it => by rw [pw.mem_iff]; simp
  obtain ⟨hai, haw⟩ := h.items a ((hmemw a).2 (.inl rfl))
  obtain ⟨hbi, hbw⟩ := h.items b ((hmemw b).2 (.inr (.inl rfl)))
  have hnd : ((a :: b :: rest').map Item.index).Nodup := (pw.map _).nodup_iff.1 h.nodup
  simp only [List.map_cons, List.nodup_cons, List.mem_cons, not_or] at hnd
  obtain ⟨⟨hab, har⟩, hbr, hndr⟩ := hnd
  have hsum : a.weight + (b.weight + (rest'.map Item.weight).sum) = total := by
    rw [← h.sum, (pw.map Item.weight).sum_eq]; simp
  have htot := h.total_lt
  have hnge := h.next_ge
  -- the nodes of the new forest
  have hnode : ∀ k, k < f.next → (mergeTwo f a b rest').node k = f.node k := fun k hk =>
    node_set_ne hn (by omega) (by omega)
  have hself : (mergeTwo f a b rest').node f.next = Node.internal (BitVec.ofNat 9 (min a.index b.index))
      (BitVec.ofNat 9 (max a.index b.index)) (BitVec.ofNat 40 (a.weight + b.weight)) := node_set_self hn
  have hmin : (BitVec.ofNat 9 (min a.index b.index)).toNat = min a.index b.index := by simp; omega
  have hmax : (BitVec.ofNat 9 (max a.index b.index)).toNat = max a.index b.index := by simp; omega
  have hnext : (mergeTwo f a b rest').next = f.next + 1 := rfl
  have hwork : (mergeTwo f a b rest').work = rest' ++ [{ weight := a.weight + b.weight, index := f.next }] := rfl
  -- no other unmerged entry comes before the two
  have hleast : ∀ j, j < f.next → f.Unmerged n j f.next → j ≠ a.index → j ≠ b.index →
      ∃ it ∈ rest', it.index = j ∧ a.before it = true ∧ b.before it = true := by
    intro j hj hu ja jb
    obtain ⟨it, hit, rfl⟩ := (h.unmerged j).2 ⟨hj, hu⟩
    rcases (hmemw it).1 hit with rfl | rfl | hr
    · exact absurd rfl ja
    · exact absurd rfl jb
    · exact ⟨it, hr, rfl, before_of_not_before (ma it (pb.mem_iff.2 (List.mem_cons_of_mem _ hr))) (Ne.symm ja),
        before_of_not_before (mb it hr) (Ne.symm jb)⟩
  have hua := ((h.unmerged a.index).1 ⟨a, (hmemw a).2 (.inl rfl), rfl⟩).2
  have hub := ((h.unmerged b.index).1 ⟨b, (hmemw b).2 (.inr (.inl rfl)), rfl⟩).2
  have hmerge : (mergeTwo f a b rest').MergeAt n f.next := by
    refine ⟨min a.index b.index, max a.index b.index, by omega, by omega, ?_, ?_, ?_⟩
    · rw [unmerged_congr hnode]
      rcases Nat.le_total a.index b.index with e | e
      · rwa [Nat.min_eq_left e]
      · rwa [Nat.min_eq_right e]
    · rw [unmerged_congr hnode]
      rcases Nat.le_total a.index b.index with e | e
      · rwa [Nat.max_eq_right e]
      · rwa [Nat.max_eq_left e]
    · rw [hself, hnode _ (by omega), hnode _ (by omega)]
      refine ⟨rfl, rfl, hmin, hmax, ?_, ?_⟩
      · simp only [Node.internal, BitVec.toNat_ofNat]
        rcases Nat.le_total a.index b.index with e | e
        · rw [Nat.min_eq_left e, Nat.max_eq_right e, ← haw, ← hbw]; exact Nat.mod_eq_of_lt (by omega)
        · rw [Nat.min_eq_right e, Nat.max_eq_left e, ← haw, ← hbw, Nat.add_comm]; exact Nat.mod_eq_of_lt (by omega)
      · intro j hj hu ja jb
        obtain ⟨it, hit, hji, h1, h2⟩ := hleast j hj ((unmerged_congr hnode).1 hu) (by omega) (by omega)
        obtain ⟨_, hw⟩ := h.items it ((hmemw it).2 (.inr (.inr hit)))
        rw [before_iff] at h1 h2
        unfold Forest.Before
        rw [hnode _ (by omega), hnode _ (by omega), hnode _ (by omega)]
        subst hji
        rw [haw, hw] at h1
        rw [hbw, hw] at h2
        rcases Nat.le_total a.index b.index with e | e
        · rw [Nat.min_eq_left e, Nat.max_eq_right e]; exact ⟨h1, h2⟩
        · rw [Nat.min_eq_right e, Nat.max_eq_left e]; exact ⟨h2, h1⟩
  refine ⟨hle, htot, ?_, ?_, ?_, ?_, ?_, ?_, ?_, ?_, ?_, ?_⟩
  · rw [hnext]; omega
  · rw [hnext, hwork]; simp; omega
  · simp [hwork]
  · rw [hwork, List.map_append, List.nodup_append]
    refine ⟨hndr, by simp, fun x hx y hy => ?_⟩
    obtain ⟨it, hit, rfl⟩ := List.mem_map.1 hx
    have := (h.items it ((hmemw it).2 (.inr (.inr hit)))).1
    simp at hy; omega
  · intro it hit
    rw [hwork, List.mem_append, List.mem_singleton] at hit
    rcases hit with hit | rfl
    · have := h.items it ((hmemw it).2 (.inr (.inr hit)))
      refine ⟨by rw [hnext]; omega, ?_⟩
      rw [hnode _ this.1]; exact this.2
    · refine ⟨by rw [hnext]; simp, ?_⟩
      simp only
      rw [hself]
      simp only [Node.internal, BitVec.toNat_ofNat]
      exact (Nat.mod_eq_of_lt (by omega)).symm
  · rw [hwork]; simp; omega
  · intro k hk; rw [hnode k (by omega)]; exact h.leaf k hk
  · intro m h1 h2
    rw [hnext] at h2
    by_cases e : m = f.next
    · subst e; exact hmerge
    · exact mergeAt_congr (fun k hk => hnode k (by omega)) (h.merge m h1 (by omega))
  · intro j
    rw [hnext, unmerged_succ, unmerged_congr hnode, hself, hwork]
    simp only [Node.internal, hmin, hmax]
    constructor
    · rintro ⟨it, hit, rfl⟩
      rw [List.mem_append, List.mem_singleton] at hit
      rcases hit with hit | rfl
      · have h1 := (h.unmerged it.index).1 ⟨it, (hmemw it).2 (.inr (.inr hit)), rfl⟩
        have h2 : it.index ≠ a.index := fun e => har (e ▸ List.mem_map.2 ⟨it, hit, rfl⟩)
        have h3 : it.index ≠ b.index := fun e => hbr (e ▸ List.mem_map.2 ⟨it, hit, rfl⟩)
        exact ⟨by omega, h1.2, fun _ => ⟨by omega, by omega⟩⟩
      · refine ⟨by simp, fun k hk1 hk2 => ?_, fun _ => ⟨by simp only; omega, by simp only; omega⟩⟩
        obtain ⟨x, y, hxy, hym, _, _, _, _, hl, hr, _⟩ := h.merge k hk1 hk2
        rw [hl, hr]
        exact ⟨by simp only; omega, by simp only; omega⟩
    · rintro ⟨hj, hu, hne⟩
      by_cases e : j = f.next
      · exact ⟨⟨a.weight + b.weight, f.next⟩, by simp, e.symm⟩
      · have h2 := hne hnge
        obtain ⟨it, hit, hij, _⟩ := hleast j (by omega) hu (by omega) (by omega)
        exact ⟨it, by simp [hit], hij⟩
  · obtain ⟨vs, hv, hp⟩ := h.forest
    have hv' := forest_visits_set hn (Node.internal (BitVec.ofNat 9 (min a.index b.index))
      (BitVec.ofNat 9 (max a.index b.index)) (BitVec.ofNat 40 (a.weight + b.weight))) hv hp
    obtain ⟨us, hu, hup⟩ := List.perm_comp_forall₂ pw.symm hv'
    cases hu with
    | cons hva hu =>
      cases hu with
      | cons hvb hu =>
        rename_i va vb us'
        refine ⟨us' ++ [f.next :: (if a.index ≤ b.index then va ++ vb else vb ++ va)], ?_, ?_⟩
        · refine List.rel_append hu (.cons ?_ .nil)
          have e : (BitVec.ofNat 9 f.next).toNat = f.next := by simp; omega
          have hk : nodeAt (mergeTwo f a b rest').arena (BitVec.ofNat 9 f.next) = _ := hself
          rcases Nat.le_total a.index b.index with e' | e'
          · rw [Nat.min_eq_left e', Nat.max_eq_right e'] at hk
            have key := visits_internal hk (visits_mono (e := f.next) (by omega) hva) (visits_mono (by omega) hvb)
            rw [e] at key
            rw [if_pos e']
            exact key
          · rw [Nat.min_eq_right e', Nat.max_eq_left e'] at hk
            have key := visits_internal hk (visits_mono (e := f.next) (by omega) hvb) (visits_mono (by omega) hva)
            rw [e] at key
            rw [if_neg (by omega)]
            exact key
        · rw [hnext, List.range_succ]
          have h1 : (va :: vb :: us').flatten.Perm (List.range f.next) := (hup.flatten).trans hp
          have h2 : (us' ++ [f.next :: (if a.index ≤ b.index then va ++ vb else vb ++ va)]).flatten.Perm
              ((va :: vb :: us').flatten ++ [f.next]) := by
            rw [List.perm_iff_count]
            intro x
            split <;> simp only [List.flatten_append, List.flatten_cons, List.flatten_nil, List.count_append,
              List.count_cons, List.count_nil] <;> omega
          exact h2.trans (h1.append_right _)

/-! ### The whole build -/

theorem node_mergeTwo_lt {n total : Nat} {f : Forest} (h : Grown n total f) {a b : Item} {rest : List Item}
    (hw : 2 ≤ f.work.length) {k : Nat} (hk : k < f.next) : (mergeTwo f a b rest).node k = f.node k := by
  have := h.count; have := h.leaves_le
  exact node_set_ne (by omega) (by omega) (by omega)

/-- `while |W| ≥ 2`: the invariant is kept, what is built stays, and each turn takes one element off (R122). -/
theorem mergeAll_grown {n total : Nat} : ∀ (k : Nat) {f : Forest}, Grown n total f →
    Grown n total (mergeAll k f) ∧ (∀ j, j < f.next → (mergeAll k f).node j = f.node j) ∧
      (k < f.work.length → (mergeAll k f).work.length + k = f.work.length)
  | 0, f, h => ⟨h, fun _ _ => rfl, fun _ => rfl⟩
  | k + 1, f, h => by
    simp only [mergeAll]
    cases ha : takeMin f.work with
    | none => rw [takeMin_none] at ha; exact ⟨h, fun _ _ => rfl, fun hk => by simp [ha] at hk⟩
    | some p =>
      obtain ⟨a, rest⟩ := p
      have hl := (takeMin_spec ha).1.length_eq
      simp only
      cases hb : takeMin rest with
      | none =>
        rw [takeMin_none] at hb; subst hb
        exact ⟨h, fun _ _ => rfl, fun hk => by simp at hl; omega⟩
      | some q =>
        obtain ⟨b, rest'⟩ := q
        have hl' := (takeMin_spec hb).1.length_eq
        simp only [List.length_cons] at hl hl' ⊢
        obtain ⟨g1, g2, g3⟩ := mergeAll_grown k (grown_mergeTwo h ha hb)
        refine ⟨g1, fun j hj => ?_, fun hk => ?_⟩
        · rw [g2 j (by simp only [mergeTwo]; omega)]
          exact node_mergeTwo_lt h (by omega) hj
        · have : (mergeTwo f a b rest').work.length = rest'.length + 1 := by simp [mergeTwo]
          have := g3 (by omega)
          omega

/-- The leaves planted from a list of symbols (R121, R122). -/
theorem plant_grown (freq : Vector Word 256) : ∀ (l : List Byte) {n total : Nat} {f : Forest}, Grown n total f →
    f.next = n → n + l.length ≤ 256 → total ≤ n * (2 ^ 32 - 1) →
    Grown (n + l.length) (total + (l.map fun x => (freqOf freq x).toNat).sum) (l.foldl (addLeaf freq) f) ∧
      (l.foldl (addLeaf freq) f).next = n + l.length ∧
      (∀ k, k < n → (l.foldl (addLeaf freq) f).node k = f.node k) ∧
      ∀ k x, l[k]? = some x →
        (l.foldl (addLeaf freq) f).node (n + k) = Node.leaf x (BitVec.ofNat 40 (freqOf freq x).toNat)
  | [], n, total, f, h, hn, _, _ => ⟨by simpa using h, by simpa using hn, fun _ _ => rfl, by simp⟩
  | x :: xs, n, total, f, h, hn, hle, htot => by
    simp only [List.length_cons] at hle
    have hx : (freqOf freq x).toNat < 2 ^ 32 := (freqOf freq x).isLt
    have ht : total + (freqOf freq x).toNat ≤ (n + 1) * (2 ^ 32 - 1) := by
      rw [Nat.add_mul]; omega
    have h1 := grown_addLeaf h hn (by omega) freq x (by
      have : (n + 1) * (2 ^ 32 - 1) ≤ 256 * (2 ^ 32 - 1) := Nat.mul_le_mul_right _ (by omega)
      omega)
    obtain ⟨g1, g2, g3, g4⟩ := plant_grown freq xs h1 (by simp [addLeaf, hn]) (by omega) ht
    have e : n + 1 + xs.length = n + (xs.length + 1) := by omega
    simp only [List.foldl_cons, List.length_cons, List.map_cons, List.sum_cons]
    refine ⟨?_, by omega, fun k hk => ?_, fun k y hy => ?_⟩
    · rw [← e, ← Nat.add_assoc]; exact g1
    · rw [g3 k (by omega)]; exact node_set_ne (by omega) (by omega) (by omega)
    · cases k with
      | zero =>
        obtain rfl : x = y := by simpa using hy
        rw [g3 _ (by omega)]
        have hself : (addLeaf freq f x).node f.next = _ := node_set_self (by omega)
        rw [hn] at hself; exact hself
      | succ k =>
        have := g4 k y (by simpa using hy)
        have e2 : n + (k + 1) = n + 1 + k := by omega
        rw [e2]; exact this

theorem alphabet_length_le (freq : Vector Word 256) : (alphabet freq).length ≤ 256 := by
  unfold alphabet
  refine (List.length_filter_le _ _).trans ?_
  simp

/-- The number of symbols with a nonzero FREQ entry. -/
theorem alphabet_length (freq : Vector Word 256) :
    (alphabet freq).length = (List.range 256).countP fun k => freqOf freq (BitVec.ofNat 8 k) != 0 := by
  unfold alphabet
  rw [← List.countP_eq_length_filter, List.countP_map]; rfl

theorem sum_filter_ne_zero (g : Byte → Word) (l : List Byte) :
    ((l.filter fun x => g x != 0).map fun x => (g x).toNat).sum = (l.map fun x => (g x).toNat).sum := by
  induction l with
  | nil => rfl
  | cons x xs ih =>
    rw [List.filter_cons]
    split
    · simp only [List.map_cons, List.sum_cons, ih]
    · rename_i h
      have : g x = 0 := by simpa using h
      simp only [List.map_cons, List.sum_cons, ih, this]; simp

/-- The total weight of the alphabet is the sum of FREQ. -/
theorem alphabet_sum (freq : Vector Word 256) :
    ((alphabet freq).map fun x => (freqOf freq x).toNat).sum =
      ((List.range 256).map fun k => (freqOf freq (BitVec.ofNat 8 k)).toNat).sum := by
  unfold alphabet
  rw [sum_filter_ne_zero, List.map_map]; rfl

/-- Everything BUILD's tree is: one item is left, 2·N − 1 entries are in use, the invariant holds, and the leaves are the
alphabet in ascending order (R121, R122). -/
theorem growTree_spec (freq : Vector Word 256) (h0 : 0 < (alphabet freq).length) :
    let n := (alphabet freq).length
    Grown n (((List.range 256).map fun k => (freqOf freq (BitVec.ofNat 8 k)).toNat).sum) (growTree freq) ∧
      (growTree freq).next = 2 * n - 1 ∧ (growTree freq).work.length = 1 ∧
      ∀ k x, (alphabet freq)[k]? = some x →
        (growTree freq).node k = Node.leaf x (BitVec.ofNat 40 (freqOf freq x).toNat) := by
  intro n
  have hle := alphabet_length_le freq
  obtain ⟨g1, g2, _, g4⟩ := plant_grown freq (alphabet freq) grown_empty rfl (by omega) (by omega)
  simp only [Nat.zero_add] at g1 g2 g4
  rw [alphabet_sum] at g1
  have hc := g1.count
  obtain ⟨m1, m2, m3⟩ := mergeAll_grown (n - 1) g1
  have hw := m3 (by rw [g2] at hc; omega)
  have hc' := m1.count
  rw [g2] at hc
  refine ⟨m1, ?_, ?_, fun k x hx => ?_⟩
  · show (mergeAll (n - 1) (plantLeaves freq)).next = _
    unfold plantLeaves; omega
  · show (mergeAll (n - 1) (plantLeaves freq)).work.length = _
    unfold plantLeaves; omega
  · have hk : k < (alphabet freq).length := (List.getElem?_eq_some_iff.1 hx).1
    show (mergeAll (n - 1) (plantLeaves freq)).node k = _
    unfold plantLeaves
    rw [m2 k (by omega)]
    exact g4 k x hx

/-- The one item left is the last entry made, and it holds the whole weight (R122, R124). -/
theorem grown_root {n total : Nat} {f : Forest} (h : Grown n total f) (h1 : f.work.length = 1) (h0 : 0 < n) :
    (∃ it, f.work = [it] ∧ it.index = f.next - 1 ∧ it.weight = total) ∧
      ∃ v, visits f.arena Config.walkDepth (BitVec.ofNat 9 (f.next - 1)) = some v ∧ v.Perm (List.range f.next) := by
  obtain ⟨it, hit⟩ := List.length_eq_one_iff.1 h1
  have hc := h.count
  have hle := h.leaves_le
  have hidx : it.index = f.next - 1 := by
    have hlast := (h.unmerged (f.next - 1)).2 ⟨by omega, fun k hk1 hk2 => by
      obtain ⟨a, b, hab, hbm, _, _, _, _, hl, hr, _⟩ := h.merge k hk1 hk2
      rw [hl, hr]; omega⟩
    obtain ⟨jt, hjt, he⟩ := hlast
    rw [hit, List.mem_singleton] at hjt
    rw [← hjt]; exact he
  refine ⟨⟨it, hit, hidx, ?_⟩, ?_⟩
  · have := h.sum; rw [hit] at this; simpa using this
  · obtain ⟨vs, hv, hp⟩ := h.forest
    rw [hit] at hv
    cases hv with
    | cons hv hnil =>
      cases hnil
      rename_i v
      rw [hidx] at hv
      exact ⟨v, visits_mono (by simp only [Config.walkDepth]; omega) hv, by simpa using hp⟩

/-- The LEAF entries of a grown forest are its n leaves. -/
theorem leafCount_grown {n total : Nat} {f : Forest} (h : Grown n total f) {s : State} (ha : s.arena = f.arena)
    (hc : s.nodeCount.toNat = f.next) : leafCount s = n := by
  unfold leafCount
  rw [hc, ha]
  have hge := h.next_ge
  have : f.next = n + (f.next - n) := by omega
  rw [this, List.range_add, List.countP_append]
  have h1 : (List.range n).countP (fun i => (nodeAt f.arena (BitVec.ofNat 9 i)).kind == .leaf) = n := by
    have : (List.range n).countP (fun i => (nodeAt f.arena (BitVec.ofNat 9 i)).kind == .leaf) = (List.range n).length := by
      rw [List.countP_eq_length]
      intro k hk
      have := h.leaf k (List.mem_range.1 hk)
      simpa [Forest.node] using this
    simpa using this
  have h2 : ((List.range (f.next - n)).map (n + ·)).countP (fun i => (nodeAt f.arena (BitVec.ofNat 9 i)).kind == .leaf) = 0 := by
    rw [List.countP_eq_zero]
    intro k hk
    obtain ⟨j, hj, rfl⟩ := List.mem_map.1 hk
    obtain ⟨a, b, _, _, _, _, hk, _⟩ := h.merge (n + j) (by omega) (by have := List.mem_range.1 hj; omega)
    have : (nodeAt f.arena (BitVec.ofNat 9 (n + j))).kind = .internal := hk
    simp [this]
  omega

/-- A forest grown together is one tree in the sense of R44(c). -/
theorem grown_arenaIsTree {n total : Nat} {f : Forest} (h : Grown n total f) (h1 : f.work.length = 1) (h0 : 0 < n) {s : State}
    (ha : s.arena = f.arena) (hc : s.nodeCount.toNat = f.next) (hr : s.root.toNat = f.next - 1) : ArenaIsTree s := by
  have hlt := h.next_lt h0
  have hcount := h.count
  obtain ⟨-, v, hv, hp⟩ := grown_root h h1 h0
  have hroot : s.root = BitVec.ofNat 9 (f.next - 1) := by
    apply BitVec.eq_of_toNat_eq; rw [hr]; simp; omega
  refine ⟨by omega, by omega, by omega, ⟨v, by rw [ha, hroot]; exact hv, fun i hi => ?_, fun i hi => ?_⟩, ?_⟩
  · rw [hc]; exact List.mem_range.1 (hp.mem_iff.1 hi)
  · rw [hp.count_eq]; rw [hc] at hi
    exact List.count_eq_one_of_mem List.nodup_range (List.mem_range.2 hi)
  · rw [leafCount_grown h ha hc, hc]; omega
/-! ### The instruction -/

/-- BUILD has no precheck (R104). -/
theorem execBuild_eq {s : State} (hf : s.fatal = false) : exec .build s = finish .build s (runBuild s) := by
  show runCommand .build runBuild s = _
  exact runCommand_run _ hf rfl

/-- BUILD of a nonempty alphabet completes with the grown tree (R122). -/
theorem execBuild_tree {s : State} (hf : s.fatal = false) (h0 : 0 < (alphabet s.freq).length) :
    exec .build s =
      .next (okState 0 0 0 { s with code := noCodes, ctValid := false, treeState := .valid,
                                    nodeCount := BitVec.ofNat 9 (growTree s.freq).next,
                                    root := BitVec.ofNat 9 ((growTree s.freq).next - 1),
                                    arena := (growTree s.freq).arena }) := by
  rw [execBuild_eq hf]
  have : ¬ (alphabet s.freq).length = 0 := by omega
  simp only [runBuild, this, if_false, finish, completeOk, okState, Results.zero]

end Sys2Proof.Machine
end

