-- ==== Sys2Proof/Laws/Codec.lean ====
section
/-! SUPPORT. SERIALIZE's stream and DESERIALIZE's parse: what the parse builds, when it succeeds, and each error it raises. -/

namespace Sys2Proof.Machine

/-! ### The layout a parse leaves (43_tree_codec.md R168, R172) -/

/-- The tree stands from entry `i` on, in pre-order, every weight 0. -/
def PreorderAt (a : Vector Node 511) : Nat → CodeTree → Prop
  | i, .leaf x => nodeAt a (BitVec.ofNat 9 i) = Node.leaf x 0
  | i, .node l r =>
    nodeAt a (BitVec.ofNat 9 i) = Node.internal (BitVec.ofNat 9 (i + 1)) (BitVec.ofNat 9 (i + 1 + l.size)) 0 ∧
      PreorderAt a (i + 1) l ∧ PreorderAt a (i + 1 + l.size) r

theorem preorderAt_congr {a b : Vector Node 511} : ∀ {t : CodeTree} {i : Nat},
    (∀ k, i ≤ k → k < i + t.size → nodeAt b (BitVec.ofNat 9 k) = nodeAt a (BitVec.ofNat 9 k)) →
    PreorderAt a i t → PreorderAt b i t
  | .leaf x, i, h, ha => by
    rw [PreorderAt] at ha ⊢
    rw [h i (by omega) (by simp only [CodeTree.size]; omega), ha]
  | .node l r, i, h, ⟨h0, hl, hr⟩ => by
    simp only [CodeTree.size] at h
    refine ⟨?_, preorderAt_congr (fun k h1 h2 => h k (by omega) (by omega)) hl,
      preorderAt_congr (fun k h1 h2 => h k (by omega) (by omega)) hr⟩
    rw [h i (by omega) (by omega), h0]

theorem preorderAt_treeAt {a : Vector Node 511} : ∀ {t : CodeTree} {i : Nat}, PreorderAt a i t →
    treeAt a t.size (BitVec.ofNat 9 i) = some t
  | .leaf x, i, h => by
    rw [PreorderAt] at h
    have hk : (nodeAt a (BitVec.ofNat 9 i)).kind = .leaf := by rw [h]; rfl
    rw [CodeTree.size, treeAt_leaf (d := 0) hk, h]; rfl
  | .node l r, i, ⟨h0, hl, hr⟩ => by
    have hk : (nodeAt a (BitVec.ofNat 9 i)).kind = .internal := by rw [h0]; rfl
    have e : (CodeTree.node l r).size = (l.size + r.size) + 1 := by simp only [CodeTree.size]; omega
    rw [e, treeAt_internal hk, h0]
    show (treeAt a (l.size + r.size) (BitVec.ofNat 9 (i + 1))).bind _ = _
    rw [treeAt_mono (Nat.le_add_right _ _) (preorderAt_treeAt hl)]
    show (treeAt a (l.size + r.size) (BitVec.ofNat 9 (i + 1 + l.size))).map _ = _
    rw [treeAt_mono (Nat.le_add_left _ _) (preorderAt_treeAt hr)]
    rfl

theorem ofNat9_toNat {i : Nat} (h : i < 512) : (BitVec.ofNat 9 i).toNat = i := by
  rw [BitVec.toNat_ofNat]; omega

/-- The walk from `i` visits each entry of the tree once, in ascending order. -/
theorem preorderAt_visits {a : Vector Node 511} : ∀ {t : CodeTree} {i : Nat}, i + t.size ≤ 511 → PreorderAt a i t →
    visits a t.size (BitVec.ofNat 9 i) = some (List.range' i t.size)
  | .leaf x, i, hs, h => by
    rw [PreorderAt] at h
    have : (BitVec.ofNat 9 i).toNat = i := ofNat9_toNat (by omega)
    simp [CodeTree.size, visits, h, Node.leaf, this]
  | .node l r, i, hs, ⟨h0, hl, hr⟩ => by
    simp only [CodeTree.size] at hs
    have e : (CodeTree.node l r).size = (l.size + r.size) + 1 := by simp only [CodeTree.size]; omega
    have h1 := visits_mono (Nat.le_add_right l.size r.size) (preorderAt_visits (by omega) hl)
    have h2 := visits_mono (Nat.le_add_left r.size l.size) (preorderAt_visits (by omega) hr)
    have hi : (BitVec.ofNat 9 i).toNat = i := ofNat9_toNat (by omega)
    rw [e]
    simp only [visits, h0, Node.internal, h1, h2, hi]
    rw [List.range'_succ, ← List.range'_append_1]

theorem preorderAt_weight {a : Vector Node 511} : ∀ {t : CodeTree} {i : Nat}, PreorderAt a i t →
    ∀ k, i ≤ k → k < i + t.size → (nodeAt a (BitVec.ofNat 9 k)).weight = 0
  | .leaf x, i, h, k, h1, h2 => by
    simp only [CodeTree.size] at h2
    obtain rfl : k = i := by omega
    rw [PreorderAt] at h
    rw [h]; rfl
  | .node l r, i, ⟨h0, hl, hr⟩, k, h1, h2 => by
    simp only [CodeTree.size] at h2
    by_cases e : k = i
    · subst e; rw [h0]; rfl
    · by_cases e2 : k < i + 1 + l.size
      · exact preorderAt_weight hl k (by omega) e2
      · exact preorderAt_weight hr k (by omega) (by omega)

theorem preorderAt_leafCount {a : Vector Node 511} : ∀ {t : CodeTree} {i : Nat}, PreorderAt a i t →
    (List.range' i t.size).countP (fun k => (nodeAt a (BitVec.ofNat 9 k)).kind == .leaf) = t.leaves.length
  | .leaf x, i, h => by
    rw [PreorderAt] at h
    simp [CodeTree.size, CodeTree.leaves, h, Node.leaf]
  | .node l r, i, ⟨h0, hl, hr⟩ => by
    have e : (CodeTree.node l r).size = (l.size + r.size) + 1 := by simp only [CodeTree.size]; omega
    rw [e, List.range'_succ, ← List.range'_append_1, List.countP_cons, List.countP_append, preorderAt_leafCount hl,
      preorderAt_leafCount hr, h0]
    simp [CodeTree.leaves, Node.internal]

/-- A parsed tree of at most 511 nodes meets R44(c), with the root at entry 0. -/
theorem preorderAt_arenaIsTree {s : State} {t : CodeTree} (h : PreorderAt s.arena 0 t) (hs : t.size ≤ 511)
    (hc : s.nodeCount.toNat = t.size) (hr : s.root = 0) : ArenaIsTree s := by
  have hp := t.size_pos
  have hv := visits_mono (e := Config.walkDepth) (by unfold Config.walkDepth; omega) (preorderAt_visits (by omega) h)
  refine ⟨by omega, by omega, by rw [hr, hc]; exact hp, ⟨List.range' 0 t.size, by rw [hr]; exact hv, ?_, ?_⟩, ?_⟩
  · intro i hi; rw [List.mem_range'_1] at hi; omega
  · intro i hi
    exact List.count_eq_one_of_mem List.nodup_range' (by rw [List.mem_range'_1]; omega)
  · rw [hc, t.size_eq]
    unfold leafCount
    rw [hc, List.range_eq_range', preorderAt_leafCount h]

/-! ### `nextbyte` -/

theorem nextByte_ok {s : State} {p : Parse} (h : p.pos < s.srcLen.toNat)
    (hb : busOk s.busHoles (s.srcAddr.toNat + p.pos) .read = true) :
    nextByte s p = .ok (memGet s.mem (s.srcAddr.toNat + p.pos), { p with pos := p.pos + 1 }) := by
  have : ¬s.srcLen.toNat ≤ p.pos := by omega
  simp [nextByte, this, dmaRead, hb, bind, Except.bind]

theorem nextByte_end {s : State} {p : Parse} (h : s.srcLen.toNat ≤ p.pos) :
    nextByte s p = .error (.raised .fmtTruncated false) := by
  simp [nextByte, h]

theorem nextByte_bus {s : State} {p : Parse} (h : p.pos < s.srcLen.toNat)
    (hb : busOk s.busHoles (s.srcAddr.toNat + p.pos) .read = false) :
    nextByte s p = .error (.raised .busError false) := by
  have : ¬s.srcLen.toNat ≤ p.pos := by omega
  simp [nextByte, this, dmaRead, hb, bind, Except.bind]

/-- Everything `nextbyte` can do. -/
theorem nextByte_cases (s : State) (p : Parse) :
    (p.pos < s.srcLen.toNat ∧
      nextByte s p = .ok (memGet s.mem (s.srcAddr.toNat + p.pos), { p with pos := p.pos + 1 })) ∨
      nextByte s p = .error (.raised .fmtTruncated false) ∨ nextByte s p = .error (.raised .busError false) := by
  by_cases h : s.srcLen.toNat ≤ p.pos
  · exact .inr (.inl (nextByte_end h))
  · cases hb : busOk s.busHoles (s.srcAddr.toNat + p.pos) .read with
    | true => exact .inl ⟨by omega, nextByte_ok (by omega) hb⟩
    | false => exact .inr (.inr (nextByte_bus (by omega) hb))

/-! ### One turn of `parse` -/

theorem parseNode_error {s : State} {d : Nat} {p : Parse} {e : Halt} (h : nextByte s p = .error e) :
    parseNode s (d + 1) p = .error e := by
  simp [parseNode, h, bind, Except.bind]

/-- `parse` after its tag byte, at an entry that is still free. -/
theorem parseNode_leaf {s : State} {d : Nat} {p : Parse} (h : nextByte s p = .ok (0x01, { p with pos := p.pos + 1 }))
    (hc : p.cnt ≠ 511) :
    parseNode s (d + 1) p =
      (nextByte s { p with pos := p.pos + 1, cnt := p.cnt + 1 }).bind fun (sym, p3) =>
        .ok (p.cnt, { p3 with arena := setNode p3.arena p.cnt (Node.leaf sym 0) }) := by
  have hc' : p.cnt ≠ Config.nodeCap := hc
  simp [parseNode, h, bind, Except.bind, tagLeaf, hc']

theorem parseNode_internal {s : State} {d : Nat} {p : Parse} (h : nextByte s p = .ok (0x00, { p with pos := p.pos + 1 }))
    (hc : p.cnt ≠ 511) :
    parseNode s (d + 1) p =
      (parseNode s d { p with pos := p.pos + 1, cnt := p.cnt + 1 }).bind fun (l, p3) =>
        (parseNode s d p3).bind fun (r, p4) =>
          let n := Node.internal (BitVec.ofNat 9 l) (BitVec.ofNat 9 r) 0
          .ok (p.cnt, { p4 with arena := setNode p4.arena p.cnt n }) := by
  have hc' : p.cnt ≠ Config.nodeCap := hc
  simp [parseNode, h, bind, Except.bind, tagLeaf, tagInternal, hc']

theorem parseNode_full {s : State} {d : Nat} {p : Parse} {v : Byte}
    (h : nextByte s p = .ok (v, { p with pos := p.pos + 1 })) (hv : v = 0x00 ∨ v = 0x01) (hc : p.cnt = 511) :
    parseNode s (d + 1) p = .error (.raised .fmtCapacity false) := by
  have hc' : p.cnt = Config.nodeCap := hc
  rcases hv with rfl | rfl <;> simp [parseNode, h, bind, Except.bind, tagLeaf, tagInternal, hc']

theorem parseNode_badTag {s : State} {d : Nat} {p : Parse} {v : Byte}
    (h : nextByte s p = .ok (v, { p with pos := p.pos + 1 })) (h0 : v ≠ 0x00) (h1 : v ≠ 0x01) :
    parseNode s (d + 1) p = .error (.raised .fmtBadTag false) := by
  have h0' : (v != 0x00#8) = true := by simpa using h0
  have h1' : (v != 0x01#8) = true := by simpa using h1
  simp [parseNode, h, bind, Except.bind, tagLeaf, tagInternal, h0', h1']

/-! ### The bytes of a stream -/

theorem bytesAt_append (m : List Host.Cell) (a : Nat) : ∀ n k, bytesAt m a (n + k) = bytesAt m a n ++ bytesAt m (a + n) k := by
  intro n k
  simp only [bytesAt, List.range_add, List.map_append, List.map_map]
  congr 1
  apply List.map_congr_left
  intro j _
  simp [Nat.add_assoc]

@[simp] theorem bytesAt_length (m : List Host.Cell) (a n : Nat) : (bytesAt m a n).length = n := by simp [bytesAt]

/-- A window that begins with `l ++ l'` begins with `l`, and `l'` follows. -/
theorem bytesAt_split {m : List Host.Cell} {a n : Nat} {l l' : List Byte} (h : bytesAt m a n = l ++ l') :
    bytesAt m a l.length = l ∧ bytesAt m (a + l.length) l'.length = l' := by
  have hn : n = l.length + l'.length := by rw [← bytesAt_length m a n, h, List.length_append]
  rw [hn, bytesAt_append] at h
  exact List.append_inj h (by simp)

theorem bytesAt_cons {m : List Host.Cell} {a n : Nat} {v : Byte} {l : List Byte} (h : bytesAt m a n = v :: l) :
    memGet m a = v ∧ bytesAt m (a + 1) l.length = l := by
  have hn : n = l.length + 1 := by rw [← bytesAt_length m a n, h, List.length_cons]
  rw [hn, bytesAt_succ] at h
  exact ⟨(List.cons.inj h).1, (List.cons.inj h).2⟩

/-! ### A parse that succeeds -/

/-- Entries outside the tree's own are left alone. -/
def KeepsOutside (a b : Vector Node 511) (i n : Nat) : Prop :=
  ∀ k, k < 511 → k < i ∨ i + n ≤ k → nodeAt b (BitVec.ofNat 9 k) = nodeAt a (BitVec.ofNat 9 k)

theorem nodeAt_setNode_nat (a : Vector Node 511) {k j : Nat} (n : Node) (hk : k < 511) (hj : j < 511) :
    nodeAt (setNode a k n) (BitVec.ofNat 9 j) = if j = k then n else nodeAt a (BitVec.ofNat 9 j) := by
  rw [nodeAt_setNode a k n _ hk, ofNat9_toNat (by omega)]

theorem keepsOutside_set (a : Vector Node 511) {i : Nat} (n : Node) (hi : i < 511) : KeepsOutside a (setNode a i n) i 1 := by
  intro k hk h
  rw [nodeAt_setNode_nat _ _ hi hk, if_neg (by omega)]

/-- The arena of an internal node from those of its two subtrees. -/
theorem preorderAt_node {a b c : Vector Node 511} {i : Nat} {l r : CodeTree} (hs : i + (CodeTree.node l r).size ≤ 511)
    (hl : PreorderAt b (i + 1) l) (kl : KeepsOutside a b (i + 1) l.size)
    (hr : PreorderAt c (i + 1 + l.size) r) (kr : KeepsOutside b c (i + 1 + l.size) r.size) :
    let d := setNode c i (Node.internal (BitVec.ofNat 9 (i + 1)) (BitVec.ofNat 9 (i + 1 + l.size)) 0)
    PreorderAt d i (.node l r) ∧ KeepsOutside a d i (CodeTree.node l r).size := by
  simp only [CodeTree.size] at hs
  intro d
  have hd : ∀ k, k < 511 → k ≠ i → nodeAt d (BitVec.ofNat 9 k) = nodeAt c (BitVec.ofNat 9 k) := fun k hk hne => by
    show nodeAt (setNode c i _) _ = _
    rw [nodeAt_setNode_nat _ _ (by omega) hk, if_neg hne]
  refine ⟨⟨?_, ?_, ?_⟩, ?_⟩
  · show nodeAt (setNode c i _) _ = _
    rw [nodeAt_setNode_nat _ _ (by omega) (by omega), if_pos rfl]
  · refine preorderAt_congr (fun k h1 h2 => ?_) hl
    rw [hd k (by omega) (by omega), kr k (by omega) (by omega)]
  · refine preorderAt_congr (fun k h1 h2 => ?_) hr
    rw [hd k (by omega) (by omega)]
  · intro k hk h
    simp only [CodeTree.size] at h
    rw [hd k hk (by omega), kr k hk (by omega), kl k hk (by omega)]

/-- The stream of a tree that fits parses to that tree, in pre-order from the next free entry on (R168, R173). -/
theorem parseNode_stream (s : State) : ∀ (t : CodeTree) (d : Nat) (p : Parse), 512 ≤ d + p.cnt → p.cnt + t.size ≤ 511 →
    p.pos + t.stream.length ≤ s.srcLen.toNat →
    bytesAt s.mem (s.srcAddr.toNat + p.pos) t.stream.length = t.stream →
    (∀ k, p.pos ≤ k → k < p.pos + t.stream.length → busOk s.busHoles (s.srcAddr.toNat + k) .read = true) →
    ∃ a, parseNode s d p = .ok (p.cnt, { pos := p.pos + t.stream.length, cnt := p.cnt + t.size, arena := a }) ∧
      PreorderAt a p.cnt t ∧ KeepsOutside p.arena a p.cnt t.size
  | t, 0, p, hd, hs, _, _, _ => by have := t.size_pos; omega
  | .leaf x, d + 1, p, hd, hs, hpos, hb, hok => by
    simp only [CodeTree.size, CodeTree.stream, List.length_cons, List.length_nil] at hs hpos hok hb ⊢
    obtain ⟨b0, hb1⟩ := bytesAt_cons hb
    obtain ⟨b1, -⟩ := bytesAt_cons hb1
    have h0 := nextByte_ok (p := p) (by omega) (hok p.pos (by omega) (by omega))
    have h1 := nextByte_ok (s := s) (p := { p with pos := p.pos + 1, cnt := p.cnt + 1 }) (by simp only; omega)
      (hok (p.pos + 1) (by omega) (by omega))
    rw [b0] at h0
    simp only [← Nat.add_assoc, b1] at h1
    refine ⟨setNode p.arena p.cnt (Node.leaf x 0), ?_, ?_, keepsOutside_set _ _ (by omega)⟩
    · rw [parseNode_leaf h0 (by omega), h1]
      simp [Except.bind]
    · rw [PreorderAt, nodeAt_setNode_nat _ _ (by omega) (by omega), if_pos rfl]
  | .node l r, d + 1, p, hd, hs, hpos, hb, hok => by
    have hs' := hs
    simp only [CodeTree.size, CodeTree.stream, List.length_cons, List.length_append] at hs hpos hok hb ⊢
    obtain ⟨b0, hb1⟩ := bytesAt_cons hb
    obtain ⟨bl, br⟩ := bytesAt_split hb1
    have h0 := nextByte_ok (p := p) (by omega) (hok p.pos (by omega) (by omega))
    rw [b0] at h0
    have hlp := l.size_pos; have hrp := r.size_pos
    obtain ⟨a1, e1, q1, k1⟩ := parseNode_stream s l d { p with pos := p.pos + 1, cnt := p.cnt + 1 } (by simp only; omega)
      (by simp only; omega) (by simp only; omega) (by simpa only [← Nat.add_assoc] using bl)
      (fun k h1 h2 => hok k (by simp only at h1; omega) (by simp only at h2; omega))
    simp only at e1 q1 k1
    obtain ⟨a2, e2, q2, k2⟩ := parseNode_stream s r d
      { pos := p.pos + 1 + l.stream.length, cnt := p.cnt + 1 + l.size, arena := a1 } (by simp only; omega)
      (by simp only; omega) (by simp only; omega) (by simpa only [← Nat.add_assoc] using br)
      (fun k h1 h2 => hok k (by simp only at h1; omega) (by simp only at h2; omega))
    simp only at e2 q2 k2
    obtain ⟨h1, h2⟩ := preorderAt_node hs' q1 k1 q2 k2
    refine ⟨_, ?_, h1, h2⟩
    rw [parseNode_internal h0 (by omega), e1]
    simp only [Except.bind, e2]
    congr 3 <;> omega

/-! ### What a successful parse consumed -/

/-- A parse that succeeds has consumed the stream of the tree it built (R168, R173). -/
theorem parseNode_inv (s : State) : ∀ (d : Nat) (p q : Parse) (i : Nat), p.cnt ≤ 511 → parseNode s d p = .ok (i, q) →
    ∃ t : CodeTree, i = p.cnt ∧ q.cnt = p.cnt + t.size ∧ q.cnt ≤ 511 ∧ q.pos = p.pos + t.stream.length ∧
      q.pos ≤ s.srcLen.toNat ∧ bytesAt s.mem (s.srcAddr.toNat + p.pos) t.stream.length = t.stream ∧
      PreorderAt q.arena p.cnt t ∧ KeepsOutside p.arena q.arena p.cnt t.size
  | 0, p, q, i, hc, h => by simp [parseNode] at h
  | d + 1, p, q, i, hc, h => by
    rcases nextByte_cases s p with ⟨hlt, hn⟩ | hn | hn
    · by_cases h511 : p.cnt = 511
      · by_cases h0 : memGet s.mem (s.srcAddr.toNat + p.pos) = 0x00 ∨ memGet s.mem (s.srcAddr.toNat + p.pos) = 0x01
        · rw [parseNode_full hn h0 h511] at h; simp at h
        · rw [parseNode_badTag hn (fun e => h0 (.inl e)) (fun e => h0 (.inr e))] at h; simp at h
      by_cases h1 : memGet s.mem (s.srcAddr.toNat + p.pos) = 0x01
      · rw [h1] at hn
        rw [parseNode_leaf hn h511] at h
        rcases nextByte_cases s { p with pos := p.pos + 1, cnt := p.cnt + 1 } with ⟨hlt2, hn2⟩ | hn2 | hn2
        · rw [hn2] at h
          simp only [Except.bind, Except.ok.injEq, Prod.mk.injEq] at h
          obtain ⟨rfl, rfl⟩ := h
          simp only at hlt2
          refine ⟨.leaf (memGet s.mem (s.srcAddr.toNat + (p.pos + 1))), rfl, rfl, ?_, ?_, ?_, ?_, ?_, ?_⟩
          · simp only; omega
          · simp [CodeTree.stream]
          · simp only; omega
          · simp [CodeTree.stream, h1, bytesAt, List.range_succ, Nat.add_assoc]
          · rw [PreorderAt, nodeAt_setNode_nat _ _ (by omega) (by omega), if_pos rfl]
          · exact keepsOutside_set _ _ (by omega)
        · rw [hn2] at h; simp [Except.bind] at h
        · rw [hn2] at h; simp [Except.bind] at h
      by_cases h0 : memGet s.mem (s.srcAddr.toNat + p.pos) = 0x00
      · rw [h0] at hn
        rw [parseNode_internal hn h511] at h
        cases hl : parseNode s d { p with pos := p.pos + 1, cnt := p.cnt + 1 } with
        | error e => rw [hl] at h; simp [Except.bind] at h
        | ok v =>
          obtain ⟨il, ql⟩ := v
          rw [hl] at h
          simp only [Except.bind] at h
          obtain ⟨l, rfl, c1, c2, p1, p2, b1, q1, k1⟩ := parseNode_inv s d _ _ _ (by simp only; omega) hl
          simp only at c1 p1 b1 q1 k1 h
          cases hr : parseNode s d ql with
          | error e => rw [hr] at h; simp at h
          | ok v =>
            obtain ⟨ir, qr⟩ := v
            rw [hr] at h
            obtain ⟨r, rfl, c3, c4, p3, p4, b2, q2, k2⟩ := parseNode_inv s d _ _ _ c2 hr
            simp only [Except.ok.injEq, Prod.mk.injEq] at h
            obtain ⟨rfl, rfl⟩ := h
            rw [c1] at q2 k2
            have hsz : p.cnt + (CodeTree.node l r).size ≤ 511 := by simp only [CodeTree.size]; omega
            obtain ⟨h3, h4⟩ := preorderAt_node hsz q1 k1 q2 k2
            refine ⟨.node l r, rfl, ?_, c4, ?_, p4, ?_, ?_, ?_⟩
            · simp only [CodeTree.size]; omega
            · simp only [CodeTree.stream, List.length_cons, List.length_append]; omega
            · simp only [CodeTree.stream, List.length_cons, List.length_append]
              rw [bytesAt_succ, h0, bytesAt_append]
              rw [p1] at b2
              rw [Nat.add_assoc, b1]
              congr 2
              simpa only [Nat.add_assoc] using b2
            · rw [c1]; exact h3
            · rw [c1]; exact h4
      · rw [parseNode_badTag hn h0 h1] at h; simp at h
    · rw [parseNode_error hn] at h; simp at h
    · rw [parseNode_error hn] at h; simp at h

/-! ### The errors of a parse -/

/-- Everything a parse can raise: a format error, or BUS_ERROR by a read (R168, R171). -/
theorem parseNode_errors (s : State) : ∀ (d : Nat) (p : Parse) (e : Halt), parseNode s d p = .error e →
    e = .raised .fmtTruncated false ∨ e = .raised .fmtBadTag false ∨ e = .raised .fmtCapacity false ∨
      e = .raised .busError false
  | 0, p, e, h => by simp [parseNode] at h; exact .inr (.inr (.inl h.symm))
  | d + 1, p, e, h => by
    rcases nextByte_cases s p with ⟨hlt, hn⟩ | hn | hn
    · by_cases h0 : memGet s.mem (s.srcAddr.toNat + p.pos) = 0x00 ∨ memGet s.mem (s.srcAddr.toNat + p.pos) = 0x01
      · by_cases h511 : p.cnt = 511
        · rw [parseNode_full hn h0 h511] at h; simp at h; simp [← h]
        rcases h0 with h0 | h0
        · rw [h0] at hn
          rw [parseNode_internal hn h511] at h
          cases hl : parseNode s d { p with pos := p.pos + 1, cnt := p.cnt + 1 } with
          | error e' =>
            rw [hl] at h
            simp only [Except.bind, Except.error.injEq] at h
            exact h ▸ parseNode_errors s d _ _ hl
          | ok v =>
            rw [hl] at h
            simp only [Except.bind] at h
            cases hr : parseNode s d v.2 with
            | error e' =>
              rw [hr] at h
              simp only [Except.error.injEq] at h
              exact h ▸ parseNode_errors s d _ _ hr
            | ok w => rw [hr] at h; simp at h
        · rw [h0] at hn
          rw [parseNode_leaf hn h511] at h
          rcases nextByte_cases s { p with pos := p.pos + 1, cnt := p.cnt + 1 } with ⟨_, hn2⟩ | hn2 | hn2 <;>
            rw [hn2] at h <;> simp [Except.bind] at h <;> simp [← h]
      · rw [parseNode_badTag hn (fun e => h0 (.inl e)) (fun e => h0 (.inr e))] at h
        simp at h; simp [← h]
    · rw [parseNode_error hn] at h; simp at h; simp [← h]
    · rw [parseNode_error hn] at h; simp at h; simp [← h]

/-! ### A parse that does not end (R168, R171) -/

theorem itemBytes_append (a b : List StreamItem) : itemBytes (a ++ b) = itemBytes a ++ itemBytes b := List.flatMap_append

end Sys2Proof.Machine

namespace Sys2Proof

/-- The items of a tree's stream, in pre-order. -/
def CodeTree.items : CodeTree → List StreamItem
  | .leaf sym => [.leaf sym]
  | .node l r => .internal :: (l.items ++ r.items)

theorem CodeTree.items_bytes (t : CodeTree) : itemBytes t.items = t.stream := by
  induction t with
  | leaf x => rfl
  | node l r ihl ihr =>
    show StreamItem.internal.bytes ++ itemBytes (l.items ++ r.items) = _
    rw [Machine.itemBytes_append, ihl, ihr]; rfl

theorem CodeTree.items_length (t : CodeTree) : t.items.length = t.size := by
  induction t with
  | leaf x => rfl
  | node l r ihl ihr => simp only [CodeTree.items, CodeTree.size, List.length_cons, List.length_append]; omega

/-- A whole tree finishes one subtree. -/
theorem CodeTree.leavesOpen_items (t : CodeTree) : ∀ (n : Nat) (rest : List StreamItem),
    leavesOpen (n + 1) (t.items ++ rest) = leavesOpen n rest := by
  induction t with
  | leaf x => intro n rest; rfl
  | node l r ihl ihr =>
    intro n rest
    show leavesOpen (n + 2) (l.items ++ r.items ++ rest) = _
    rw [List.append_assoc, ihl, ihr]

theorem leavesOpen_succ : ∀ (items : List StreamItem) (n : Nat), leavesOpen n items = true → leavesOpen (n + 1) items = true
  | [], _, _ => rfl
  | _ :: _, 0, h => by simp [leavesOpen] at h
  | .leaf _ :: rest, n + 1, h => leavesOpen_succ rest n h
  | .internal :: rest, n + 1, h => leavesOpen_succ rest (n + 2) h

/-- Items that leave a subtree open either leave the first one open, or finish it and leave one of the others open. -/
theorem leavesOpen_cases : ∀ (k : Nat) (items : List StreamItem), items.length ≤ k → ∀ n, leavesOpen (n + 1) items = true →
    leavesOpen 1 items = true ∨ ∃ t rest, items = CodeTree.items t ++ rest ∧ leavesOpen n rest = true
  | _, [], _, _, _ => .inl rfl
  | _, .leaf x :: rest, _, _, h => .inr ⟨.leaf x, rest, rfl, h⟩
  | 0, .internal :: rest, hk, _, _ => by simp at hk
  | k + 1, .internal :: rest, hk, n, h => by
    simp only [List.length_cons, Nat.add_le_add_iff_right] at hk
    rcases leavesOpen_cases k rest hk (n + 1) h with h1 | ⟨l, rest, rfl, h1⟩
    · exact .inl (show leavesOpen 2 rest = true from leavesOpen_succ rest 1 h1)
    · have hk' : rest.length ≤ k := by simp only [List.length_append] at hk; omega
      rcases leavesOpen_cases k rest hk' n h1 with h2 | ⟨r, rest, rfl, h2⟩
      · exact .inl (by show leavesOpen 2 _ = true; rw [l.leavesOpen_items]; exact h2)
      · exact .inr ⟨.node l r, rest, by simp [CodeTree.items], h2⟩

end Sys2Proof

namespace Sys2Proof.Machine

/-- A parse whose stream goes on after the given items fails as its next node does (R168, R171). -/
theorem parseNode_fails (s : State) (e : Halt) : ∀ (d : Nat) (p : Parse) (items : List StreamItem), 512 ≤ d + p.cnt →
    p.cnt + items.length ≤ 511 → leavesOpen 1 items = true → p.pos + (itemBytes items).length ≤ s.srcLen.toNat →
    bytesAt s.mem (s.srcAddr.toNat + p.pos) (itemBytes items).length = itemBytes items →
    (∀ k, p.pos ≤ k → k < p.pos + (itemBytes items).length → busOk s.busHoles (s.srcAddr.toNat + k) .read = true) →
    (∀ d' q, q.pos = p.pos + (itemBytes items).length → q.cnt = p.cnt + items.length → parseNode s (d' + 1) q = .error e) →
    parseNode s d p = .error e
  | 0, p, items, hd, hc, _, _, _, _, _ => by omega
  | d + 1, p, [], _, _, _, _, _, _, hf => hf d p rfl rfl
  | d + 1, p, .leaf x :: rest, _, _, ho, _, _, _, _ => by cases rest <;> simp [leavesOpen] at ho
  | d + 1, p, .internal :: rest, hd, hc, ho, hpos, hb, hok, hf => by
    have hbytes : itemBytes (.internal :: rest) = 0x00 :: itemBytes rest := rfl
    rw [hbytes] at hpos hb hok hf
    simp only [List.length_cons] at hpos hok hc hf
    obtain ⟨b0, hb1⟩ := bytesAt_cons hb
    have h0 := nextByte_ok (p := p) (by omega) (hok p.pos (by omega) (by omega))
    rw [b0] at h0
    rw [parseNode_internal h0 (by omega)]
    rcases leavesOpen_cases _ rest (Nat.le_refl _) 1 ho with ho' | ⟨l, rest, rfl, ho'⟩
    · have := parseNode_fails s e d { p with pos := p.pos + 1, cnt := p.cnt + 1 } rest (by simp only; omega)
        (by simp only; omega) ho' (by simp only; omega) (by simpa only [← Nat.add_assoc] using hb1)
        (fun k h1 h2 => hok k (by simp only at h1; omega) (by simp only at h2; omega))
        (fun d' q h1 h2 => hf d' q (by simp only at h1; omega) (by simp only at h2; omega))
      rw [this]; rfl
    · rw [itemBytes_append, l.items_bytes] at hb1 hpos hok hf
      simp only [List.length_append, l.items_length] at hb1 hpos hok hf hc
      obtain ⟨bl, br⟩ := bytesAt_split hb1
      obtain ⟨a, ea, -, -⟩ := parseNode_stream s l d { p with pos := p.pos + 1, cnt := p.cnt + 1 } (by simp only; omega)
        (by simp only; omega) (by simp only; omega) (by simpa only [← Nat.add_assoc] using bl)
        (fun k h1 h2 => hok k (by simp only at h1; omega) (by simp only at h2; omega))
      simp only at ea
      have hl := l.size_pos
      have := parseNode_fails s e d { pos := p.pos + 1 + l.stream.length, cnt := p.cnt + 1 + l.size, arena := a } rest
        (by simp only; omega) (by simp only; omega) ho' (by simp only; omega) (by simpa only [← Nat.add_assoc] using br)
        (fun k h1 h2 => hok k (by simp only at h1; omega) (by simp only at h2; omega))
        (fun d' q h1 h2 => hf d' q (by simp only at h1; omega) (by simp only at h2; omega))
      rw [ea]
      simp only [Except.bind, this]

/-- The whole parse fails as the first node after the given items does. -/
theorem runDeserialize_fails {s : State} {items : List StreamItem} (h : StreamBegins s items) (hl : 0 < s.srcLen.toNat)
    {e : Halt} (hf : ∀ d q, q.pos = (itemBytes items).length → q.cnt = items.length → parseNode s (d + 1) q = .error e) :
    runDeserialize s = .error e := by
  obtain ⟨ho, hc, hlen, hb, hok⟩ := h
  have := parseNode_fails s e Config.parseDepth { pos := 0, cnt := 0, arena := blankArena } items
    (by simp [Config.parseDepth]) (by simpa using hc) ho (by simpa using hlen) (by simpa using hb)
    (fun k _ hk => hok k (by simpa using hk)) (fun d q h1 h2 => hf d q (by simpa using h1) (by simpa using h2))
  have hne : ¬s.srcLen.toNat = 0 := by omega
  simp [runDeserialize, hne, this, bind, Except.bind]

end Sys2Proof.Machine
end

