-- ==== Sys2Proof/Laws/PerInstr.lean ====
section
/-! SUPPORT. One statement per command about its word (30_encoding.md R80, R81). -/

namespace Sys2Proof.Laws.CommandWord

/-- The command's word is well formed, its RSVD field is 0, its OPCODE field is the command's opcode, and no other command
has this opcode. -/
def Statement (i : Instr) : Prop :=
  i.wellFormed = true ∧ wordWellFormed (encode i) = true ∧ rsvdField (encode i) = 0 ∧
    opcodeField (encode i) = i.opcode ∧ decodeOpcode i.opcode = some i

theorem build : Statement .build := by unfold Statement; decide
theorem gencodes : Statement .gencodes := by unfold Statement; decide
theorem serialize : Statement .serialize := by unfold Statement; decide
theorem deserialize : Statement .deserialize := by unfold Statement; decide
theorem encode : Statement .encode := by unfold Statement; decide
theorem decode : Statement .decode := by unfold Statement; decide
theorem softReset : Statement .softReset := by unfold Statement; decide

end Sys2Proof.Laws.CommandWord
end

