-- ==== Sys2Proof/Laws/Runs.lean ====
section
/-! SUPPORT. Everything the run of each command can do, one lemma per command. -/

namespace Sys2Proof.Machine

/-! ### Windows -/

theorem inRange_iff (base len : Word) :
    Window.inRange { base := base.toNat, len := len.toNat } = true ↔ base.toNat + len.toNat ≤ 2 ^ 32 := by
  have h := base.isLt
  unfold Window.inRange Config.dmaSize
  simp only [Bool.or_eq_true, beq_iff_eq, decide_eq_true_eq]
  omega

theorem srcInRange_iff (s : State) : (srcWindow s).inRange = true ↔ s.srcAddr.toNat + s.srcLen.toNat ≤ 2 ^ 32 := inRange_iff _ _

theorem dstInRange_iff (s : State) : (dstWindow s).inRange = true ↔ s.dstAddr.toNat + s.dstCap.toNat ≤ 2 ^ 32 := inRange_iff _ _

theorem window_overlaps_iff (a b : Window) :
    a.overlaps b = true ↔ 0 < a.len ∧ 0 < b.len ∧ a.base < b.base + b.len ∧ b.base < a.base + a.len := by
  simp [Window.overlaps, and_assoc]

theorem overlaps_iff (s : State) :
    (srcWindow s).overlaps (dstWindow s) = true ↔
      0 < s.srcLen.toNat ∧ 0 < s.dstCap.toNat ∧ s.srcAddr.toNat < s.dstAddr.toNat + s.dstCap.toNat ∧
        s.dstAddr.toNat < s.srcAddr.toNat + s.srcLen.toNat := by
  exact window_overlaps_iff (srcWindow s) (dstWindow s)

/-- The prechecks of SERIALIZE all pass. -/
theorem serialize_prechecks {s : State} (ht : s.treeState ≠ .none) (hd : s.dstAddr.toNat + s.dstCap.toNat ≤ 2 ^ 32) :
    firstFailing (prechecks .serialize s) = none := by
  have h1 := (dstInRange_iff s).2 hd
  have h2 : (s.treeState == TreeState.none) = false := by simpa using ht
  simp [prechecks, firstFailing, h1, h2]

theorem deserialize_prechecks {s : State} (hs : s.srcAddr.toNat + s.srcLen.toNat ≤ 2 ^ 32) :
    firstFailing (prechecks .deserialize s) = none := by
  simp [prechecks, firstFailing, (srcInRange_iff s).2 hs]

theorem encode_prechecks {s : State} (hc : s.ctValid = true) (hs : s.srcAddr.toNat + s.srcLen.toNat ≤ 2 ^ 32)
    (hd : s.dstAddr.toNat + s.dstCap.toNat ≤ 2 ^ 32)
    (ho : ¬(0 < s.srcLen.toNat ∧ 0 < s.dstCap.toNat ∧ s.srcAddr.toNat < s.dstAddr.toNat + s.dstCap.toNat ∧
      s.dstAddr.toNat < s.srcAddr.toNat + s.srcLen.toNat)) : firstFailing (prechecks .encode s) = none := by
  have h : (srcWindow s).overlaps (dstWindow s) = false := by
    rw [Bool.eq_false_iff]; exact fun h => ho ((overlaps_iff s).1 h)
  simp [prechecks, firstFailing, hc, (srcInRange_iff s).2 hs, (dstInRange_iff s).2 hd, h]

theorem decode_prechecks {s : State} (ht : s.treeState = .valid ∨ s.treeState = .empty ∧ s.symCount.toNat = 0)
    (hs : s.srcAddr.toNat + s.srcLen.toNat ≤ 2 ^ 32) (hd : s.dstAddr.toNat + s.dstCap.toNat ≤ 2 ^ 32)
    (ho : ¬(0 < s.srcLen.toNat ∧ 0 < s.dstCap.toNat ∧ s.srcAddr.toNat < s.dstAddr.toNat + s.dstCap.toNat ∧
      s.dstAddr.toNat < s.srcAddr.toNat + s.srcLen.toNat)) (hc : s.symCount.toNat ≤ s.dstCap.toNat) :
    firstFailing (prechecks .decode s) = none := by
  have h : (srcWindow s).overlaps (dstWindow s) = false := by
    rw [Bool.eq_false_iff]; exact fun h => ho ((overlaps_iff s).1 h)
  have hc' : ¬s.dstCap.toNat < s.symCount.toNat := by omega
  rcases ht with ht | ⟨ht, h0⟩
  · simp [prechecks, firstFailing, ht, (srcInRange_iff s).2 hs, (dstInRange_iff s).2 hd, h, hc']
  · simp [prechecks, firstFailing, ht, h0, (srcInRange_iff s).2 hs, (dstInRange_iff s).2 hd, h]

/-- Prechecks that all pass say that the windows are in range and apart (R104). -/
theorem serialize_ready {s : State} (h : firstFailing (prechecks .serialize s) = none) :
    s.treeState ≠ .none ∧ s.dstAddr.toNat + s.dstCap.toNat ≤ 2 ^ 32 := by
  rw [← dstInRange_iff]
  simp only [prechecks, firstFailing] at h
  split_ifs at h
  simp_all

theorem deserialize_ready {s : State} (h : firstFailing (prechecks .deserialize s) = none) :
    s.srcAddr.toNat + s.srcLen.toNat ≤ 2 ^ 32 := by
  rw [← srcInRange_iff]
  simp only [prechecks, firstFailing] at h
  split_ifs at h
  simp_all

theorem encode_ready {s : State} (h : firstFailing (prechecks .encode s) = none) :
    s.ctValid = true ∧ s.srcAddr.toNat + s.srcLen.toNat ≤ 2 ^ 32 ∧ s.dstAddr.toNat + s.dstCap.toNat ≤ 2 ^ 32 ∧
      ¬(0 < s.srcLen.toNat ∧ 0 < s.dstCap.toNat ∧ s.srcAddr.toNat < s.dstAddr.toNat + s.dstCap.toNat ∧
        s.dstAddr.toNat < s.srcAddr.toNat + s.srcLen.toNat) := by
  rw [← srcInRange_iff, ← dstInRange_iff, ← overlaps_iff]
  simp only [prechecks, firstFailing] at h
  split_ifs at h
  simp_all

theorem decode_ready {s : State} (h : firstFailing (prechecks .decode s) = none) :
    (s.treeState = .valid ∨ s.treeState = .empty ∧ s.symCount.toNat = 0) ∧
      s.srcAddr.toNat + s.srcLen.toNat ≤ 2 ^ 32 ∧ s.dstAddr.toNat + s.dstCap.toNat ≤ 2 ^ 32 ∧
      ¬(0 < s.srcLen.toNat ∧ 0 < s.dstCap.toNat ∧ s.srcAddr.toNat < s.dstAddr.toNat + s.dstCap.toNat ∧
        s.dstAddr.toNat < s.srcAddr.toNat + s.srcLen.toNat) ∧ s.symCount.toNat ≤ s.dstCap.toNat := by
  rw [← srcInRange_iff, ← dstInRange_iff, ← overlaps_iff]
  simp only [prechecks, firstFailing] at h
  split_ifs at h with h1 h2 h3 h4 h5 h6
  simp only [beq_iff_eq, Bool.and_eq_true, decide_eq_true_eq, Bool.not_eq_true', Bool.not_eq_false] at *
  refine ⟨?_, h3, h4, h5, by omega⟩
  cases ht : s.treeState with
  | none => exact absurd ht h1
  | valid => exact .inl rfl
  | empty => exact .inr ⟨rfl, by by_contra hc; exact h2 ⟨ht, by omega⟩⟩

/-! ### The runs -/

/-- A successful completion is `okState`. -/
theorem completeOk_eq (r : Results) (s : State) : completeOk r s = okState r.outLen r.inUsed r.pad s := rfl

/-- Everything BUILD's run can do (41 R122). -/
theorem runBuild_cases (s : State) :
    ((alphabet s.freq).length = 0 ∧
      runBuild s = .ok ({ s with code := noCodes, ctValid := false, treeState := .empty, nodeCount := 0, root := 0,
                                  arena := blankArena }, Results.zero)) ∨
      (0 < (alphabet s.freq).length ∧
        runBuild s = .ok ({ s with code := noCodes, ctValid := false, treeState := .valid,
                                    nodeCount := BitVec.ofNat 9 (growTree s.freq).next,
                                    root := BitVec.ofNat 9 ((growTree s.freq).next - 1),
                                    arena := (growTree s.freq).arena }, Results.zero)) := by
  unfold runBuild
  by_cases h : (alphabet s.freq).length = 0
  · exact .inl ⟨h, if_pos h⟩
  · exact .inr ⟨by omega, if_neg h⟩

/-- Everything GENCODES' run can do (42 R141). -/
theorem runGencodes_cases (s : State) :
    (∃ code, deriveCodes s.treeState s.root s.arena = some code ∧
      runGencodes s = .ok ({ s with code := code, ctValid := true }, Results.zero)) ∨
      (deriveCodes s.treeState s.root s.arena = none ∧ runGencodes s = .error (.stuck .arenaWalkEndless)) := by
  unfold runGencodes
  cases h : deriveCodes s.treeState s.root s.arena with
  | none => exact .inr ⟨rfl, rfl⟩
  | some c => exact .inl ⟨c, rfl, rfl⟩

/-- What SERIALIZE has to write: the stream of the held tree, or nothing (43 R161, R162). -/
theorem streamOut_eq (s : State) :
    streamOut s = if s.treeState = .valid then (heldTree s).map CodeTree.stream else some [] := by
  unfold streamOut
  cases s.treeState with
  | valid => simp [emit_eq_stream, heldTree]
  | _ => simp

/-- Everything SERIALIZE's run can do (43 R161). -/
theorem runSerialize_cases (s : State) :
    (streamOut s = none ∧ runSerialize s = .error (.stuck .arenaWalkEndless)) ∨
    ∃ out, streamOut s = some out ∧
      ((s.dstCap.toNat < out.length ∧ runSerialize s = .error (.raised .dstOverflow false)) ∨
        (out.length ≤ s.dstCap.toNat ∧ WritesOk s s.dstAddr.toNat out.length ∧
          ∃ m, dmaWriteList s.busHoles s.mem s.dstAddr.toNat out = .ok m ∧
            SameOutside s.mem m s.dstAddr.toNat out.length ∧
            (memWf s.mem = true → s.dstAddr.toNat + out.length ≤ Config.dmaSize →
              memWf m = true ∧ bytesAt m s.dstAddr.toNat out.length = out) ∧
            runSerialize s =
              .ok ({ s with mem := m }, { outLen := BitVec.ofNat 32 out.length, inUsed := 0, pad := 0 })) ∨
        (out.length ≤ s.dstCap.toNat ∧ ¬WritesOk s s.dstAddr.toNat out.length ∧
          runSerialize s = .error (.raised .busError true))) := by
  cases h : streamOut s with
  | none => exact .inl ⟨rfl, by simp [runSerialize, h]⟩
  | some out =>
    refine .inr ⟨out, rfl, ?_⟩
    by_cases hc : s.dstCap.toNat < out.length
    · exact .inl ⟨hc, by simp [runSerialize, h, hc]⟩
    · refine .inr ?_
      rcases dmaWriteList_cases s.busHoles out s.mem s.dstAddr.toNat with ⟨hk, m, hm, hout, hin⟩ | ⟨⟨k, hk, hkb⟩, hm⟩
      · exact .inl ⟨by omega, hk, m, hm, hout, hin, by simp [runSerialize, h, hc, hm, bind, Except.bind]⟩
      · exact .inr ⟨by omega, fun hw => by rw [hw k hk] at hkb; simp at hkb,
          by simp [runSerialize, h, hc, hm, bind, Except.bind]⟩

/-- Everything DESERIALIZE's run can do (43 R168). -/
theorem runDeserialize_cases (s : State) :
    (s.srcLen.toNat = 0 ∧
      runDeserialize s = .ok ({ s with code := noCodes, ctValid := false, treeState := .empty, nodeCount := 0, root := 0,
                                        arena := blankArena }, Results.zero)) ∨
    (0 < s.srcLen.toNat ∧ ∃ (tree : CodeTree) (a : Vector Node 511),
      parseNode s Config.parseDepth { pos := 0, cnt := 0, arena := blankArena } =
        .ok (0, { pos := tree.stream.length, cnt := tree.size, arena := a }) ∧
      tree.size ≤ 511 ∧ tree.stream.length ≤ s.srcLen.toNat ∧
      bytesAt s.mem s.srcAddr.toNat tree.stream.length = tree.stream ∧ PreorderAt a 0 tree ∧
      runDeserialize s =
        .ok ({ s with code := noCodes, ctValid := false, treeState := .valid, nodeCount := BitVec.ofNat 9 tree.size,
                      root := 0, arena := a },
          { outLen := 0, inUsed := BitVec.ofNat 32 tree.stream.length, pad := 0 })) ∨
    (0 < s.srcLen.toNat ∧ ∃ c, (c = .fmtTruncated ∨ c = .fmtBadTag ∨ c = .fmtCapacity ∨ c = .busError) ∧
      parseNode s Config.parseDepth { pos := 0, cnt := 0, arena := blankArena } = .error (.raised c false) ∧
      runDeserialize s = .error (.raised c false)) := by
  by_cases h0 : s.srcLen.toNat = 0
  · exact .inl ⟨h0, by simp [runDeserialize, h0]⟩
  · refine .inr ?_
    cases hp : parseNode s Config.parseDepth { pos := 0, cnt := 0, arena := blankArena } with
    | error e =>
      refine .inr ⟨by omega, ?_⟩
      have hr : runDeserialize s = .error e := by simp [runDeserialize, h0, hp, bind, Except.bind]
      rcases parseNode_errors s _ _ _ hp with rfl | rfl | rfl | rfl <;> exact ⟨_, by simp, rfl, hr⟩
    | ok v =>
      obtain ⟨i, q⟩ := v
      obtain ⟨tree, rfl, h1, h2, h3, h4, h5, h6, -⟩ := parseNode_inv s _ _ _ _ (by simp) hp
      simp only [Nat.zero_add, Nat.add_zero] at h1 h3 h5 h6
      refine .inl ⟨by omega, tree, q.arena, ?_, by omega, by omega, h5, h6, ?_⟩
      · rw [← h1, ← h3]
      · simp [runDeserialize, h0, hp, bind, Except.bind, h1, h3]

/-- Everything ENCODE's run can do (44 R191, R192). -/
theorem runEncode_cases (s : State) :
    (¬ReadsOk s s.srcAddr.toNat s.srcLen.toNat ∧ runEncode s = .error (.raised .busError false)) ∨
    (ReadsOk s s.srcAddr.toNat s.srcLen.toNat ∧
      ((codeStream s.code (bytesAt s.mem s.srcAddr.toNat s.srcLen.toNat) = none ∧
          runEncode s = .error (.raised .internalInvariant false)) ∨
        ∃ b, codeStream s.code (bytesAt s.mem s.srcAddr.toNat s.srcLen.toNat) = some b ∧
          ((s.dstCap.toNat < (b.length + 7) / 8 ∧ runEncode s = .error (.raised .dstOverflow false)) ∨
            ((b.length + 7) / 8 ≤ s.dstCap.toNat ∧ WritesOk s s.dstAddr.toNat ((b.length + 7) / 8) ∧
              ∃ m, SameOutside s.mem m s.dstAddr.toNat ((b.length + 7) / 8) ∧
                (memWf s.mem = true → s.dstAddr.toNat + (b.length + 7) / 8 ≤ Config.dmaSize →
                  memWf m = true ∧ bytesAt m s.dstAddr.toNat ((b.length + 7) / 8) = pack b) ∧
                runEncode s = .ok ({ s with mem := m },
                  { outLen := BitVec.ofNat 32 ((b.length + 7) / 8), inUsed := s.srcLen,
                    pad := BitVec.ofNat 3 (8 * ((b.length + 7) / 8) - b.length) })) ∨
            ((b.length + 7) / 8 ≤ s.dstCap.toNat ∧ ¬WritesOk s s.dstAddr.toNat ((b.length + 7) / 8) ∧
              runEncode s = .error (.raised .busError true))))) := by
  rcases dmaReadRange_cases s.busHoles s.mem s.srcLen.toNat s.srcAddr.toNat with ⟨hk, hr⟩ | ⟨⟨k, hk, hkb⟩, hr⟩
  · refine .inr ⟨hk, ?_⟩
    cases hc : codeStream s.code (bytesAt s.mem s.srcAddr.toNat s.srcLen.toNat) with
    | none => exact .inl ⟨rfl, by simp [runEncode, hr, hc, bind, Except.bind]⟩
    | some b =>
      refine .inr ⟨b, rfl, ?_⟩
      by_cases hd : s.dstCap.toNat < (b.length + 7) / 8
      · exact .inl ⟨hd, by simp [runEncode, hr, hc, pack_length, hd, bind, Except.bind]⟩
      · refine .inr ?_
        rcases dmaWriteList_cases s.busHoles (pack b) s.mem s.dstAddr.toNat with ⟨hw, m, hm, hout, hin⟩ | ⟨⟨k, hk', hkb⟩, hm⟩
        · rw [pack_length] at hw hout hin
          exact .inl ⟨by omega, hw, m, hout, hin, by simp [runEncode, hr, hc, pack_length, hd, hm, bind, Except.bind]⟩
        · rw [pack_length] at hk'
          exact .inr ⟨by omega, fun hw => by rw [hw k hk'] at hkb; simp at hkb,
            by simp [runEncode, hr, hc, pack_length, hd, hm, bind, Except.bind]⟩
  · exact .inl ⟨fun hw => by rw [hw k hk] at hkb; simp at hkb, by simp [runEncode, hr, bind, Except.bind]⟩

/-- Everything DECODE's run can do (45 R210, R213). -/
theorem runDecode_cases (s : State) :
    (∃ c, decodeLoop s (8 * s.srcLen.toNat) { bitpos := 0, written := 0, cur := s.root, byte := 0, mem := s.mem } = .ok c ∧
      c.bitpos ≤ 8 * s.srcLen.toNat ∧ SameOutside s.mem c.mem s.dstAddr.toNat s.symCount.toNat ∧
      (memWf s.mem = true → s.dstAddr.toNat + s.symCount.toNat ≤ Config.dmaSize → memWf c.mem = true) ∧
      runDecode s = .ok ({ s with mem := c.mem },
        { outLen := s.symCount, inUsed := BitVec.ofNat 32 ((c.bitpos + 7) / 8),
          pad := BitVec.ofNat 3 (8 * ((c.bitpos + 7) / 8) - c.bitpos) })) ∨
    ∃ c w, (c = .payloadUnderrun ∨ c = .busError) ∧
      decodeLoop s (8 * s.srcLen.toNat) { bitpos := 0, written := 0, cur := s.root, byte := 0, mem := s.mem } =
        .error (.raised c w) ∧
      runDecode s = .error (.raised c w) := by
  rcases decodeLoop_cases s (8 * s.srcLen.toNat) { bitpos := 0, written := 0, cur := s.root, byte := 0, mem := s.mem }
    (Nat.zero_le _) with ⟨c, h1, h2, h3, h4, h5, h6⟩ | ⟨w, h⟩ | ⟨w, h⟩
  · refine .inl ⟨c, h1, by simpa using h4, h5, h6, ?_⟩
    simp only [runDecode, h1, bind, Except.bind, ceilDiv_eq]
  · exact .inr ⟨_, w, .inl rfl, h, by simp only [runDecode, h, bind, Except.bind]⟩
  · exact .inr ⟨_, w, .inr rfl, h, by simp only [runDecode, h, bind, Except.bind]⟩

/-- SOFT_RESET's run always completes (46 R230). -/
theorem runSoftReset_eq (s : State) :
    runSoftReset s = .ok (blockReset s, Results.zero) := rfl

/-- SOFT_RESET completes in every state, under FATAL too (46 R230). -/
theorem execSoftReset_eq (s : State) :
    exec .softReset s =
      .next (okState 0 0 0 (blockReset s)) := by
  show runCommand .softReset runSoftReset s = _
  simp [runCommand, prechecks, firstFailing, runSoftReset_eq, finish, completeOk_eq, Results.zero]

/-! ### What runs leave alone, and what they raise -/

/-- What the run of a command leaves alone when it succeeds, field by field. -/
theorem run_ok_frame {i : Instr} {s s' : State} {r : Results} (h : runOf i s = .ok (s', r)) :
    s'.busHoles = s.busHoles ∧ s'.inputs = s.inputs ∧ s'.reply = s.reply ∧ s'.doneSeen = s.doneSeen ∧ s'.inReset = s.inReset ∧
    (i ≠ .softReset → s'.ie = s.ie ∧ s'.srcAddr = s.srcAddr ∧ s'.srcLen = s.srcLen ∧ s'.dstAddr = s.dstAddr ∧
        s'.dstCap = s.dstCap ∧ s'.symCount = s.symCount ∧ s'.freq = s.freq ∧ s'.wign = s.wign ∧ s'.fatal = s.fatal) ∧
    (i = .build ∨ i = .gencodes ∨ i = .deserialize ∨ i = .softReset → s'.mem = s.mem) ∧
    (i = .serialize ∨ i = .encode ∨ i = .decode ∨ i = .gencodes →
      s'.treeState = s.treeState ∧ s'.root = s.root ∧ s'.nodeCount = s.nodeCount ∧ s'.arena = s.arena) ∧
    (i = .serialize ∨ i = .encode ∨ i = .decode → s'.code = s.code ∧ s'.ctValid = s.ctValid) ∧
    (i = .softReset → s' = blockReset s) := by
  cases i
  · rcases runBuild_cases s with ⟨_, h'⟩ | ⟨_, h'⟩ <;>
      rw [show runOf .build s = _ from h'] at h <;> cases h <;> simp
  · rcases runGencodes_cases s with ⟨_, _, h'⟩ | ⟨_, h'⟩ <;>
      rw [show runOf .gencodes s = _ from h'] at h <;> cases h <;> simp
  · rcases runSerialize_cases s with ⟨_, h'⟩ | ⟨_, _, ⟨_, h'⟩ | ⟨_, _, _, _, _, _, h'⟩ | ⟨_, _, h'⟩⟩ <;>
      rw [show runOf .serialize s = _ from h'] at h <;> cases h <;> simp
  · rcases runDeserialize_cases s with ⟨_, h'⟩ | ⟨_, _, _, _, _, _, _, _, h'⟩ | ⟨_, _, _, _, h'⟩ <;>
      rw [show runOf .deserialize s = _ from h'] at h <;> cases h <;> simp
  · rcases runEncode_cases s with ⟨_, h'⟩ | ⟨_, ⟨_, h'⟩ | ⟨_, _, ⟨_, h'⟩ | ⟨_, _, _, _, _, h'⟩ | ⟨_, _, h'⟩⟩⟩ <;>
      rw [show runOf .encode s = _ from h'] at h <;> cases h <;> simp
  · rcases runDecode_cases s with ⟨_, _, _, _, _, h'⟩ | ⟨_, _, _, _, h'⟩ <;>
      rw [show runOf .decode s = _ from h'] at h <;> cases h <;> simp
  · rw [show runOf .softReset s = _ from runSoftReset_eq s] at h; cases h; simp [blockReset]

/-- Everything the run of a command can raise (40 R104, R108, 60 R240); `w` says that a MemWrite raised it. -/
theorem run_error {i : Instr} {s : State} {c : ErrCode} {w : Bool} (h : runOf i s = .error (.raised c w)) :
    (i = .serialize ∧ (c = .dstOverflow ∧ w = false ∨ c = .busError ∧ w = true)) ∨
      (i = .deserialize ∧ w = false ∧ (c = .fmtTruncated ∨ c = .fmtBadTag ∨ c = .fmtCapacity ∨ c = .busError)) ∨
      (i = .encode ∧ ((c = .internalInvariant ∨ c = .dstOverflow) ∧ w = false ∨ c = .busError)) ∨
      (i = .decode ∧ (c = .payloadUnderrun ∨ c = .busError)) := by
  cases i
  · rcases runBuild_cases s with ⟨_, h'⟩ | ⟨_, h'⟩ <;> rw [show runOf .build s = _ from h'] at h <;> cases h
  · rcases runGencodes_cases s with ⟨_, _, h'⟩ | ⟨_, h'⟩ <;> rw [show runOf .gencodes s = _ from h'] at h <;> cases h
  · rcases runSerialize_cases s with ⟨_, h'⟩ | ⟨_, _, ⟨_, h'⟩ | ⟨_, _, _, _, _, _, h'⟩ | ⟨_, _, h'⟩⟩ <;>
      rw [show runOf .serialize s = _ from h'] at h <;> cases h <;> simp
  · rcases runDeserialize_cases s with ⟨_, h'⟩ | ⟨_, _, _, _, _, _, _, _, h'⟩ | ⟨_, _, hc, _, h'⟩ <;>
      rw [show runOf .deserialize s = _ from h'] at h <;> cases h
    exact .inr (.inl ⟨rfl, rfl, hc⟩)
  · rcases runEncode_cases s with ⟨_, h'⟩ | ⟨_, ⟨_, h'⟩ | ⟨_, _, ⟨_, h'⟩ | ⟨_, _, _, _, _, h'⟩ | ⟨_, _, h'⟩⟩⟩ <;>
      rw [show runOf .encode s = _ from h'] at h <;> cases h <;> simp
  · rcases runDecode_cases s with ⟨_, _, _, _, _, h'⟩ | ⟨_, _, hc, _, h'⟩ <;>
      rw [show runOf .decode s = _ from h'] at h <;> cases h
    exact .inr (.inr (.inr ⟨rfl, hc⟩))
  · rw [show runOf .softReset s = _ from runSoftReset_eq s] at h; cases h

/-! ### A command whose checks all pass is its run -/

theorem execGencodes_code {s : State} {code : Vector (Option Bits) 256} (hf : s.fatal = false) (ht : s.treeState ≠ .none)
    (hd : deriveCodes s.treeState s.root s.arena = some code) :
    exec .gencodes s = .next (okState 0 0 0 { s with code := code, ctValid := true }) := by
  have hp : (s.treeState == TreeState.none) = false := by simpa using ht
  rw [exec_eq_runCommand, runCommand_run _ hf (by simp [prechecks, firstFailing, hp])]
  rcases runGencodes_cases s with ⟨c, h1, h2⟩ | ⟨h1, h2⟩
  · rw [hd] at h1; cases h1
    show finish _ _ (runGencodes s) = _
    rw [h2]; rfl
  · rw [hd] at h1; cases h1

theorem execSerialize_run {s : State} (hf : s.fatal = false) (ht : s.treeState ≠ .none)
    (hd : s.dstAddr.toNat + s.dstCap.toNat ≤ 2 ^ 32) : exec .serialize s = finish .serialize s (runSerialize s) := by
  rw [exec_eq_runCommand, runCommand_run _ hf (serialize_prechecks ht hd)]; rfl

theorem execDeserialize_run {s : State} (hf : s.fatal = false) (hs : s.srcAddr.toNat + s.srcLen.toNat ≤ 2 ^ 32) :
    exec .deserialize s = finish .deserialize s (runDeserialize s) := by
  rw [exec_eq_runCommand, runCommand_run _ hf (deserialize_prechecks hs)]; rfl

theorem execEncode_run {s : State} (hf : s.fatal = false) (hc : s.ctValid = true)
    (hs : s.srcAddr.toNat + s.srcLen.toNat ≤ 2 ^ 32) (hd : s.dstAddr.toNat + s.dstCap.toNat ≤ 2 ^ 32)
    (ho : ¬(0 < s.srcLen.toNat ∧ 0 < s.dstCap.toNat ∧ s.srcAddr.toNat < s.dstAddr.toNat + s.dstCap.toNat ∧
      s.dstAddr.toNat < s.srcAddr.toNat + s.srcLen.toNat)) : exec .encode s = finish .encode s (runEncode s) := by
  rw [exec_eq_runCommand, runCommand_run _ hf (encode_prechecks hc hs hd ho)]; rfl

theorem execDecode_run {s : State} (hf : s.fatal = false)
    (ht : s.treeState = .valid ∨ s.treeState = .empty ∧ s.symCount.toNat = 0)
    (hs : s.srcAddr.toNat + s.srcLen.toNat ≤ 2 ^ 32) (hd : s.dstAddr.toNat + s.dstCap.toNat ≤ 2 ^ 32)
    (ho : ¬(0 < s.srcLen.toNat ∧ 0 < s.dstCap.toNat ∧ s.srcAddr.toNat < s.dstAddr.toNat + s.dstCap.toNat ∧
      s.dstAddr.toNat < s.srcAddr.toNat + s.srcLen.toNat)) (hc : s.symCount.toNat ≤ s.dstCap.toNat) :
    exec .decode s = finish .decode s (runDecode s) := by
  rw [exec_eq_runCommand, runCommand_run _ hf (decode_prechecks ht hs hd ho hc)]; rfl

/-- What FATAL is after a command (40 R108, 60 R243, 46 R230). -/
theorem exec_fatal_cases {i : Instr} {s t : State} (h : exec i s = .next t) :
    (i = .softReset ∧ t.fatal = false) ∨ (s.fatal = true ∧ t.fatal = true ∧ t.errCode = .locked) ∨
      (s.fatal = false ∧ t.fatal = false) ∨
      (s.fatal = false ∧ i = .encode ∧ t.fatal = true ∧ t.errCode = .internalInvariant) := by
  by_cases hl : s.fatal = true ∧ i ≠ .softReset
  · rw [exec_eq_runCommand, runCommand_locked _ hl.1 hl.2] at h
    cases h
    exact .inr (.inl ⟨hl.1, hl.1, rfl⟩)
  by_cases hi : i = .softReset
  · subst hi
    rw [execSoftReset_eq] at h
    cases h
    exact .inl ⟨rfl, rfl⟩
  have hf : s.fatal = false := by cases hf : s.fatal <;> simp_all
  rw [exec_eq_runCommand] at h
  rcases runCommand_next h with ⟨hf', _, _⟩ | ⟨c, hc, rfl⟩ | ⟨_, _, ⟨s', r, hr, rfl⟩ | ⟨c, w, hr, rfl⟩⟩
  · rw [hf] at hf'; cases hf'
  · exact .inr (.inr (.inl ⟨hf, hf⟩))
  · obtain ⟨_, _, _, _, _, e, _⟩ := run_ok_frame hr
    exact .inr (.inr (.inl ⟨hf, (e hi).2.2.2.2.2.2.2.2.trans hf⟩))
  · have F := completeErr_frame (some i) c w s
    simp only at F
    by_cases hc : c = .internalInvariant
    · have : i = .encode := by
        rcases run_error hr with ⟨_, h⟩ | ⟨_, _, h⟩ | ⟨hi, h⟩ | ⟨_, h⟩ <;> simp_all
      exact .inr (.inr (.inr ⟨hf, this, by rw [F.2.2.2.2.2.2.2.1, hc]; simp, by rw [F.2.2.1, hc]⟩))
    · exact .inr (.inr (.inl ⟨hf, by rw [F.2.2.2.2.2.2.2.1, hf]; simpa using hc⟩))

end Sys2Proof.Machine
end

