-- ==== Sys2Proof/Laws/Steps.lean ====
section
/-! SUPPORT. Everything a step can do: the moves of HOST, CORE and the reset input, each once. -/

namespace Sys2Proof.Machine

/-! ### Decoding -/

/-- A word decodes to a command exactly when it is the command's word (30_encoding.md R82). -/
theorem decodeWord_ok_iff (w : Word) (i : Instr) : decodeWord w = .ok i ↔ w = encode i := by
  constructor
  · intro h
    unfold decodeWord at h
    split at h
    · rename_i hr
      have hr' : w.extractLsb' 8 24 = 0 := by simpa [rsvdIsZero, rsvdField] using hr
      have hs : w = (w.extractLsb' 8 24 ++ w.extractLsb' 0 8 : Word) := by
        apply BitVec.eq_of_getLsbD_eq
        intro k hk
        rw [BitVec.getLsbD_append]
        split
        · simp; omega
        · have h1 : k - 8 < 24 := by omega
          have h2 : 8 + (k - 8) = k := by omega
          simp [h1, h2]
      have ho : w.extractLsb' 0 8 = i.opcode := by
        cases hd : decodeOpcode (opcodeField w) with
        | none => rw [hd] at h; simp at h
        | some j =>
          rw [hd] at h
          obtain rfl : j = i := by simpa using h
          unfold decodeOpcode at hd
          split_ifs at hd <;> (obtain rfl := Option.some.inj hd; assumption)
      rw [hs, hr', ho]; rfl
    · simp at h
  · rintro rfl; cases i <;> rfl

theorem decode_encode (i : Instr) : decodeWord (encode i) = .ok i := (decodeWord_ok_iff _ _).2 rfl

theorem pendingInstr_eq {s : State} {i : Instr} (h : s.pending = some (encode i)) : s.pendingInstr = some i := by
  simp [State.pendingInstr, h, decode_encode, DecodeResult.toOption]

/-- The pending command, if there is one, is the one whose word is pending. -/
theorem pendingInstr_some {s : State} {i : Instr} (h : s.pendingInstr = some i) : s.pending = some (encode i) := by
  unfold State.pendingInstr at h
  cases hp : s.pending with
  | none => simp [hp] at h
  | some w =>
    simp only [hp, Option.bind_some] at h
    cases hd : decodeWord w with
    | reject r => simp [hd, DecodeResult.toOption] at h
    | ok j =>
      obtain rfl : j = i := by simpa [hd, DecodeResult.toOption] using h
      rw [(decodeWord_ok_iff w j).1 hd]

theorem contains_iff (w : Window) (a : Nat) : w.contains a = true ↔ w.base ≤ a ∧ a < w.base + w.len := by
  simp [Window.contains]

/-- The bytes of a pending command's source window (20_memory.md R73). -/
theorem inPendingSrc_iff {s : State} {i : Instr} (h : s.pending = some (encode i)) (a : Nat) :
    inPendingSrc s a = true ↔ (i = .deserialize ∨ i = .encode ∨ i = .decode) ∧ s.srcAddr.toNat ≤ a ∧
      a < s.srcAddr.toNat + s.srcLen.toNat := by
  have hc := contains_iff (srcWindow s) a
  simp only [inPendingSrc, pendingInstr_eq h, Bool.and_eq_true, hc]
  cases i <;> simp [usesSrc, srcWindow]

/-- The bytes of a pending command's destination window (20_memory.md R73). -/
theorem inPendingDst_iff {s : State} {i : Instr} (h : s.pending = some (encode i)) (a : Nat) :
    inPendingDst s a = true ↔ (i = .serialize ∨ i = .encode ∨ i = .decode) ∧ s.dstAddr.toNat ≤ a ∧
      a < s.dstAddr.toNat + s.dstCap.toNat := by
  have hc := contains_iff (dstWindow s) a
  simp only [inPendingDst, pendingInstr_eq h, Bool.and_eq_true, hc]
  cases i <;> simp [usesDst, dstWindow]

/-! ### CORE's move -/

/-- Everything CORE's move can do (40 R102, R103). -/
theorem coreStep_next {s t : State} (h : coreStep s = .next t) :
    (t = s ∧ (s.inReset = true ∨ s.pending = none)) ∨
      (s.inReset = false ∧ ∃ i, s.pending = some (encode i) ∧ exec i s = .next t) ∨
      (s.inReset = false ∧ ∃ w, s.pending = some w ∧ (∀ i, w ≠ encode i) ∧ t = errState .badCmd s) := by
  unfold coreStep at h
  split at h
  · rename_i hr; exact .inl ⟨by simpa using h.symm, .inl hr⟩
  · rename_i hr
    have hr' : s.inReset = false := by simpa using hr
    cases hp : s.pending with
    | none => simp only [hp] at h; exact .inl ⟨by simpa using h.symm, .inr rfl⟩
    | some w =>
      simp only [hp] at h
      cases hd : decodeWord w with
      | ok i =>
        simp only [hd] at h
        exact .inr (.inl ⟨hr', i, by rw [(decodeWord_ok_iff w i).1 hd], h⟩)
      | reject r =>
        simp only [hd, completeErr_badCmd] at h
        refine .inr (.inr ⟨hr', w, rfl, fun i e => ?_, by simpa using h.symm⟩)
        rw [e, decode_encode] at hd; simp at hd

theorem coreStep_exec {s : State} {i : Instr} (hr : s.inReset = false) (hp : s.pending = some (encode i)) :
    coreStep s = exec i s := by
  simp [coreStep, hr, hp, decode_encode]

/-! ### The step -/

/-- The move a step makes, from `s` with the events that are left (a HOST that polls on keeps its event). -/
inductive Move (s t : State) : Prop where
  | core (inputs : List Event) (h : coreStep { s with inputs := inputs } = .next t)
  | read (inputs : List Event) (off : Nat) (hr : s.inReset = false) (h : t = hostRead off { s with inputs := inputs })
  | write (inputs : List Event) (off : Nat) (v : Word) (hr : s.inReset = false) (ho : off % 4 = 0 ∧ off < 0x8000)
      (h : t = hostWrite off v { s with inputs := inputs })
  | memRead (inputs : List Event) (a : Word)
      (h : t = { s with inputs := inputs, reply := some (.mem a (memGet s.mem a.toNat)) })
  | memWrite (inputs : List Event) (a : Word) (v : Byte) (h : t = { s with inputs := inputs, mem := memSet s.mem a.toNat v })
  | resetAssert (inputs : List Event) (hi : s.inputs = .resetAssert :: inputs) (h : t = assertReset { s with inputs := inputs })
  | resetRelease (inputs : List Event) (h : t = releaseReset { s with inputs := inputs })

theorem accessShapeOk_iff (bytes off : Nat) : accessShapeOk bytes off = true ↔ bytes = 4 ∧ off % 4 = 0 ∧ off < 0x8000 := by
  unfold accessShapeOk Config.regWindow
  simp only [Bool.and_eq_true, beq_iff_eq, decide_eq_true_eq, and_assoc]

/-- Everything a step can do. -/
theorem step_next {s t : State} (h : step s = .next t) : Move s t := by
  unfold step nextMove at h
  split at h
  · exact .core s.inputs h
  · exact .core _ h
  · rename_i op rest hi
    unfold hostStep at h
    split at h
    · split at h
      · simp at h
      · rename_i hr
        split at h
        · exact .read rest _ (by simpa using hr) (by simpa using h.symm)
        · simp at h
    · split at h
      · simp at h
      · rename_i hr
        split at h
        · rename_i ho
          exact .write rest _ _ (by simpa using hr) ((accessShapeOk_iff _ _).1 ho).2 (by simpa using h.symm)
        · simp at h
    · split at h
      · simp at h
      · exact .memRead rest _ (by simpa using h.symm)
    · split at h
      · simp at h
      · exact .memWrite rest _ _ (by simpa using h.symm)
    · split at h
      · simp at h
      · rename_i hr
        have hr' : s.inReset = false := by simpa using hr
        split at h
        · exact .read rest _ hr' (by simpa using h.symm)
        · split at h
          · exact .core s.inputs h
          · exact .read s.inputs _ hr' (by simpa using h.symm)
  · rename_i rest hi
    exact .resetAssert rest hi (by simpa using h.symm)
  · exact .resetRelease _ (by simpa using h.symm)

/-- The word placed by `withFetchWord` is the very next command executed (log entry 9). -/
theorem step_withFetchWord (s : State) (i : Instr) :
    step (s.withFetchWord 32 (encode i).toNat) =
      exec i { s with done := false, err := false, errCode := .none, wign := false, pending := some (encode i),
                      doneSeen := false, inReset := false } := by
  have : BitVec.ofNat 32 ((encode i).toNat % 2 ^ 32) = encode i := by cases i <;> decide
  unfold State.withFetchWord placeCommand
  rw [this]
  exact coreStep_exec (i := i) (s := { s with done := false, err := false, errCode := .none, wign := false,
                                              pending := some (encode i), doneSeen := false, inReset := false }) rfl rfl

/-! ### HOST's accesses -/

/-- A HOST read changes only what HOST has seen and the count of free values (46 R231: a read has no side effect). -/
theorem hostRead_eq (off : Nat) (s : State) :
    ∃ reply doneSeen draws, hostRead off s = { s with reply := reply, doneSeen := doneSeen, draws := draws } := by
  unfold hostRead
  split
  · exact ⟨_, s.doneSeen, _, rfl⟩
  · exact ⟨_, _, s.draws, rfl⟩

/-- A read of a register that is not STATUS, while idle or of one that is exact while BUSY, hands HOST its value. -/
theorem hostRead_exact {off : Nat} {s : State} (hb : s.busy = false ∨ drawnWhileBusy (regAt off) = false)
    (hn : regAt off ≠ .status) : hostRead off s = { s with reply := some (.reg off (readReg s (regAt off))) } := by
  have h1 : (s.busy && drawnWhileBusy (regAt off)) = false := by rcases hb with h | h <;> simp [h]
  have h2 : (regAt off == .status) = false := by simpa using hn
  simp [hostRead, h1, h2]

/-- A read of STATUS hands HOST the STATUS word, and tells it of DONE (70 R292). -/
theorem hostRead_status (s : State) :
    hostRead 0x0004 s = { s with reply := some (.reg 0x0004 s.statusWord), doneSeen := s.doneSeen || s.done } := by
  simp [hostRead, regAt, drawnWhileBusy, readReg]

/-- Everything a HOST write can do (46 R232, 10 R43). -/
theorem hostWrite_cases (off : Nat) (v : Word) (s : State) :
    (s.busy = true ∧ hostWrite off v s = { s with wign := true }) ∨
      (s.busy = false ∧ (hostWrite off v s = accept v s ∨
        ∃ done ie srcAddr srcLen dstAddr dstCap symCount freq,
          hostWrite off v s = { s with done := done, ie := ie, srcAddr := srcAddr, srcLen := srcLen, dstAddr := dstAddr,
                                       dstCap := dstCap, symCount := symCount, freq := freq })) := by
  unfold hostWrite
  cases hb : s.busy with
  | true => exact .inl ⟨rfl, rfl⟩
  | false =>
    refine .inr ⟨rfl, ?_⟩
    simp only [Bool.false_eq_true, if_false]
    cases regAt off with
    | cmd => exact .inl rfl
    | status =>
      refine .inr ⟨s.done && !v.getLsbD 1, s.ie, s.srcAddr, s.srcLen, s.dstAddr, s.dstCap, s.symCount, s.freq, ?_⟩
      simp only [writeReg, writeStatus]
      cases v.getLsbD 1 <;> simp
    | freq x => exact .inr ⟨s.done, s.ie, s.srcAddr, s.srcLen, s.dstAddr, s.dstCap, s.symCount, _, rfl⟩
    | ctrl => exact .inr ⟨s.done, _, s.srcAddr, s.srcLen, s.dstAddr, s.dstCap, s.symCount, s.freq, rfl⟩
    | srcAddr => exact .inr ⟨s.done, s.ie, _, s.srcLen, s.dstAddr, s.dstCap, s.symCount, s.freq, rfl⟩
    | srcLen => exact .inr ⟨s.done, s.ie, s.srcAddr, _, s.dstAddr, s.dstCap, s.symCount, s.freq, rfl⟩
    | dstAddr => exact .inr ⟨s.done, s.ie, s.srcAddr, s.srcLen, _, s.dstCap, s.symCount, s.freq, rfl⟩
    | dstCap => exact .inr ⟨s.done, s.ie, s.srcAddr, s.srcLen, s.dstAddr, _, s.symCount, s.freq, rfl⟩
    | symCount => exact .inr ⟨s.done, s.ie, s.srcAddr, s.srcLen, s.dstAddr, s.dstCap, _, s.freq, rfl⟩
    | _ => exact .inr ⟨s.done, s.ie, s.srcAddr, s.srcLen, s.dstAddr, s.dstCap, s.symCount, s.freq, rfl⟩

/-- What a HOST event does, with the event taken from the front. -/
theorem step_host (s : State) (op : HostOp) :
    step { s with inputs := .host op :: s.inputs } = hostStep op s { s with inputs := .host op :: s.inputs } := rfl

theorem step_regRead {s : State} (hr : s.inReset = false) {off : Nat} (h : off % 4 = 0) (h' : off < 0x8000) :
    step { s with inputs := .host (.regRead 4 off) :: s.inputs } = .next (hostRead off s) := by
  have := (accessShapeOk_iff 4 off).2 ⟨rfl, h, h'⟩
  rw [step_host]; simp [hostStep, hr, this]

theorem step_regWrite {s : State} (hr : s.inReset = false) {off : Nat} (h : off % 4 = 0) (h' : off < 0x8000) (v : Word) :
    step { s with inputs := .host (.regWrite 4 off v) :: s.inputs } = .next (hostWrite off v s) := by
  have := (accessShapeOk_iff 4 off).2 ⟨rfl, h, h'⟩
  rw [step_host]; simp [hostStep, hr, this]

/-! ### Reset -/

/-- Reset's assertion leaves the block at its reset values; only a pending command's destination window loses its bytes
(70 R270). -/
theorem assertReset_eq (s : State) :
    ∃ m draws, assertReset s = { blockReset s with mem := m, draws := draws, inReset := true } ∧
      SameOutside s.mem m s.dstAddr.toNat s.dstCap.toNat ∧ (pendingUsesDst s = false → m = s.mem) ∧
      (memWf s.mem = true → memWf m = true) := by
  unfold assertReset
  cases h : pendingUsesDst s with
  | false => exact ⟨s.mem, s.draws, rfl, fun _ _ => rfl, fun _ => rfl, fun h => h⟩
  | true => exact ⟨_, _, rfl, spoilDst_outside s, by simp, spoilDst_wf⟩

/-! ### The register map (10_state.md R21) -/

/-- What `regAt` answers on each region of the window that is an array of registers (R21). -/
theorem regAt_regions (off : Nat) :
    (0x0400 ≤ off → off < 0x0800 → regAt off = .freq (BitVec.ofNat 8 ((off - 0x0400) / 4))) ∧
      (0x2000 ≤ off → off < 0x3FF0 → regAt off = .node ((off - 0x2000) / 16) ((off - 0x2000) % 16 / 4)) ∧
      (0x4000 ≤ off → off < 0x4400 → regAt off = .codeLen (BitVec.ofNat 8 ((off - 0x4000) / 4))) ∧
      (0x5000 ≤ off → off < 0x7000 →
        regAt off = .codeBits (BitVec.ofNat 8 ((off - 0x5000) / 32)) ((off - 0x5000) % 32 / 4)) := by
  refine ⟨?_, ?_, ?_, ?_⟩ <;> intro lo hi <;> unfold regAt <;> split_ifs <;> first | rfl | omega

/-- The symbol of an offset at a multiple of an array's stride. -/
theorem ofNat8_eq {n : Nat} {x : Byte} (h : n = x.toNat) : BitVec.ofNat 8 n = x := by subst h; simp

theorem regAt_freq (x : Byte) : regAt (0x0400 + 4 * x.toNat) = .freq x := by
  have hx := x.isLt
  rw [(regAt_regions _).1 (by omega) (by omega), ofNat8_eq (x := x) (by omega)]

theorem regAt_node {i k : Nat} (hi : i < 511) (hk : k < 4) : regAt (0x2000 + 16 * i + 4 * k) = .node i k := by
  rw [(regAt_regions _).2.1 (by omega) (by omega)]
  congr 1 <;> omega

theorem regAt_codeLen (x : Byte) : regAt (0x4000 + 4 * x.toNat) = .codeLen x := by
  have hx := x.isLt
  rw [(regAt_regions _).2.2.1 (by omega) (by omega), ofNat8_eq (x := x) (by omega)]

theorem regAt_codeBits (x : Byte) {w : Nat} (hw : w < 8) : regAt (0x5000 + 32 * x.toNat + 4 * w) = .codeBits x w := by
  have hx := x.isLt
  rw [(regAt_regions _).2.2.2 (by omega) (by omega), ofNat8_eq (x := x) (by omega)]
  congr 1
  omega

theorem regAt_reserved {off : Nat} (h : off % 4 = 0)
    (h2 : off = 0x000C ∨ (0x0024 ≤ off ∧ off ≤ 0x002C) ∨ off = 0x003C ∨ (0x0048 ≤ off ∧ off ≤ 0x03FC) ∨
      (0x0800 ≤ off ∧ off ≤ 0x1FFC) ∨ (0x3FF0 ≤ off ∧ off ≤ 0x3FFC) ∨ (0x4400 ≤ off ∧ off ≤ 0x4FFC) ∨
      (0x7000 ≤ off ∧ off ≤ 0x7FFC)) : regAt off = .reserved := by
  unfold regAt
  split_ifs <;> try omega
  · split <;> first | omega | rfl
  all_goals rfl

/-! ### The invariants of R44 -/

/-- The invariants speak of the tree, CT_VALID, FATAL and ERRCODE alone. -/
theorem stateInvariant_congr {s t : State} (h : StateInvariant s) (h1 : t.ctValid = s.ctValid)
    (h2 : t.treeState = s.treeState) (h3 : t.nodeCount = s.nodeCount) (h4 : t.root = s.root) (h5 : t.arena = s.arena)
    (h6 : t.fatal = true → t.busy = false → t.errCode = .internalInvariant ∨ t.errCode = .locked ∨ t.errCode = .badCmd) :
    StateInvariant t where
  ctValid_needs_tree := by rw [h1, h2]; exact h.ctValid_needs_tree
  no_tree_is_empty := by rw [h2, h3, h4]; exact h.no_tree_is_empty
  valid_is_tree := by
    rw [h2]; intro hv; have := h.valid_is_tree hv
    unfold ArenaIsTree leafCount at *
    rw [h3, h4, h5]; exact this
  fatal_code := h6

theorem stateInvariant_no_tree {t : State} (h1 : t.ctValid = false) (h2 : t.treeState ≠ .valid) (h3 : t.nodeCount = 0)
    (h4 : t.root = 0)
    (h6 : t.fatal = true → t.busy = false → t.errCode = .internalInvariant ∨ t.errCode = .locked ∨ t.errCode = .badCmd) :
    StateInvariant t where
  ctValid_needs_tree := by simp [h1]
  no_tree_is_empty := fun _ => ⟨h3, h4⟩
  valid_is_tree := fun h => absurd h h2
  fatal_code := h6

/-- Under R44 every walk of GENCODES ends (40 R109). -/
theorem deriveCodes_of_invariant {s : State} (h : StateInvariant s) :
    ∃ code, deriveCodes s.treeState s.root s.arena = some code := by
  cases ht : s.treeState with
  | none => exact ⟨_, rfl⟩
  | empty => exact ⟨_, rfl⟩
  | valid =>
    obtain ⟨t, h'⟩ := heldTree_of_arenaIsTree (h.valid_is_tree ht)
    obtain ⟨c, hc, _⟩ := deriveCodes_valid h'
    exact ⟨c, hc⟩

end Sys2Proof.Machine
end

