-- ==== Sys2Proof/Tests/Slice0.lean ====
section
/-! SUPPORT. The model's own tests: the word checks, decoding from words written out from 30_encoding.md R80 and R81, one
step per command against vectors of 95_test_vectors.md, and for each obligation with hypotheses a witness that meets them. -/

namespace Sys2Proof.Tests.Slice0

open Sys2Proof Sys2Proof.Machine

set_option Elab.async false

/-! ### WellFormed -/

-- R82: RSVD = 1, opcode BUILD.
theorem test_rsvd_set_is_ill_formed : wordWellFormed 0x00000101#32 = false ∧ rsvdIsZero 0x00000101#32 = false := by decide
-- V-L7: 0x07 is no opcode.
theorem test_opcode_07_is_ill_formed : wordWellFormed 0x00000007#32 = false ∧ opcodeIsDefined 0x00000007#32 = false := by decide
theorem test_build_word_is_well_formed : wordWellFormed 0x00000001#32 = true := by decide
-- R40: two bytes wide; misaligned; at the end of the window.
theorem test_access_shapes : accessShapeOk 2 0 = false ∧ accessShapeOk 4 2 = false ∧ accessShapeOk 4 0x8000 = false ∧
    accessShapeOk 4 0x7FFC = true := by decide
-- An entry that holds what an unlisted address reads as; addresses that fall; an address outside the DMA space.
theorem test_memory_forms : memWf [(1, 0#8)] = false ∧ memWf [(2, 1#8), (1, 1#8)] = false ∧ memWf [(2 ^ 32, 1#8)] = false ∧
    memWf [(1, 1#8), (2 ^ 32 - 1, 1#8)] = true := by decide

/-! ### Decoding: RSVD (24 bits) then OPCODE (8 bits), from R80 and R81 -/

theorem test_decode_build : decodeWord (0b000000000000000000000000#24 ++ 0b00000001#8) = .ok .build := by decide
theorem test_decode_gencodes : decodeWord (0b000000000000000000000000#24 ++ 0b00000010#8) = .ok .gencodes := by decide
theorem test_decode_serialize : decodeWord (0b000000000000000000000000#24 ++ 0b00000011#8) = .ok .serialize := by decide
theorem test_decode_deserialize : decodeWord (0b000000000000000000000000#24 ++ 0b00000100#8) = .ok .deserialize := by decide
theorem test_decode_encode : decodeWord (0b000000000000000000000000#24 ++ 0b00000101#8) = .ok .encode := by decide
theorem test_decode_decode : decodeWord (0b000000000000000000000000#24 ++ 0b00000110#8) = .ok .decode := by decide
theorem test_decode_softReset : decodeWord (0b000000000000000000000000#24 ++ 0b00001111#8) = .ok .softReset := by decide
-- V-L7.
theorem test_illegal_words :
    [0x00000000#32, 0x00000007#32, 0x0000000E#32, 0x00000010#32, 0x000000FF#32].all (fun w =>
      decodeWord w = .reject .undefinedOpcode) = true := by decide
theorem test_illegal_high_bit : decodeWord 0x80000001#32 = .reject .reservedBitsSet := by decide
theorem test_table_words : decodeTableWord 32 0x01 = some .build ∧ decodeTableWord 32 0x0F = some .softReset ∧
    decodeTableWord 32 0x10F = none := by decide

/-! ### States -/

/-- The next state meets a check. -/
def ends (o : Host.Outcome State Fault Refusal) (p : State → Bool) : Bool :=
  match o with
  | .next t => p t
  | .fault _ => false
  | .refused _ => false

theorem of_ends {o : Host.Outcome State Fault Refusal} {p : State → Bool} (h : ends o p = true) :
    ∃ t, o = .next t ∧ p t = true := by
  cases o with
  | next t => exact ⟨t, rfl, h⟩
  | fault _ => cases h
  | refused _ => cases h

/-- Bytes stored from an address on. -/
def stored (a : Nat) (l : List Byte) : List Host.Cell := memFill [] a (fun k => l.getD k 0) l.length

/-- The arena of V-B1. -/
def arenaAB : Vector Node 511 :=
  setNode (setNode (setNode blankArena 0 (Node.leaf 0x61 5)) 1 (Node.leaf 0x62 3)) 2 (Node.internal 0 1 8)

/-- V-B1's tree is held. -/
def heldAB : State := { State.reset with treeState := .valid, root := 2, nodeCount := 3, arena := arenaAB }

/-- V-G1's codes are held as well. -/
def codedAB : State :=
  { heldAB with ctValid := true, code := setCode (setCode noCodes 0x61 [false]) 0x62 [true] }

/-- A one-leaf tree (W5) is held. -/
def heldLeaf : State :=
  { State.reset with treeState := .valid, nodeCount := 1, arena := setNode blankArena 0 (Node.leaf 0x41 3) }

/-- An EMPTY tree is held. -/
def heldEmpty : State := { State.reset with treeState := .empty }

/-- A source window over the given bytes at 0x10000, and a destination window at 0x20000. -/
def withBuffers (src : List Byte) (cap : Word) (s : State) : State :=
  { s with mem := stored 0x10000 src, srcAddr := 0x10000, srcLen := BitVec.ofNat 32 src.length, dstAddr := 0x20000,
           dstCap := cap }

/-- A word is pending. -/
def busy (w : Word) (s : State) : State := { s with pending := some w }

theorem heldAB_tree : heldTree heldAB = some (.node (.leaf 0x61) (.leaf 0x62)) := by decide +kernel

theorem heldLeaf_tree : heldTree heldLeaf = some (.leaf 0x41) := by decide +kernel

theorem codedAB_code : codeOf codedAB.code 0x61 = some [false] ∧ codeOf codedAB.code 0x62 = some [true] ∧
    codeOf codedAB.code 0x63 = none := by decide +kernel

theorem heldAB_arena : ArenaIsTree heldAB :=
  ⟨by decide, by decide, by decide, ⟨[2, 0, 1], by decide +kernel, by decide, by decide⟩, by decide +kernel⟩

theorem heldAB_invariant : StateInvariant heldAB where
  ctValid_needs_tree := by decide
  no_tree_is_empty := by decide
  valid_is_tree := fun _ => heldAB_arena
  fatal_code := by decide

/-! ### One step per command -/

-- V-B1: ROOT 2, NODE_COUNT 3, STATUS 0x00020002, root weight 8.
theorem test_build_ab :
    ends (exec .build { State.reset with freq := setFreq (setFreq State.reset.freq 0x61 5) 0x62 3 }) (fun t =>
      t.root == 2 && t.nodeCount == 3 && t.statusWord == 0x00020002 && nodeAt t.arena 2 == Node.internal 0 1 8) = true := by
  decide +kernel

-- V-B3: the leaf of weight 2 is chosen before the internal node of weight 2, and goes left.
theorem test_build_tie :
    ends (exec .build { State.reset with freq := setFreq (setFreq (setFreq State.reset.freq 0x61 1) 0x62 1) 0x63 2 })
      (fun t => nodeAt t.arena 4 == Node.internal 2 3 4 && nodeAt t.arena 3 == Node.internal 0 1 2) = true := by
  decide +kernel

-- V-G1: 61 = 0, 62 = 1, STATUS 0x00120002.
theorem test_gencodes_ab :
    ends (exec .gencodes heldAB) (fun t => codeOf t.code 0x61 == some [false] && codeOf t.code 0x62 == some [true] &&
      t.statusWord == 0x00120002) = true := by
  decide +kernel

-- V-G9: NO_TREE, STATUS 0x00000506.
theorem test_gencodes_no_tree :
    ends (exec .gencodes State.reset) (fun t => t.statusWord == 0x00000506) = true := by decide +kernel

-- V-S1: 00 01 61 01 62, OUT_LEN 5.
theorem test_serialize_ab :
    ends (exec .serialize { heldAB with dstAddr := 0x20000, dstCap := 16 }) (fun t =>
      bytesAt t.mem 0x20000 5 == [0x00, 0x01, 0x61, 0x01, 0x62] && t.outLen == 5 && t.statusWord == 0x00020002) = true := by
  decide +kernel

-- V-S9: DST_CAP 4 is one byte short; nothing is written.
theorem test_serialize_overflow :
    ends (exec .serialize { heldAB with dstAddr := 0x20000, dstCap := 4 }) (fun t =>
      t.mem == [] && t.statusWord == 0x00020706) = true := by
  decide +kernel

-- V-D8: 00 01 61 01 62 07: IN_USED 5, root at 0, and 07 is not part of the tree.
theorem test_deserialize_ab :
    ends (exec .deserialize (withBuffers [0x00, 0x01, 0x61, 0x01, 0x62, 0x07] 0 codedAB)) (fun t =>
      t.inUsed == 5 && t.root == 0 && nodeAt t.arena 0 == Node.internal 1 2 0 && t.statusWord == 0x00020002) = true := by
  decide +kernel

-- V-D5: the second child's tag is 05: FMT_BAD_TAG, and the old tree is gone.
theorem test_deserialize_bad_tag :
    ends (exec .deserialize (withBuffers [0x00, 0x01, 0x41, 0x05] 0 codedAB)) (fun t => t.statusWord == 0x00000206) = true := by
  decide +kernel

-- V-E1: aaaaabbb packs to 07, PAD 0, with DST_CAP exactly 1.
theorem test_encode_ab :
    ends (exec .encode (withBuffers [0x61, 0x61, 0x61, 0x61, 0x61, 0x62, 0x62, 0x62] 1 codedAB)) (fun t =>
      bytesAt t.mem 0x20000 1 == [0x07] && t.outLen == 1 && t.inUsed == 8 && t.pad == 0) = true := by
  decide +kernel

-- V-E10: 63 has no code; INTERNAL_INVARIANT comes before DST_OVERFLOW and sets FATAL.
theorem test_encode_missing_code :
    ends (exec .encode (withBuffers [0x61, 0x63] 0 codedAB)) (fun t => t.statusWord == 0x00120416) = true := by
  decide +kernel

-- V-U1: 07 decodes to aaaaabbb, IN_USED 1, PAD 0.
theorem test_decode_ab :
    ends (exec .decode { withBuffers [0x07] 8 heldAB with symCount := 8 }) (fun t =>
      bytesAt t.mem 0x20000 8 == [0x61, 0x61, 0x61, 0x61, 0x61, 0x62, 0x62, 0x62] && t.outLen == 8 && t.inUsed == 1 &&
        t.pad == 0) = true := by
  decide +kernel

-- V-U5: at a root leaf the payload FF gives 41 41 41, PAD 5.
theorem test_decode_root_leaf :
    ends (exec .decode { withBuffers [0xFF] 3 heldLeaf with symCount := 3 }) (fun t =>
      bytesAt t.mem 0x20000 3 == [0x41, 0x41, 0x41] && t.inUsed == 1 && t.pad == 5) = true := by
  decide +kernel

-- V-R1: STATUS 0x00000002 from a fatal state, WIGN set while SOFT_RESET was pending included (46 R230, 10 R46).
theorem test_soft_reset :
    ends (exec .softReset { codedAB with fatal := true, wign := true, srcLen := 7 }) (fun t =>
      t.statusWord == 0x00000002 && t.srcLen == 0 && t.nodeCount == 0) = true := by
  decide +kernel

-- V-R3: BUILD while FATAL gives LOCKED, STATUS 0x00120C16.
theorem test_locked :
    ends (exec .build { codedAB with fatal := true }) (fun t => t.statusWord == 0x00120C16) = true := by decide +kernel

-- V-R2: 0x0000010F while FATAL gives BAD_CMD; FATAL stays.
theorem test_bad_cmd_beats_locked :
    ends (step { busy 0x0000010F codedAB with fatal := true }) (fun t => t.statusWord == 0x00120B16) = true := by
  decide +kernel

-- V-L1: a FREQ write while BUILD is pending is dropped and sets WIGN.
theorem test_write_while_busy :
    ends (step { busy 1 State.reset with inputs := wr 0x0584 9 }) (fun t => t.wign && freqOf t.freq 0x61 == 0) = true := by
  decide +kernel

-- V-L2: writing 0xFFFFFFFF to STATUS clears DONE alone.
theorem test_status_write :
    ends (step { heldAB with done := true, inputs := wr 0x0004 0xFFFFFFFF }) (fun t => t.statusWord == 0x00020000) = true := by
  decide +kernel

-- V-L4: CTRL reads back 1, and IRQ follows DONE.
theorem test_ctrl_write :
    ends (step { State.reset with done := true, inputs := wr 0x0008 0xFFFFFFFF }) (fun t => t.ctrlWord == 1 && t.irq) = true := by
  decide +kernel

-- 95 section 2.1, the NODE window of V-B1: entry 0 word 0, entry 2 word 1, and the first word beyond NODE_COUNT.
theorem test_node_window :
    readReg heldAB (regAt 0x2000) = 0x00006101#32 ∧ readReg heldAB (regAt 0x2024) = 0x00010000#32 ∧
      readReg heldAB (regAt 0x2030) = 0#32 := by decide +kernel

-- V-G1: CODE_LEN[0x62] and CODE_BITS[0x62] word 0.
theorem test_code_windows :
    readReg codedAB (regAt 0x4188) = 0x00000101#32 ∧ readReg codedAB (regAt 0x5C40) = 0x80000000#32 := by decide +kernel

-- The word placed by `withFetchWord` is the first command executed after reset: BUILD of FREQ = 0 (V-B9).
theorem test_placed_word_runs :
    ends (step (State.reset.withFetchWord 32 0x00000001)) (fun t => t.statusWord == 0x00010002) = true := by decide +kernel

-- 30_encoding.md R87: `wait` while SOFT_RESET is pending lets CORE execute it.
theorem test_wait_lets_core_move :
    ends (step { busy 0x0000000F heldAB with inputs := waitCompletion }) (fun t => t.done && t.treeState == .none) = true := by
  decide +kernel

-- 70 R292: the STATUS read with DONE = 1 ends the run; a read of OUT_LEN or of memory after it does not undo that.
theorem test_run_ended :
    ends (step { heldAB with done := true, inputs := rd 0x0004 }) runEnded = true ∧
      ends (step { heldAB with done := true, doneSeen := true, inputs := rd 0x0030 }) runEnded = true ∧
      ends (step { heldAB with done := true, doneSeen := true, inputs := [.host (.memRead 0x20000)] }) runEnded = true := by
  decide +kernel

-- 70 R292: a second command has not been seen to end, neither when accepted nor when CORE has executed it.
theorem test_run_not_ended :
    ends (step { heldAB with done := true, doneSeen := true, inputs := cmd .softReset }) (fun t => !runEnded t) = true ∧
      ends (step { busy 0x0000000F heldAB with doneSeen := false }) (fun t => t.done && !runEnded t) = true ∧
      runEnded { heldAB with done := true, doneSeen := true, inputs := cmd .build } = false := by
  decide +kernel

-- 30 R86 at the top of the DMA space (log entry 13): the byte beyond 0xFFFFFFFF is not stored.
theorem test_store_bytes_at_the_top : storeBytes 0xFFFFFFFF [0x61, 0x62] = [.host (.memWrite 0xFFFFFFFF 0x61)] := by
  decide +kernel

-- 30 R87: `loadfreq` of aaaaabbb writes 256 entries in ascending order, 5 at 0x61 and 3 at 0x62 (V-B1).
theorem test_load_freq :
    let events := loadFreq [0x61, 0x61, 0x61, 0x61, 0x61, 0x62, 0x62, 0x62]
    events.length = 256 ∧ events[0]? = some (.host (.regWrite 4 0x0400 0)) ∧
      events[0x61]? = some (.host (.regWrite 4 0x0584 5)) ∧ events[0x62]? = some (.host (.regWrite 4 0x0588 3)) := by
  decide +kernel

/-! ### Witnesses: hypotheses that concrete states meet -/

theorem witness_StepRunsPendingCommand :
    (busy 1 State.reset).inReset = false ∧ (busy 1 State.reset).pending = some 1 ∧ decodeWord 1 = .ok .build ∧
      (busy 1 State.reset).inputs = [] ∧ { busy 1 State.reset with inputs := waitCompletion }.done = false := by decide

theorem witness_CmdWriteIsAcceptedWhenIdle :
    State.reset.inReset = false ∧ State.reset.pending = none ∧ (busy 1 State.reset).pending = some 1 ∧
      ends (step { State.reset with inputs := wr 0x0000 1 }) (fun t => t.busy) = true := by decide +kernel

theorem witness_WritesWhileBusyAreIgnored : ∀ off ∈ [0x0000, 0x0004, 0x0400, 0x7FFC],
    (busy 1 State.reset).inReset = false ∧ (busy 1 State.reset).pending = some 1 ∧ off % 4 = 0 ∧ off < 0x8000 := by decide

theorem witness_IllegalWordCompletesBadCmd :
    (busy 0x00000101 State.reset).inReset = false ∧ (busy 0x00000101 State.reset).pending = some 0x00000101 ∧
      [0x00000000#32, 0x00000007#32, 0x00000010#32, 0x00000101#32].all (fun w =>
        w.toNat ∉ [0x01, 0x02, 0x03, 0x04, 0x05, 0x06, 0x0F]) = true := ⟨rfl, rfl, by decide⟩

theorem witness_LockedCommandsChangeNothingElse :
    { State.reset with fatal := true }.fatal = true ∧ Instr.build ≠ .softReset := by decide

/-- One state for each clause, at the boundary of its range. -/
theorem witness_PrecheckTable :
    (State.reset.fatal = false ∧ State.reset.treeState = .none ∧ State.reset.ctValid = false) ∧
    (let s := { heldAB with dstAddr := 0xFFFFFFFF, dstCap := 2 };
      s.treeState ≠ .none ∧ 2 ^ 32 < s.dstAddr.toNat + s.dstCap.toNat) ∧
    (let s := { codedAB with srcAddr := 0xFFFFFFFF, srcLen := 2 };
      s.ctValid = true ∧ s.treeState = .valid ∧ 2 ^ 32 < s.srcAddr.toNat + s.srcLen.toNat) ∧
    (let s := { codedAB with srcAddr := 0xFFFFFFFF, srcLen := 1, dstAddr := 0xFFFFFFFE, dstCap := 3 };
      s.ctValid = true ∧ s.treeState = .valid ∧ s.srcAddr.toNat + s.srcLen.toNat ≤ 2 ^ 32 ∧
        2 ^ 32 < s.dstAddr.toNat + s.dstCap.toNat) ∧
    (let s := { codedAB with srcAddr := 0x10000, srcLen := 4, dstAddr := 0x10003, dstCap := 1 };
      s.ctValid = true ∧ s.treeState = .valid ∧ s.srcAddr.toNat + s.srcLen.toNat ≤ 2 ^ 32 ∧
        s.dstAddr.toNat + s.dstCap.toNat ≤ 2 ^ 32 ∧ 0 < s.srcLen.toNat ∧ 0 < s.dstCap.toNat ∧
        s.srcAddr.toNat < s.dstAddr.toNat + s.dstCap.toNat ∧ s.dstAddr.toNat < s.srcAddr.toNat + s.srcLen.toNat) ∧
    (let s := { heldEmpty with symCount := 1 };
      s.treeState = .empty ∧ s.symCount ≠ 0) ∧
    (let s := { heldEmpty with srcAddr := 0xFFFFFFFF, srcLen := 2 };
      s.treeState = .empty ∧ s.symCount = 0 ∧ 2 ^ 32 < s.srcAddr.toNat + s.srcLen.toNat) ∧
    (let s := { codedAB with srcAddr := 0x10000, srcLen := 4, dstAddr := 0x10004, dstCap := 1, symCount := 2 };
      s.treeState = .valid ∧ s.srcAddr.toNat + s.srcLen.toNat ≤ 2 ^ 32 ∧ s.dstAddr.toNat + s.dstCap.toNat ≤ 2 ^ 32 ∧
        ¬(0 < s.srcLen.toNat ∧ 0 < s.dstCap.toNat ∧ s.srcAddr.toNat < s.dstAddr.toNat + s.dstCap.toNat ∧
          s.dstAddr.toNat < s.srcAddr.toNat + s.srcLen.toNat) ∧ s.dstCap.toNat < s.symCount.toNat) := by decide

theorem witness_exec_answers :
    (∃ t, exec .gencodes heldAB = .next t ∧ t.err = false) ∧ (∃ t, exec .gencodes State.reset = .next t ∧ t.err = true) ∧
      ∃ t, exec .softReset State.reset = .next t := by
  obtain ⟨t, h, p⟩ := of_ends (o := exec .gencodes heldAB) (p := fun t => !t.err) (by decide +kernel)
  obtain ⟨u, h', q⟩ := of_ends (o := exec .gencodes State.reset) (p := fun t => t.err) (by decide +kernel)
  exact ⟨⟨t, h, by simpa using p⟩, ⟨u, h', q⟩, _, execSoftReset_eq _⟩

/-- CompletionFields, CommandsWriteOnlyTheDestination, CommandsKeepOperandsAndFreq, TreeSurvivesSerializeEncodeDecode. -/
theorem witness_completed_commands :
    (∃ t, exec .gencodes heldAB = .next t) ∧ ∃ t, exec .serialize { heldAB with dstAddr := 0x20000, dstCap := 16 } = .next t := by
  obtain ⟨t, h, -⟩ := witness_exec_answers.1
  obtain ⟨u, h', -⟩ := of_ends test_serialize_ab
  exact ⟨⟨t, h⟩, u, h'⟩

theorem witness_EveryCommandCompletes : StateInvariant heldAB ∧ heldAB.treeState = .valid := ⟨heldAB_invariant, rfl⟩

theorem witness_OnlyInternalInvariantSetsFatal :
    (∃ t, step { busy 5 (withBuffers [0x61, 0x63] 0 codedAB) with inputs := [] } = .next t ∧ t.fatal = true ∧
      t.errCode = .internalInvariant) ∧
      (withBuffers [0x61, 0x63] 0 codedAB).fatal = false ∧ { State.reset with fatal := true }.fatal = true := by
  obtain ⟨t, h, p⟩ := of_ends
    (o := step { busy 5 (withBuffers [0x61, 0x63] 0 codedAB) with inputs := [] })
    (p := fun t => t.fatal && t.errCode == .internalInvariant) (by decide +kernel)
  simp only [Bool.and_eq_true, beq_iff_eq] at p
  exact ⟨⟨t, h, p.1, p.2⟩, rfl, rfl⟩

theorem witness_OnlyResetsClearFatal :
    ∃ t, step { busy 0x0000000F State.reset with fatal := true } = .next t ∧ t.fatal = false := by
  obtain ⟨t, h, p⟩ := of_ends (o := step { busy 0x0000000F State.reset with fatal := true })
    (p := fun t => !t.fatal) (by decide +kernel)
  exact ⟨t, h, by simpa using p⟩

theorem witness_BuildOfEmptyAlphabet : State.reset.fatal = false ∧ ∀ x, freqOf State.reset.freq x = 0 :=
  ⟨rfl, freqOf_reset⟩

/-- V-B1's frequencies; with them n = 2, and the input is aaaaabbb. -/
def freqAB : State := { State.reset with freq := setFreq (setFreq State.reset.freq 0x61 5) 0x62 3 }

theorem freqAB_counts : ∀ k : Fin 256, (freqOf freqAB.freq (BitVec.ofNat 8 k)).toNat =
    List.count (BitVec.ofNat 8 k) [0x61#8, 0x61#8, 0x61#8, 0x61#8, 0x61#8, 0x62#8, 0x62#8, 0x62#8] := by decide +kernel

theorem witness_BuildShapeFacts :
    freqAB.fatal = false ∧ 2 = (List.range 256).countP (fun k => freqOf freqAB.freq (BitVec.ofNat 8 k) != 0) ∧ 1 ≤ 2 ∧
      ∀ x, (freqOf freqAB.freq x).toNat =
        List.count x [0x61#8, 0x61#8, 0x61#8, 0x61#8, 0x61#8, 0x62#8, 0x62#8, 0x62#8] :=
  ⟨rfl, by decide +kernel, by decide, fun x => by simpa using freqAB_counts ⟨x.toNat, x.isLt⟩⟩

theorem witness_BuildMergesTheTwoLeast :
    freqAB.fatal = false ∧
      [0x61#8, 0x62#8] = ((List.range 256).map (BitVec.ofNat 8)).filter (fun x => freqOf freqAB.freq x != 0) ∧
      ends (exec .build freqAB) (fun _ => true) = true := by decide +kernel

theorem witness_BuildDependsOnlyOnFreq :
    { freqAB with srcLen := 9 }.freq = freqAB.freq ∧ ends (exec .build freqAB) (fun t => ends (exec .gencodes t) (fun _ => true)) = true ∧
      ends (exec .build { freqAB with srcLen := 9 }) (fun t => ends (exec .gencodes t) (fun _ => true)) = true := by
  decide +kernel

theorem witness_GencodesRecordsLeafPaths :
    heldAB.fatal = false ∧ heldAB.treeState = .valid ∧ heldTree heldAB = some (.node (.leaf 0x61) (.leaf 0x62)) :=
  ⟨rfl, rfl, heldAB_tree⟩

/-- GencodesAtRootLeaf and DecodeAtRootLeaf. -/
theorem witness_root_leaf :
    let s := { withBuffers [0xFF] 3 heldLeaf with symCount := 3 }
    s.fatal = false ∧ memWf s.mem = true ∧ s.treeState = .valid ∧ (nodeAt s.arena s.root).kind = .leaf ∧
      s.srcAddr.toNat + s.srcLen.toNat ≤ 2 ^ 32 ∧ s.dstAddr.toNat + s.dstCap.toNat ≤ 2 ^ 32 ∧
      ¬(0 < s.srcLen.toNat ∧ 0 < s.dstCap.toNat ∧ s.srcAddr.toNat < s.dstAddr.toNat + s.dstCap.toNat ∧
        s.dstAddr.toNat < s.srcAddr.toNat + s.srcLen.toNat) ∧
      s.symCount.toNat ≤ s.dstCap.toNat ∧ s.symCount.toNat ≤ 8 * s.srcLen.toNat ∧
      ReadsOk s s.srcAddr.toNat ((s.symCount.toNat + 7) / 8) ∧ WritesOk s s.dstAddr.toNat s.symCount.toNat :=
  ⟨rfl, by decide +kernel, rfl, by decide +kernel, by decide, by decide, by decide, by decide, by decide,
    fun _ _ => rfl, fun _ _ => rfl⟩

theorem witness_GencodesOfEmptyTree : heldEmpty.fatal = false ∧ heldEmpty.treeState = .empty := by decide

theorem witness_CodesArePrefixFree :
    heldAB.fatal = false ∧ heldAB.treeState = .valid ∧ heldTree heldAB = some (.node (.leaf 0x61) (.leaf 0x62)) ∧
      (CodeTree.node (.leaf 0x61) (.leaf 0x62)).leaves.Nodup ∧
      ends (exec .gencodes heldAB) (fun t => codeOf t.code 0x61 == some [false] && codeOf t.code 0x62 == some [true]) = true :=
  ⟨rfl, rfl, heldAB_tree, by decide, by decide +kernel⟩

theorem witness_CodeLengthIsBounded :
    heldAB.fatal = false ∧ heldAB.treeState = .valid ∧ ArenaIsTree heldAB ∧
      ends (exec .gencodes heldAB) (fun t => codeOf t.code 0x61 == some [false]) = true :=
  ⟨rfl, rfl, heldAB_arena, by decide +kernel⟩

/-- A VALID tree with DST_CAP exactly the stream's length at the top of the DMA space (V-S12), and an EMPTY tree with
DST_CAP = 0 (V-S8). -/
theorem witness_SerializeWritesTheStream :
    (let s := { heldAB with dstAddr := 0xFFFFFFFB, dstCap := 5 };
      s.fatal = false ∧ memWf s.mem = true ∧ s.treeState = .valid ∧
        heldTree s = some (.node (.leaf 0x61) (.leaf 0x62)) ∧
        (CodeTree.node (.leaf 0x61) (.leaf 0x62)).stream.length ≤ s.dstCap.toNat ∧
        s.dstAddr.toNat + s.dstCap.toNat ≤ 2 ^ 32 ∧ WritesOk s s.dstAddr.toNat 5) ∧
    (heldEmpty.treeState = .empty ∧ ([] : List Byte).length ≤ heldEmpty.dstCap.toNat ∧ WritesOk heldEmpty 0 0) :=
  ⟨⟨rfl, rfl, rfl, heldAB_tree, by decide, by decide, fun _ _ => rfl⟩, rfl, by decide, fun _ _ => rfl⟩

theorem witness_SerializeOverflowWritesNothing :
    let s := { heldAB with dstAddr := 0x20000, dstCap := 4 }
    s.fatal = false ∧ s.treeState = .valid ∧ heldTree s = some (.node (.leaf 0x61) (.leaf 0x62)) ∧
      s.dstAddr.toNat + s.dstCap.toNat ≤ 2 ^ 32 ∧
      s.dstCap.toNat < (CodeTree.node (.leaf 0x61) (.leaf 0x62)).stream.length :=
  ⟨rfl, rfl, heldAB_tree, by decide, by decide⟩

/-- BUS_OK is false for a write of the last byte of the stream (SERIALIZE), and of the one payload byte (ENCODE). -/
theorem witness_DestinationWriteBusError :
    (let s := { heldAB with dstAddr := 0x20000, dstCap := 5, busHoles := [{ base := 0x20004, size := 1, dir := .write }] };
      s.fatal = false ∧ s.dstAddr.toNat + s.dstCap.toNat ≤ 2 ^ 32 ∧ s.treeState = .valid ∧
        heldTree s = some (.node (.leaf 0x61) (.leaf 0x62)) ∧
        busOk s.busHoles (s.dstAddr.toNat + 4) .write = false ∧
        4 < (CodeTree.node (.leaf 0x61) (.leaf 0x62)).stream.length ∧
        (CodeTree.node (.leaf 0x61) (.leaf 0x62)).stream.length ≤ s.dstCap.toNat) ∧
    (let s := { withBuffers [0x61, 0x62] 1 codedAB with busHoles := [{ base := 0x20000, size := 1, dir := .write }] };
      s.fatal = false ∧ s.ctValid = true ∧ s.srcAddr.toNat + s.srcLen.toNat ≤ 2 ^ 32 ∧
        s.dstAddr.toNat + s.dstCap.toNat ≤ 2 ^ 32 ∧
        ¬(0 < s.srcLen.toNat ∧ 0 < s.dstCap.toNat ∧ s.srcAddr.toNat < s.dstAddr.toNat + s.dstCap.toNat ∧
          s.dstAddr.toNat < s.srcAddr.toNat + s.srcLen.toNat) ∧
        busOk s.busHoles (s.dstAddr.toNat + 0) .write = false ∧ ReadsOk s s.srcAddr.toNat s.srcLen.toNat ∧
        (bytesAt s.mem s.srcAddr.toNat s.srcLen.toNat).map (codeOf s.code) = [[false], [true]].map some ∧
        ([0x40#8] : List Byte).length = ([[false], [true]].flatten.length + 7) / 8) :=
  ⟨⟨rfl, by decide, rfl, heldAB_tree, by decide, by decide, by decide⟩, rfl, rfl, by decide, by decide, by decide,
    by decide, fun k hk => by
      have : k = 0 ∨ k = 1 := by have : k < 2 := hk; omega
      rcases this with rfl | rfl <;> rfl, by decide +kernel, by decide⟩

theorem witness_DeserializeOfNothing : State.reset.fatal = false ∧ State.reset.srcLen = 0 := by decide

theorem witness_DeserializeRebuildsTheTree :
    let s := withBuffers [0x00, 0x01, 0x61, 0x01, 0x62, 0x07] 0 codedAB
    let tree := CodeTree.node (.leaf 0x61) (.leaf 0x62);
    s.fatal = false ∧ s.srcAddr.toNat + s.srcLen.toNat ≤ 2 ^ 32 ∧ tree.leaves.length ≤ 256 ∧
      tree.stream.length ≤ s.srcLen.toNat ∧ bytesAt s.mem s.srcAddr.toNat tree.stream.length = tree.stream ∧
      ReadsOk s s.srcAddr.toNat tree.stream.length :=
  ⟨rfl, by decide, by decide, by decide, by decide +kernel, fun _ _ => rfl⟩

theorem witness_DeserializedTreeHasTheParsedStream :
    (withBuffers [0x00, 0x01, 0x61, 0x01, 0x62, 0x07] 0 codedAB).fatal = false ∧
      (withBuffers [0x00, 0x01, 0x61, 0x01, 0x62, 0x07] 0 codedAB).srcLen ≠ 0 ∧
      ends (exec .deserialize (withBuffers [0x00, 0x01, 0x61, 0x01, 0x62, 0x07] 0 codedAB)) (fun t => t.errCode == .none) = true := by
  decide +kernel

theorem bytesAt_stored (a : Nat) (l : List Byte) (h : a + l.length ≤ 2 ^ 32) : bytesAt (stored a l) a l.length = l := by
  refine List.ext_getElem (by simp) fun k _ hk => ?_
  simp only [bytesAt, List.getElem_map, List.getElem_range]
  rw [stored, memGet_memFill_inside _ rfl _ h k hk]
  simp [List.getD_eq_getElem?_getD, hk]

theorem itemBytes_length_le (items : List StreamItem) : (itemBytes items).length ≤ 2 * items.length := by
  induction items with
  | nil => simp [itemBytes]
  | cons x items ih =>
    have : (itemBytes (x :: items)).length = x.bytes.length + (itemBytes items).length := by simp [itemBytes]
    rw [this]
    cases x <;> simp only [StreamItem.bytes, List.length_cons, List.length_nil] <;> omega

/-- A source window over unfinished items and then some bytes. -/
theorem stored_begins (items : List StreamItem) (rest : List Byte) (h : Unfinished items) (hl : items.length ≤ 511)
    (hr : rest.length ≤ 4) :
    let s := withBuffers (itemBytes items ++ rest) 0 codedAB
    s.fatal = false ∧ s.srcAddr.toNat + s.srcLen.toNat ≤ 2 ^ 32 ∧
      s.srcLen.toNat = (itemBytes items).length + rest.length ∧ StreamBegins s items ∧
      bytesAt s.mem (s.srcAddr.toNat + (itemBytes items).length) rest.length = rest := by
  intro s
  have hi := itemBytes_length_le items
  have hs : s.srcLen.toNat = (itemBytes items).length + rest.length := by
    show (BitVec.ofNat 32 (itemBytes items ++ rest).length).toNat = _
    rw [List.length_append, BitVec.toNat_ofNat]; omega
  have ha : s.srcAddr.toNat = 0x10000 := rfl
  have hb := bytesAt_stored 0x10000 (itemBytes items ++ rest) (by rw [List.length_append]; omega)
  rw [List.length_append] at hb
  obtain ⟨h1, h2⟩ := bytesAt_split hb
  exact ⟨rfl, by omega, hs, ⟨h, hl, by omega, h1, fun _ _ => rfl⟩, h2⟩

/-- DeserializeFormatErrors' hypotheses. -/
def FormatErrorHypotheses (s : State) (c : ErrCode) (items : List StreamItem) : Prop :=
  let pos := (itemBytes items).length
  let tag := (memGet s.mem (s.srcAddr.toNat + pos)).toNat
  let tagRead := pos < s.srcLen.toNat ∧ busOk s.busHoles (s.srcAddr.toNat + pos) .read = true
  s.fatal = false ∧ s.srcAddr.toNat + s.srcLen.toNat ≤ 2 ^ 32 ∧ 0 < s.srcLen.toNat ∧ StreamBegins s items ∧
    (c = .fmtTruncated ∧ (s.srcLen.toNat = pos ∨ s.srcLen.toNat = pos + 1 ∧ tagRead ∧ tag = 1 ∧ items.length < 511) ∨
      c = .fmtBadTag ∧ tagRead ∧ 2 ≤ tag ∨
      c = .fmtCapacity ∧ tagRead ∧ tag < 2 ∧ items.length = 511)

/-- A window that ends with the items. -/
theorem cut_after_items (items : List StreamItem) (h : Unfinished items) (hl : items.length ≤ 511) (h0 : items ≠ []) :
    FormatErrorHypotheses (withBuffers (itemBytes items ++ []) 0 codedAB) .fmtTruncated items := by
  obtain ⟨h1, h2, h3, h4, _⟩ := stored_begins items [] h hl (by simp)
  refine ⟨h1, h2, ?_, h4, .inl ⟨rfl, .inl h3⟩⟩
  rw [h3]
  cases items with
  | nil => exact absurd rfl h0
  | cons x _ => cases x <;> simp [itemBytes, StreamItem.bytes]

/-- A window that goes on after the items with one byte. -/
theorem byte_after_items (items : List StreamItem) (v : Byte) (c : ErrCode) (h : Unfinished items) (hl : items.length ≤ 511)
    (hc : c = .fmtTruncated ∧ v.toNat = 1 ∧ items.length < 511 ∨ c = .fmtBadTag ∧ 2 ≤ v.toNat ∨
      c = .fmtCapacity ∧ v.toNat < 2 ∧ items.length = 511) :
    FormatErrorHypotheses (withBuffers (itemBytes items ++ [v]) 0 codedAB) c items := by
  obtain ⟨h1, h2, h3, h4, h5⟩ := stored_begins items [v] h hl (by simp)
  obtain ⟨h6, _⟩ := bytesAt_cons h5
  simp only [List.length_cons, List.length_nil] at h3
  refine ⟨h1, h2, by omega, h4, ?_⟩
  simp only [h6]
  rcases hc with ⟨rfl, e1, e2⟩ | ⟨rfl, e⟩ | ⟨rfl, e1, e2⟩
  · exact .inl ⟨rfl, .inr ⟨h3, ⟨by omega, rfl⟩, e1, e2⟩⟩
  · exact .inr (.inl ⟨rfl, ⟨by omega, rfl⟩, e⟩)
  · exact .inr (.inr ⟨rfl, ⟨by omega, rfl⟩, e1, e2⟩)

/-- The 511 nodes that V-D11 begins. -/
def itemsD11 : List StreamItem :=
  ((List.range 255).flatMap fun k => [.internal, .leaf (BitVec.ofNat 8 k)]) ++ [.internal]

/-- V-D4 and V-D11b (the stream ends), a leaf tag at the end of the window, V-D2 and V-D5 (no tag), V-D11 (capacity). -/
theorem witness_DeserializeFormatErrors :
    FormatErrorHypotheses (withBuffers [0x00, 0x01, 0x41] 0 codedAB) .fmtTruncated [.internal, .leaf 0x41] ∧
    FormatErrorHypotheses (withBuffers (itemBytes itemsD11 ++ []) 0 codedAB) .fmtTruncated itemsD11 ∧
    FormatErrorHypotheses (withBuffers [0x00, 0x01] 0 codedAB) .fmtTruncated [.internal] ∧
    FormatErrorHypotheses (withBuffers [0x02] 0 codedAB) .fmtBadTag [] ∧
    FormatErrorHypotheses (withBuffers [0x00, 0x01, 0x41, 0x05] 0 codedAB) .fmtBadTag [.internal, .leaf 0x41] ∧
    FormatErrorHypotheses (withBuffers (itemBytes itemsD11 ++ [0x01]) 0 codedAB) .fmtCapacity itemsD11 := by
  have hu : Unfinished itemsD11 := by unfold Unfinished; decide +kernel
  have hl : itemsD11.length = 511 := by decide +kernel
  exact ⟨cut_after_items [.internal, .leaf 0x41] rfl (by decide) (by decide),
    cut_after_items _ hu (by omega) (by intro e; rw [e] at hl; cases hl),
    byte_after_items [.internal] 0x01 _ rfl (by decide) (.inl (by decide)),
    byte_after_items [] 0x02 _ rfl (by decide) (.inr (.inl (by decide))),
    byte_after_items [.internal, .leaf 0x41] 0x05 _ rfl (by decide) (.inr (.inl (by decide))),
    byte_after_items _ 0x01 _ hu (by omega) (.inr (.inr ⟨rfl, by decide, hl⟩))⟩

theorem witness_LoneInternalTagIsTruncated :
    let s := withBuffers [0x00] 0 codedAB
    s.fatal = false ∧ s.srcLen = 1 ∧ memGet s.mem s.srcAddr.toNat = 0 ∧ busOk s.busHoles s.srcAddr.toNat .read = true := by
  decide

/-- A format error; then a tag that cannot be read (V-D16), and a leaf's symbol that cannot. -/
theorem witness_DeserializeErrorLosesTheTree :
    ((withBuffers [0x02] 0 codedAB).fatal = false ∧
      ends (exec .deserialize (withBuffers [0x02] 0 codedAB)) (fun t => t.errCode != .none && t.errCode != .addrRange) = true) ∧
    (let s := { withBuffers [0x00, 0x01, 0x61, 0x01, 0x62] 0 codedAB with
                busHoles := [{ base := 0x10001, size := 1, dir := .read }] };
      s.fatal = false ∧ s.srcAddr.toNat + s.srcLen.toNat ≤ 2 ^ 32 ∧ StreamBegins s [.internal] ∧ 1 < s.srcLen.toNat ∧
        busOk s.busHoles (s.srcAddr.toNat + 1) .read = false) ∧
    (let s := { withBuffers [0x00, 0x01, 0x61, 0x01, 0x62] 0 codedAB with
                busHoles := [{ base := 0x10002, size := 1, dir := .read }] };
      StreamBegins s [.internal] ∧ 1 + 1 < s.srcLen.toNat ∧ busOk s.busHoles (s.srcAddr.toNat + 1) .read = true ∧
        memGet s.mem (s.srcAddr.toNat + 1) = 0x01 ∧ busOk s.busHoles (s.srcAddr.toNat + (1 + 1)) .read = false) := by
  have one : ∀ {P : Nat → Prop}, P 0 → ∀ k, k < (itemBytes [.internal]).length → P k := fun h k hk => by
    have : k = 0 := by simpa [itemBytes, StreamItem.bytes] using hk
    exact this ▸ h
  exact ⟨by decide +kernel,
    ⟨rfl, by decide, ⟨rfl, by decide, by decide, by decide +kernel, one (by decide)⟩, by decide, by decide⟩,
    ⟨rfl, by decide, by decide, by decide +kernel, one (by decide)⟩, by decide, by decide, by decide +kernel, by decide⟩

theorem witness_EncodeWritesThePackedCodes :
    let s := withBuffers [0x61, 0x62, 0x62] 1 codedAB
    let codes : List Bits := [[false], [true], [true]]
    s.fatal = false ∧ memWf s.mem = true ∧ s.ctValid = true ∧ s.srcAddr.toNat + s.srcLen.toNat ≤ 2 ^ 32 ∧
      s.dstAddr.toNat + s.dstCap.toNat ≤ 2 ^ 32 ∧
      ¬(0 < s.srcLen.toNat ∧ 0 < s.dstCap.toNat ∧ s.srcAddr.toNat < s.dstAddr.toNat + s.dstCap.toNat ∧
        s.dstAddr.toNat < s.srcAddr.toNat + s.srcLen.toNat) ∧
      ReadsOk s s.srcAddr.toNat s.srcLen.toNat ∧
      (bytesAt s.mem s.srcAddr.toNat s.srcLen.toNat).map (codeOf s.code) = codes.map some ∧
      (codes.flatten.length + 7) / 8 ≤ s.dstCap.toNat ∧ WritesOk s s.dstAddr.toNat ((codes.flatten.length + 7) / 8) :=
  ⟨rfl, by decide +kernel, rfl, by decide, by decide, by decide, fun _ _ => rfl, by decide +kernel, by decide, fun _ _ => rfl⟩

/-- A read that fails; then a symbol with no code; then nine bits for one byte. -/
theorem witness_EncodeErrorOrder :
    (let s := { withBuffers [0x61] 1 codedAB with busHoles := [{ base := 0x10000, size := 1, dir := .read }] };
      s.fatal = false ∧ s.ctValid = true ∧ s.srcAddr.toNat + s.srcLen.toNat ≤ 2 ^ 32 ∧
        s.dstAddr.toNat + s.dstCap.toNat ≤ 2 ^ 32 ∧
        ¬(0 < s.srcLen.toNat ∧ 0 < s.dstCap.toNat ∧ s.srcAddr.toNat < s.dstAddr.toNat + s.dstCap.toNat ∧
          s.dstAddr.toNat < s.srcAddr.toNat + s.srcLen.toNat) ∧
        0 < s.srcLen.toNat ∧ busOk s.busHoles (s.srcAddr.toNat + 0) .read = false) ∧
    (let s := withBuffers [0x61, 0x63] 0 codedAB;
      1 < s.srcLen.toNat ∧ ReadsOk s s.srcAddr.toNat s.srcLen.toNat ∧
        codeOf s.code (memGet s.mem (s.srcAddr.toNat + 1)) = none) ∧
    (let s := withBuffers (List.replicate 9 0x61) 1 codedAB;
      ReadsOk s s.srcAddr.toNat s.srcLen.toNat ∧
        (bytesAt s.mem s.srcAddr.toNat s.srcLen.toNat).map (codeOf s.code) = (List.replicate 9 [false]).map some ∧
        8 * s.dstCap.toNat < (List.replicate 9 [false]).flatten.length) :=
  ⟨⟨rfl, rfl, by decide, by decide, by decide, by decide, by decide⟩,
    ⟨by decide, fun _ _ => rfl, by decide +kernel⟩, fun _ _ => rfl, by decide +kernel, by decide⟩

theorem witness_DecodeInvertsTheCodes :
    let s := { withBuffers [0x07] 8 heldAB with symCount := 8 }
    let tree := CodeTree.node (.leaf 0x61) (.leaf 0x62);
    let symbols : List Byte := [0x61, 0x61, 0x61, 0x61, 0x61, 0x62, 0x62, 0x62]
    let b : Bits := [false, false, false, false, false, true, true, true]
    s.fatal = false ∧ memWf s.mem = true ∧ s.treeState = .valid ∧ heldTree s = some tree ∧ tree.bits symbols = some b ∧
      s.srcAddr.toNat + s.srcLen.toNat ≤ 2 ^ 32 ∧ s.dstAddr.toNat + s.dstCap.toNat ≤ 2 ^ 32 ∧
      ¬(0 < s.srcLen.toNat ∧ 0 < s.dstCap.toNat ∧ s.srcAddr.toNat < s.dstAddr.toNat + s.dstCap.toNat ∧
        s.dstAddr.toNat < s.srcAddr.toNat + s.srcLen.toNat) ∧
      s.symCount.toNat = symbols.length ∧ symbols.length ≤ s.dstCap.toNat ∧ b.length ≤ 8 * s.srcLen.toNat ∧
      ReadsOk s s.srcAddr.toNat ((b.length + 7) / 8) ∧ WritesOk s s.dstAddr.toNat symbols.length ∧
      ∀ k, k < b.length → payloadBit s.mem s.srcAddr.toNat k = b.getD k false :=
  ⟨rfl, by decide +kernel, rfl, heldAB_tree, by decide +kernel, by decide, by decide, by decide, by decide, by decide,
    by decide, fun _ _ => rfl, fun _ _ => rfl, by decide +kernel⟩

/-- ENCODE of "ab" in one state, DECODE of its payload 40 in another. -/
theorem witness_DecodeUndoesEncode :
    let s := withBuffers [0x61, 0x62] 1 codedAB
    let u := { heldAB with mem := stored 0x10000 [0x40], srcAddr := 0x10000, srcLen := 1, dstAddr := 0x20000, dstCap := 2,
                           symCount := 2 }
    memWf s.mem = true ∧ memWf u.mem = true ∧ CodesFollowTree s ∧ (∃ tree, heldTree s = some tree) ∧ u.fatal = false ∧
      u.treeState = s.treeState ∧ u.root = s.root ∧ u.arena = s.arena ∧ s.treeState ≠ .none ∧ u.symCount = s.srcLen ∧
      u.symCount.toNat ≤ u.dstCap.toNat ∧ u.srcAddr.toNat + u.srcLen.toNat ≤ 2 ^ 32 ∧
      u.dstAddr.toNat + u.dstCap.toNat ≤ 2 ^ 32 ∧
      ¬(0 < u.srcLen.toNat ∧ 0 < u.dstCap.toNat ∧ u.srcAddr.toNat < u.dstAddr.toNat + u.dstCap.toNat ∧
        u.dstAddr.toNat < u.srcAddr.toNat + u.srcLen.toNat) ∧
      WritesOk u u.dstAddr.toNat u.symCount.toNat ∧
      ∃ t, exec .encode s = .next t ∧ t.errCode = .none ∧ t.outLen.toNat ≤ u.srcLen.toNat ∧
        bytesAt u.mem u.srcAddr.toNat t.outLen.toNat = bytesAt t.mem s.dstAddr.toNat t.outLen.toNat ∧
        ReadsOk u u.srcAddr.toNat t.outLen.toNat := by
  obtain ⟨t, h, p⟩ := of_ends (o := exec .encode (withBuffers [0x61, 0x62] 1 codedAB))
    (p := fun t => t.errCode == .none && t.outLen == 1 && memGet t.mem 0x20000 == 0x40) (by decide +kernel)
  simp only [Bool.and_eq_true, beq_iff_eq] at p
  obtain ⟨⟨p1, p2⟩, p3⟩ := p
  refine ⟨by decide +kernel, by decide +kernel, fun _ => by decide +kernel, ⟨_, heldAB_tree⟩, rfl, rfl, rfl, rfl, by decide, rfl,
    by decide, by decide, by decide, by decide, fun _ _ => rfl, t, h, p1, by rw [p2], ?_, fun _ _ => rfl⟩
  rw [p2]
  show [memGet (stored 0x10000 [0x40]) 0x10000] = [memGet t.mem 0x20000]
  rw [p3]
  decide +kernel

theorem witness_DecodeOfNoSymbols :
    heldAB.fatal = false ∧ heldAB.treeState ≠ .none ∧ heldEmpty.treeState ≠ .none ∧ heldAB.symCount = 0 ∧
      heldAB.srcAddr.toNat + heldAB.srcLen.toNat ≤ 2 ^ 32 ∧ heldAB.dstAddr.toNat + heldAB.dstCap.toNat ≤ 2 ^ 32 ∧
      ¬(0 < heldAB.srcLen.toNat ∧ 0 < heldAB.dstCap.toNat ∧
        heldAB.srcAddr.toNat < heldAB.dstAddr.toNat + heldAB.dstCap.toNat ∧
        heldAB.dstAddr.toNat < heldAB.srcAddr.toNat + heldAB.srcLen.toNat) := by decide

/-- The arena and the tree of V-D12. -/
def arenaAbra : Vector Node 511 :=
  setNode (setNode (setNode (setNode (setNode (setNode (setNode (setNode (setNode blankArena 0 (Node.internal 1 2 0))
    1 (Node.leaf 0x61 0)) 2 (Node.internal 3 6 0)) 3 (Node.internal 4 5 0)) 4 (Node.leaf 0x63 0)) 5 (Node.leaf 0x64 0))
    6 (Node.internal 7 8 0)) 7 (Node.leaf 0x62 0)) 8 (Node.leaf 0x72 0)

def treeAbra : CodeTree :=
  .node (.leaf 0x61) (.node (.node (.leaf 0x63) (.leaf 0x64)) (.node (.leaf 0x62) (.leaf 0x72)))

/-- V-D12's tree is held. -/
def heldAbra : State := { State.reset with treeState := .valid, nodeCount := 9, arena := arenaAbra }

/-- What every clause of DecodeRaisesUnderrunOrBusError asks. -/
def DecodeStarts (s : State) : Prop :=
  s.fatal = false ∧ s.treeState = .valid ∧ s.srcAddr.toNat + s.srcLen.toNat ≤ 2 ^ 32 ∧
    s.dstAddr.toNat + s.dstCap.toNat ≤ 2 ^ 32 ∧
    ¬(0 < s.srcLen.toNat ∧ 0 < s.dstCap.toNat ∧ s.srcAddr.toNat < s.dstAddr.toNat + s.dstCap.toNat ∧
      s.dstAddr.toNat < s.srcAddr.toNat + s.srcLen.toNat) ∧
    s.symCount.toNat ≤ s.dstCap.toNat

/-- V-U2 (8 payload bits for 9 symbols); V-U4b (16 bits hold fewer than 11 symbols); a second payload byte that cannot be read
when the ninth symbol needs it; V-U13 (the fourth symbol cannot be written). -/
theorem witness_DecodeRaisesUnderrunOrBusError :
    (let s := { withBuffers [0x07] 9 heldAB with symCount := 9 };
      DecodeStarts s ∧ ReadsOk s s.srcAddr.toNat s.srcLen.toNat ∧ 8 * s.srcLen.toNat < s.symCount.toNat ∧
        WritesOk s s.dstAddr.toNat s.dstCap.toNat) ∧
    (let s := { withBuffers [0x6E, 0x8A] 11 heldAbra with symCount := 11 };
      DecodeStarts s ∧ ReadsOk s s.srcAddr.toNat s.srcLen.toNat ∧ heldTree s = some treeAbra ∧ 10 < s.symCount.toNat ∧
        WritesOk s s.dstAddr.toNat 10 ∧
        treeAbra.readSymbols (10 + 1) (payloadBits s.mem s.srcAddr.toNat (8 * s.srcLen.toNat)) = none) ∧
    (let s := { withBuffers [0x07, 0x00] 9 heldAB with
                symCount := 9, busHoles := [{ base := 0x10001, size := 1, dir := .read }] };
      let tree := CodeTree.node (.leaf 0x61) (.leaf 0x62);
      DecodeStarts s ∧ heldTree s = some tree ∧ 1 < s.srcLen.toNat ∧ 8 < s.symCount.toNat ∧ ReadsOk s s.srcAddr.toNat 1 ∧
        WritesOk s s.dstAddr.toNat 8 ∧ tree.readSymbols (8 + 1) (payloadBits s.mem s.srcAddr.toNat (8 * 1)) = none ∧
        busOk s.busHoles (s.srcAddr.toNat + 1) .read = false) ∧
    (let s := { withBuffers [0x07] 8 heldAB with
                symCount := 8, busHoles := [{ base := 0x20003, size := 1, dir := .write }] };
      let tree := CodeTree.node (.leaf 0x61) (.leaf 0x62);
      DecodeStarts s ∧ heldTree s = some tree ∧ 4 ≤ 8 * s.srcLen.toNat ∧ 3 < s.symCount.toNat ∧
        ReadsOk s s.srcAddr.toNat ((4 + 7) / 8) ∧ WritesOk s s.dstAddr.toNat 3 ∧
        tree.readSymbols (3 + 1) (payloadBits s.mem s.srcAddr.toNat 4) = some ([0x61, 0x61, 0x61, 0x61], []) ∧
        busOk s.busHoles (s.dstAddr.toNat + 3) .write = false) := by
  have lt : ∀ {P : Nat → Prop} {n : Nat}, (∀ k : Fin n, P k) → ∀ k, k < n → P k := fun h k hk => h ⟨k, hk⟩
  exact ⟨⟨by unfold DecodeStarts; decide, fun _ _ => rfl, by decide, fun _ _ => rfl⟩,
    ⟨by unfold DecodeStarts; decide, fun _ _ => rfl, by decide +kernel, by decide, fun _ _ => rfl, by decide +kernel⟩,
    ⟨by unfold DecodeStarts; decide, heldAB_tree, by decide, by decide, lt (by decide), lt (by decide), by decide +kernel,
      by decide⟩,
    by unfold DecodeStarts; decide, heldAB_tree, by decide, by decide, lt (by decide), lt (by decide), by decide +kernel,
    by decide⟩

-- Seven symbols of 07 leave one bit unread; 06 differs from 07 in that bit alone (V-U4d's case).
theorem witness_DecodeIgnoresUnreadBits :
    let s := { withBuffers [0x07] 8 heldAB with symCount := 7 }
    memWf s.mem = true ∧ memWf (stored 0x10000 [0x06]) = true ∧ s.fatal = false ∧
      (∀ k, k < 7 → payloadBit (stored 0x10000 [0x06]) s.srcAddr.toNat k = payloadBit s.mem s.srcAddr.toNat k) ∧
      ∃ t, exec .decode s = .next t ∧ t.errCode = .none ∧ t.pad = 1 ∧ t.inUsed = 1 := by
  refine ⟨by decide +kernel, by decide +kernel, rfl, by decide +kernel, ?_⟩
  obtain ⟨t, h, p⟩ := of_ends (o := exec .decode { withBuffers [0x07] 8 heldAB with symCount := 7 })
    (p := fun t => t.errCode == .none && t.pad == 1 && t.inUsed == 1) (by decide +kernel)
  simp only [Bool.and_eq_true, beq_iff_eq] at p
  exact ⟨t, h, p.1.1, p.1.2, p.2⟩

theorem witness_HardwareReset : { State.reset with inReset := true }.inReset = true ∧
    (busy 1 State.reset).pending = some (encode .build) ∧ Instr.build ≠ .serialize := by decide

theorem witness_ResetValues :
    (∃ t, step { heldAB with inputs := [.resetAssert] } = .next t ∧ t ≠ State.reset) ∧ heldAB.pending = none := by
  obtain ⟨t, h, p⟩ := of_ends (o := step { heldAB with inputs := [.resetAssert] }) (p := fun t => t.inReset)
    (by decide +kernel)
  refine ⟨⟨t, h, ?_⟩, rfl⟩
  rintro rfl
  exact absurd p (by decide)

/-- The idle, released state that the register obligations ask for, and every read-only offset range at both ends. -/
theorem witness_StatusAndReadOnlyWrites :
    State.reset.inReset = false ∧ State.reset.pending = none ∧
      ∀ off ∈ [0x0030, 0x0034, 0x0038, 0x0040, 0x0044, 0x2000, 0x3FEC, 0x4000, 0x43FC, 0x5000, 0x6FFC],
        off % 4 = 0 ∧ (off = 0x0030 ∨ off = 0x0034 ∨ off = 0x0038 ∨ off = 0x0040 ∨ off = 0x0044 ∨
          (0x2000 ≤ off ∧ off < 0x3FF0) ∨ (0x4000 ≤ off ∧ off < 0x4400) ∨ (0x5000 ≤ off ∧ off < 0x7000)) := by decide

/-- Both ends of every reserved range of R21. -/
theorem witness_ReservedOffsets :
    State.reset.inReset = false ∧ State.reset.pending = none ∧
      ∀ off ∈ [0x000C, 0x0024, 0x002C, 0x003C, 0x0048, 0x03FC, 0x0800, 0x1FFC, 0x3FF0, 0x3FFC, 0x4400, 0x4FFC, 0x7000, 0x7FFC],
        off % 4 = 0 ∧ (off = 0x000C ∨ (0x0024 ≤ off ∧ off ≤ 0x002C) ∨ off = 0x003C ∨ (0x0048 ≤ off ∧ off ≤ 0x03FC) ∨
          (0x0800 ≤ off ∧ off ≤ 0x1FFC) ∨ (0x3FF0 ≤ off ∧ off ≤ 0x3FFC) ∨ (0x4400 ≤ off ∧ off ≤ 0x4FFC) ∨
          (0x7000 ≤ off ∧ off ≤ 0x7FFC)) := by decide

/-- The neighbours of the reserved ranges are registers of R21. -/
theorem test_register_map_neighbours :
    regAt 0x0008 = .ctrl ∧ regAt 0x0010 = .srcAddr ∧ regAt 0x0020 = .symCount ∧ regAt 0x0030 = .outLen ∧
      regAt 0x0038 = .pad ∧ regAt 0x0040 = .root ∧ regAt 0x0044 = .nodeCount ∧ regAt 0x0400 = .freq 0 ∧
      regAt 0x07FC = .freq 255 ∧ regAt 0x2000 = .node 0 0 ∧ regAt 0x3FEC = .node 510 3 ∧ regAt 0x4000 = .codeLen 0 ∧
      regAt 0x43FC = .codeLen 255 ∧ regAt 0x5000 = .codeBits 0 0 ∧ regAt 0x6FFC = .codeBits 255 7 := by decide

/-- ControlOperandAndFreqWrites and ExactReads. -/
theorem witness_idle_and_released : State.reset.inReset = false ∧ State.reset.pending = none ∧
    (busy 1 State.reset).inReset = false := by decide

/-- An entry below NODE_COUNT and the first at it. -/
theorem witness_ResultAndNodeReadsWhenIdle :
    heldAB.inReset = false ∧ heldAB.pending = none ∧ (2#9).toNat < heldAB.nodeCount.toNat ∧
      heldAB.nodeCount.toNat ≤ (3#9).toNat ∧ (510#9).toNat < 511 := by decide

/-- A symbol with a code, one without, and a table that is not valid. -/
theorem witness_CodeWindowReadsWhenIdle :
    codedAB.inReset = false ∧ codedAB.pending = none ∧ codedAB.ctValid = true ∧ codeOf codedAB.code 0x62 = some [true] ∧
      [true].length ≤ 255 ∧ codeOf codedAB.code 0x63 = none ∧ heldAB.ctValid = false :=
  ⟨rfl, rfl, rfl, codedAB_code.2.1, by decide, codedAB_code.2.2, rfl⟩

theorem witness_BusyReadsAreUnspecified :
    (busy 1 State.reset).inReset = false ∧ (busy 1 State.reset).pending = some 1 ∧
      ∀ off ∈ [0x0030, 0x0044, 0x2000, 0x3FEC, 0x4000, 0x43FC, 0x5000, 0x6FFC], off % 4 = 0 := by decide

theorem witness_OddAccessesAreRefused :
    State.reset.inReset = false ∧ ¬(2 = 4 ∧ 0 % 4 = 0 ∧ 0 < 0x8000) ∧ ¬(4 = 4 ∧ 2 % 4 = 0 ∧ 2 < 0x8000) ∧
      ¬(4 = 4 ∧ 0x8000 % 4 = 0 ∧ 0x8000 < 0x8000) := by decide

/-- ENCODE is pending: the first and last byte of both windows, and the byte after each. -/
theorem witness_WindowRacesAreRefused :
    let s := busy 5 (withBuffers [0x61, 0x62] 1 codedAB)
    s.pending = some (encode .encode) ∧ inPendingSrc s 0x10000 = true ∧ inPendingSrc s 0x10001 = true ∧
      inPendingSrc s 0x10002 = false ∧ inPendingDst s 0x20000 = true ∧ inPendingDst s 0x20001 = false := by decide

/-- StepKeepsTheStateInvariant, StepKeepsCodesFollowingTree, StepKeepsMemoryCanonical. -/
theorem witness_steps_keep :
    StateInvariant heldAB ∧ CodesFollowTree codedAB ∧ memWf (withBuffers [0x61] 1 codedAB).mem = true ∧
      ends (step { heldAB with inputs := cmd .gencodes }) (fun t => t.pending == some 2) = true ∧
      ends (step (busy 5 (withBuffers [0x61] 1 codedAB))) (fun t => t.done && !t.err) = true :=
  ⟨heldAB_invariant, fun _ => by decide +kernel, by decide +kernel, by decide +kernel, by decide +kernel⟩

theorem witness_StepKeepsHeldInReset :
    HeldInReset { State.reset with inReset := true } ∧
      ends (step { State.reset with inReset := true, inputs := [.host (.memWrite 0x10000 0x61)] }) (fun t => t.inReset) = true :=
  ⟨fun _ => rfl, by decide +kernel⟩

end Sys2Proof.Tests.Slice0
end

section
/-! # The state (10_state.md)

The statements of 10_state.md. What a command, and then a step, can do to the tree and the code table is said once
(`exec_treeChange`, `step_treeChange`), and so is what a step can do to FATAL (`step_fatal_cases`); the invariants of R31 and
R44 follow from these. HOST's register accesses go through `hostRead_exact` and the register map. -/

namespace Sys2Proof.Machine

/-! ### What a command can do to the tree and the code table -/

/-- Both states hold the same tree (R30, R33). -/
def SameTree (s t : State) : Prop :=
  t.treeState = s.treeState ∧ t.root = s.root ∧ t.nodeCount = s.nodeCount ∧ t.arena = s.arena

/-- Everything a move from `s` to `t` can do to the tree and the code table. -/
inductive TreeChange (s t : State) : Prop where
  /-- Tree and code table stay. -/
  | kept (tree : SameTree s t) (code : t.code = s.code) (ctValid : t.ctValid = s.ctValid)
  /-- GENCODES derives the table from the tree held. -/
  | coded (tree : SameTree s t) (held : t.treeState ≠ .none)
      (codes : deriveCodes t.treeState t.root t.arena = some t.code)
  /-- No VALID tree is left, and no table. -/
  | lost (ctValid : t.ctValid = false) (treeState : t.treeState ≠ .valid) (nodeCount : t.nodeCount = 0) (root : t.root = 0)
  /-- BUILD or DESERIALIZE puts a new tree in place of the old one. -/
  | replaced (ctValid : t.ctValid = false) (treeState : t.treeState = .valid) (tree : ArenaIsTree t)

theorem TreeChange.of_inputs {s t : State} {l : List Event} : TreeChange { s with inputs := l } t → TreeChange s t
  | .kept tree code ctValid => .kept tree code ctValid
  | .coded tree held codes => .coded tree held codes
  | .lost ctValid treeState nodeCount root => .lost ctValid treeState nodeCount root
  | .replaced ctValid treeState tree => .replaced ctValid treeState tree

/-- The arena BUILD leaves is one tree (41 R122, R124). -/
theorem arenaIsTree_of_growTree {t : State} {freq : Vector Word 256} (h0 : 0 < (alphabet freq).length)
    (ha : t.arena = (growTree freq).arena) (hn : t.nodeCount = BitVec.ofNat 9 (growTree freq).next)
    (hr : t.root = BitVec.ofNat 9 ((growTree freq).next - 1)) : ArenaIsTree t := by
  obtain ⟨grown, -, hone, -⟩ := growTree_spec freq h0
  have hlt := grown.next_lt h0
  refine grown_arenaIsTree grown hone h0 ha ?_ ?_
  · rw [hn, ofNat9_toNat hlt]
  · rw [hr, ofNat9_toNat (by omega)]

/-- What a successful run does to the tree and the code table, each command by what its run can do. -/
theorem run_ok_treeChange {i : Instr} {s s' : State} {r : Results} (hp : firstFailing (prechecks i s) = none)
    (h : runOf i s = .ok (s', r)) : TreeChange s s' := by
  obtain ⟨-, -, -, -, -, -, -, tree, table, reset⟩ := run_ok_frame h
  cases i with
  | build =>
    rcases runBuild_cases s with ⟨_, h'⟩ | ⟨h0, h'⟩ <;> rw [show runOf .build s = _ from h'] at h <;> cases h
    · exact .lost rfl (by simp) rfl rfl
    · exact .replaced rfl rfl (arenaIsTree_of_growTree h0 rfl rfl rfl)
  | gencodes =>
    rcases runGencodes_cases s with ⟨code, hd, h'⟩ | ⟨_, h'⟩ <;> rw [show runOf .gencodes s = _ from h'] at h <;> cases h
    have held : s.treeState ≠ .none := by
      intro ht
      simp [prechecks, firstFailing, ht] at hp
    exact .coded ⟨rfl, rfl, rfl, rfl⟩ held hd
  | deserialize =>
    rcases runDeserialize_cases s with ⟨_, h'⟩ | ⟨_, tree, a, _, hsize, _, _, hpre, h'⟩ | ⟨_, _, _, _, h'⟩ <;>
      rw [show runOf .deserialize s = _ from h'] at h <;> cases h
    · exact .lost rfl (by simp) rfl rfl
    · exact .replaced rfl rfl (preorderAt_arenaIsTree hpre hsize (ofNat9_toNat (by omega)) rfl)
  | softReset =>
    obtain rfl := reset rfl
    exact .lost rfl (by simp [State.reset]) rfl rfl
  | _ =>
    obtain ⟨code, ctValid⟩ := table (by simp)
    exact .kept (tree (by simp)) code ctValid

/-- An error completion keeps tree and table, or the parse has lost both (40 R108). -/
theorem completeErr_treeChange (i : Option Instr) (c : ErrCode) (w : Bool) (s : State) :
    TreeChange s (completeErr i c w s) := by
  rcases completeErr_cases i c w s with h | ⟨_, h⟩ | ⟨_, h⟩ <;> rw [h]
  · exact .kept ⟨rfl, rfl, rfl, rfl⟩ rfl rfl
  · exact .lost rfl (by simp) rfl rfl
  · exact .kept ⟨rfl, rfl, rfl, rfl⟩ rfl rfl

theorem completeOk_treeChange {s s' : State} (r : Results) : TreeChange s s' → TreeChange s (completeOk r s')
  | .kept tree code ctValid => .kept tree code ctValid
  | .coded tree held codes => .coded tree held codes
  | .lost ctValid treeState nodeCount root => .lost ctValid treeState nodeCount root
  | .replaced ctValid treeState tree => .replaced ctValid treeState tree

theorem exec_treeChange {i : Instr} {s t : State} (h : exec i s = .next t) : TreeChange s t := by
  rw [exec_eq_runCommand] at h
  rcases runCommand_next h with ⟨_, _, rfl⟩ | ⟨c, _, rfl⟩ | ⟨_, hp, ⟨s', r, hr, rfl⟩ | ⟨c, w, _, rfl⟩⟩
  · exact .kept ⟨rfl, rfl, rfl, rfl⟩ rfl rfl
  · exact .kept ⟨rfl, rfl, rfl, rfl⟩ rfl rfl
  · exact completeOk_treeChange r (run_ok_treeChange hp hr)
  · exact completeErr_treeChange _ c w s

/-! ### What a step can do to the tree, the code table and FATAL -/

theorem coreStep_treeChange {s t : State} (h : coreStep s = .next t) : TreeChange s t := by
  rcases coreStep_next h with ⟨rfl, _⟩ | ⟨_, i, _, he⟩ | ⟨_, _, _, _, rfl⟩
  · exact .kept ⟨rfl, rfl, rfl, rfl⟩ rfl rfl
  · exact exec_treeChange he
  · exact .kept ⟨rfl, rfl, rfl, rfl⟩ rfl rfl

/-- What HOST's accesses and the release of reset leave alone: the tree, the table and FATAL; and a block that is idle
afterwards was idle, with the same ERRCODE (46 R231, R232). -/
structure HostFrame (s t : State) : Prop where
  tree : SameTree s t
  code : t.code = s.code
  ctValid : t.ctValid = s.ctValid
  fatal : t.fatal = s.fatal
  idle : t.busy = false → s.busy = false ∧ t.errCode = s.errCode

theorem HostFrame.of_inputs {s t : State} {l : List Event} (h : HostFrame { s with inputs := l } t) : HostFrame s t :=
  ⟨h.tree, h.code, h.ctValid, h.fatal, h.idle⟩

theorem hostRead_hostFrame (off : Nat) (s : State) : HostFrame s (hostRead off s) := by
  obtain ⟨reply, doneSeen, draws, h⟩ := hostRead_eq off s
  rw [h]
  exact ⟨⟨rfl, rfl, rfl, rfl⟩, rfl, rfl, rfl, fun hb => ⟨hb, rfl⟩⟩

theorem hostWrite_hostFrame (off : Nat) (v : Word) (s : State) : HostFrame s (hostWrite off v s) := by
  rcases hostWrite_cases off v s with ⟨_, h⟩ | ⟨hb, h | ⟨_, _, _, _, _, _, _, _, h⟩⟩ <;> rw [h]
  · exact ⟨⟨rfl, rfl, rfl, rfl⟩, rfl, rfl, rfl, fun hb => ⟨hb, rfl⟩⟩
  · exact ⟨⟨rfl, rfl, rfl, rfl⟩, rfl, rfl, rfl, fun ha => by simp [State.busy] at ha⟩
  · exact ⟨⟨rfl, rfl, rfl, rfl⟩, rfl, rfl, rfl, fun _ => ⟨hb, rfl⟩⟩

/-- A step is CORE's move, the assertion of reset, or leaves the block's tree, table and FATAL alone. -/
theorem step_core_or_reset_or_frame {s t : State} (h : step s = .next t) :
    (∃ inputs, coreStep { s with inputs := inputs } = .next t) ∨
      (∃ rest, s.inputs = .resetAssert :: rest ∧ t = assertReset { s with inputs := rest }) ∨ HostFrame s t := by
  cases step_next h with
  | core inputs h => exact .inl ⟨inputs, h⟩
  | read inputs off _ h => subst h; exact .inr (.inr (hostRead_hostFrame off _).of_inputs)
  | write inputs off v _ _ h => subst h; exact .inr (.inr (hostWrite_hostFrame off v _).of_inputs)
  | memRead inputs a h => subst h; exact .inr (.inr ⟨⟨rfl, rfl, rfl, rfl⟩, rfl, rfl, rfl, fun hb => ⟨hb, rfl⟩⟩)
  | memWrite inputs a v h => subst h; exact .inr (.inr ⟨⟨rfl, rfl, rfl, rfl⟩, rfl, rfl, rfl, fun hb => ⟨hb, rfl⟩⟩)
  | resetAssert inputs hi h => exact .inr (.inl ⟨inputs, hi, h⟩)
  | resetRelease inputs h => subst h; exact .inr (.inr ⟨⟨rfl, rfl, rfl, rfl⟩, rfl, rfl, rfl, fun hb => ⟨hb, rfl⟩⟩)

theorem step_treeChange {s t : State} (h : step s = .next t) : TreeChange s t := by
  rcases step_core_or_reset_or_frame h with ⟨inputs, hc⟩ | ⟨rest, _, rfl⟩ | frame
  · exact (coreStep_treeChange hc).of_inputs
  · exact .lost rfl (by simp [assertReset, State.reset]) rfl rfl
  · exact .kept frame.tree frame.code frame.ctValid

/-- What a step does to FATAL: it stays, a command sets or keeps it with a code of R44(d), or one of the two resets clears
it (R32, 60 R243). -/
theorem step_fatal_cases {s t : State} (h : step s = .next t) :
    (t.fatal = s.fatal ∧ (t.busy = false → s.busy = false ∧ t.errCode = s.errCode ∨ t.errCode = .badCmd)) ∨
      (t.fatal = true ∧ (t.errCode = .internalInvariant ∨ t.errCode = .locked)) ∨
      (t.fatal = false ∧
        (s.fatal = false ∨ s.pending = some (encode .softReset) ∨ ∃ rest, s.inputs = .resetAssert :: rest)) := by
  rcases step_core_or_reset_or_frame h with ⟨inputs, hc⟩ | ⟨rest, hi, rfl⟩ | frame
  · rcases coreStep_next hc with ⟨rfl, _⟩ | ⟨_, i, hp, he⟩ | ⟨_, _, _, _, rfl⟩
    · exact .inl ⟨rfl, fun hb => .inl ⟨hb, rfl⟩⟩
    · rcases exec_fatal_cases he with ⟨rfl, hf⟩ | ⟨_, hf, hc⟩ | ⟨hs, hf⟩ | ⟨_, _, hf, hc⟩
      · exact .inr (.inr ⟨hf, .inr (.inl hp)⟩)
      · exact .inr (.inl ⟨hf, .inr hc⟩)
      · exact .inr (.inr ⟨hf, .inl hs⟩)
      · exact .inr (.inl ⟨hf, .inl hc⟩)
    · exact .inl ⟨rfl, fun _ => .inr rfl⟩
  · exact .inr (.inr ⟨rfl, .inr (.inr ⟨rest, hi⟩)⟩)
  · exact .inl ⟨frame.fatal, fun hb => .inl (frame.idle hb)⟩

/-! ### The invariants of R31 and R44 -/

/-- R44(d) is kept by every step. -/
theorem step_keeps_fatal_code {s t : State} (inv : StateInvariant s) (h : step s = .next t) (hf : t.fatal = true)
    (hb : t.busy = false) : t.errCode = .internalInvariant ∨ t.errCode = .locked ∨ t.errCode = .badCmd := by
  rcases step_fatal_cases h with ⟨hsame, hidle⟩ | ⟨_, hc | hc⟩ | ⟨hno, _⟩
  · rcases hidle hb with ⟨hsb, hcode⟩ | hcode
    · rw [hcode]
      exact inv.fatal_code (hsame ▸ hf) hsb
    · exact .inr (.inr hcode)
  · exact .inl hc
  · exact .inr (.inl hc)
  · simp [hno] at hf

/-- Settles O57: R44 (a) to (c) by what a step can do to the tree, (d) by what it can do to FATAL. -/
theorem stepKeepsTheStateInvariant : Obligations.StepKeepsTheStateInvariant := by
  intro s t inv h
  have fatal_code := step_keeps_fatal_code inv h
  cases step_treeChange h with
  | kept tree code ctValid =>
    obtain ⟨htree, hroot, hcount, harena⟩ := tree
    exact stateInvariant_congr inv ctValid htree hcount hroot harena fatal_code
  | coded tree held codes =>
    obtain ⟨htree, hroot, hcount, harena⟩ := tree
    have inv' : StateInvariant { t with ctValid := s.ctValid } :=
      stateInvariant_congr inv rfl htree hcount hroot harena fatal_code
    exact ⟨fun _ => held, inv'.no_tree_is_empty, inv'.valid_is_tree, fatal_code⟩
  | lost ctValid treeState nodeCount root => exact stateInvariant_no_tree ctValid treeState nodeCount root fatal_code
  | replaced ctValid treeState tree =>
    exact ⟨fun hc => by simp [ctValid] at hc, fun hn => absurd treeState hn, fun _ => tree, fatal_code⟩

/-- Settles O58: the only step that makes CT_VALID 1 is GENCODES, which derives the table from the tree held. -/
theorem stepKeepsCodesFollowingTree : Obligations.StepKeepsCodesFollowingTree := by
  intro s t inv h hvalid
  cases step_treeChange h with
  | kept tree code ctValid =>
    obtain ⟨htree, hroot, _, harena⟩ := tree
    rw [htree, hroot, harena, code]
    exact inv (ctValid ▸ hvalid)
  | coded tree held codes => exact codes
  | lost ctValid treeState nodeCount root => simp [ctValid] at hvalid
  | replaced ctValid treeState tree => simp [ctValid] at hvalid

/-- Settles O56: after reset there is no tree, no table and no FATAL, so the premises of R31 and R44 fail. -/
theorem resetMeetsTheInvariants : Obligations.ResetMeetsTheInvariants := by
  refine ⟨stateInvariant_no_tree rfl (by simp [State.reset]) rfl rfl ?_, ?_, fun _ => rfl, reset_mem_wf⟩
  · intro hf; simp [State.reset] at hf
  · intro hc; simp [State.reset] at hc

/-! ### FATAL -/

/-- Settles O16. -/
theorem onlyResetsClearFatal : Obligations.OnlyResetsClearFatal := by
  intro s t h hs ht
  rcases step_fatal_cases h with ⟨hsame, _⟩ | ⟨hset, _⟩ | ⟨_, hno | hreset⟩
  · simp [hsame, hs] at ht
  · simp [hset] at ht
  · simp [hs] at hno
  · exact hreset

/-- Settles O8: the lock comes before the prechecks and the run. -/
theorem lockedCommandsChangeNothingElse : Obligations.LockedCommandsChangeNothingElse := by
  intro i s hf hi
  rw [exec_eq_runCommand, runCommand_locked _ hf hi]

/-! ### What a command leaves alone -/

/-- Settles O13: SOFT_RESET by its one result; every other command by the frames of its run and of the completions. -/
theorem commandsKeepOperandsAndFreq : Obligations.CommandsKeepOperandsAndFreq := by
  intro i s t h
  by_cases hi : i = .softReset
  · subst hi
    rw [execSoftReset_eq] at h
    cases h
    exact ⟨rfl, rfl, rfl, rfl, rfl, fun hne => absurd rfl hne, fun _ => ⟨rfl, rfl, rfl, rfl, rfl, rfl, rfl, freqOf_reset⟩⟩
  · rw [exec_eq_runCommand] at h
    rcases runCommand_next h with ⟨_, _, rfl⟩ | ⟨c, _, rfl⟩ | ⟨_, _, ⟨s', r, hr, rfl⟩ | ⟨c, w, _, rfl⟩⟩
    · simp [hi]
    · simp [hi]
    · obtain ⟨hholes, hinputs, hreply, hseen, hreset, hoperands, -⟩ := run_ok_frame hr
      simp [hi, hholes, hinputs, hreply, hseen, hreset, hoperands hi]
    · have frame := completeErr_frame (some i) c w s
      simp only at frame
      simp [hi, frame]

/-! ### Hardware reset -/

/-- Settles O44: the assertion of reset leaves `State.reset` but for what is not the block's, by `assertReset_eq`. -/
theorem resetValues : Obligations.ResetValues := by
  rintro s t (rfl | h)
  · exact ⟨rfl, rfl, rfl, rfl, rfl, rfl, rfl, rfl, rfl, rfl, rfl, rfl, rfl, freqOf_reset, codeOf_noCodes, rfl,
      fun hne => absurd rfl hne⟩
  · obtain ⟨m, draws, heq, -, hmem, -⟩ := assertReset_eq s
    have ht : t = assertReset s := by simpa [step, nextMove] using h.symm
    rw [ht, heq]
    refine ⟨show State.reset.statusWord = 0 from rfl, rfl, rfl, rfl, rfl, rfl, rfl, rfl, rfl, rfl, rfl, rfl, rfl,
      freqOf_reset, codeOf_noCodes, rfl, fun _ hp => hmem ?_⟩
    simp [pendingUsesDst, State.pendingInstr, hp]

/-! ### The STATUS word (R23, R30, 46 R231) -/

@[simp] theorem flagWord_getElem (b : Bool) {k : Nat} (hk : k < 32) : (flagWord b)[k] = (decide (k = 0) && b) := by
  cases k <;> simp [flagWord]

@[simp] theorem flagWord_getLsbD (b : Bool) (k : Nat) : (flagWord b).getLsbD k = (decide (k = 0) && b) := by
  cases k <;> cases b <;> simp [flagWord]

theorem statusWord_errCode (s : State) : s.statusWord.extractLsb' 8 4 = s.errCode.bits := by
  ext k hk
  interval_cases k <;> simp [State.statusWord]

theorem statusWord_treeState (s : State) : s.statusWord.extractLsb' 16 2 = s.treeState.bits := by
  ext k hk
  interval_cases k <;> simp [State.statusWord]

/-- The reserved bits 7:5, 15:12, 19:18 and 31:21 read 0 (R23, R41). -/
theorem statusWord_reserved (s : State) {k : Nat}
    (h : 5 ≤ k ∧ k < 8 ∨ 12 ≤ k ∧ k < 16 ∨ 18 ≤ k ∧ k < 20 ∨ 21 ≤ k ∧ k < 32) : s.statusWord.getLsbD k = false := by
  rcases h with ⟨lo, hi⟩ | ⟨lo, hi⟩ | ⟨lo, hi⟩ | ⟨lo, hi⟩ <;> interval_cases k <;> simp [State.statusWord]

/-- Settles O46: bit by bit, with the numbers of ERRCODE and TREE_STATE from their tables. -/
theorem statusWordFields : Obligations.StatusWordFields := by
  intro s
  have reserved {lo n : Nat} (h : ∀ k, k < n → s.statusWord.getLsbD (lo + k) = false) :
      s.statusWord.extractLsb' lo n = 0 := by
    ext k hk
    simp [h k hk]
  refine ⟨?_, ?_, ?_, ?_, ?_, reserved fun k hk => statusWord_reserved s (by omega), ?_,
    reserved fun k hk => statusWord_reserved s (by omega), ?_, reserved fun k hk => statusWord_reserved s (by omega), ?_,
    reserved fun k hk => statusWord_reserved s (by omega)⟩
  case refine_6 =>
    rw [statusWord_errCode]
    cases s.errCode <;> rfl
  case refine_7 =>
    rw [statusWord_treeState]
    cases s.treeState <;> rfl
  all_goals simp [State.statusWord, State.busy]

/-! ### HOST's register accesses (R40, R43, 46 R231, R232) -/

/-- Settles O54. -/
theorem oddAccessesAreRefused : Obligations.OddAccessesAreRefused := by
  intro s bytes off v hr hodd
  have hshape : accessShapeOk bytes off = false := by
    rw [Bool.eq_false_iff, Ne, accessShapeOk_iff]
    exact hodd
  rw [step_host, step_host]
  simp [hostStep, hr, hshape]

theorem busy_of_pending_none {s : State} (hp : s.pending = none) : s.busy = false := by simp [State.busy, hp]

/-- A write while idle has the effect of the register written (46 R232). -/
theorem step_regWrite_idle {s : State} (hr : s.inReset = false) (hp : s.pending = none) {off : Nat}
    (ho : off % 4 = 0 ∧ off < 0x8000) (v : Word) :
    step { s with inputs := .host (.regWrite 4 off v) :: s.inputs } = .next (writeReg v s (regAt off)) := by
  rw [step_regWrite hr ho.1 ho.2, hostWrite, busy_of_pending_none hp]
  rfl

/-- A read of a register other than STATUS hands HOST its value, while idle or when it is exact while BUSY (46 R231). -/
theorem step_regRead_exact {s : State} (hr : s.inReset = false) {off : Nat} {r : Reg} (hreg : regAt off = r)
    (ho : off % 4 = 0 ∧ off < 0x8000) (hb : s.busy = false ∨ drawnWhileBusy r = false) (hn : r ≠ .status) :
    step { s with inputs := .host (.regRead 4 off) :: s.inputs } =
      .next { s with reply := some (.reg off (readReg s r)) } := by
  subst hreg
  rw [step_regRead hr ho.1 ho.2, hostRead_exact hb hn]

/-- The result registers, ROOT, NODE_COUNT and the windows are the registers without an exact value while BUSY (R43). -/
theorem drawnWhileBusy_regAt {off : Nat}
    (h : off = 0x0030 ∨ off = 0x0034 ∨ off = 0x0038 ∨ off = 0x0040 ∨ off = 0x0044 ∨ (0x2000 ≤ off ∧ off < 0x3FF0) ∨
      (0x4000 ≤ off ∧ off < 0x4400) ∨ (0x5000 ≤ off ∧ off < 0x7000)) :
    drawnWhileBusy (regAt off) = true ∧ off < 0x8000 := by
  obtain ⟨-, node, codeLen, codeBits⟩ := regAt_regions off
  refine ⟨?_, by omega⟩
  rcases h with rfl | rfl | rfl | rfl | rfl | ⟨lo, hi⟩ | ⟨lo, hi⟩ | ⟨lo, hi⟩
  iterate 5 rfl
  · rw [node lo hi]; rfl
  · rw [codeLen lo hi]; rfl
  · rw [codeBits lo hi]; rfl

/-- The same registers are the read-only ones (R42). -/
theorem writeReg_of_drawnWhileBusy {r : Reg} (h : drawnWhileBusy r = true) (v : Word) (s : State) : writeReg v s r = s := by
  revert h
  cases r <;> simp [drawnWhileBusy, writeReg]

theorem writeStatus_eq (v : Word) (s : State) : writeStatus v s = { s with done := s.done && !v.getLsbD 1 } := by
  unfold writeStatus
  cases v.getLsbD 1 <;> simp

/-- Settles O47. -/
theorem statusAndReadOnlyWrites : Obligations.StatusAndReadOnlyWrites := by
  intro s v off hr hp
  refine ⟨?_, fun h hro => ?_⟩
  · rw [step_regWrite_idle hr hp (by omega), ← writeStatus_eq]
    rfl
  · obtain ⟨hdrawn, hlt⟩ := drawnWhileBusy_regAt hro
    rw [step_regWrite_idle hr hp ⟨h, hlt⟩, writeReg_of_drawnWhileBusy hdrawn]

/-- Settles O48. -/
theorem reservedOffsets : Obligations.ReservedOffsets := by
  intro s v off hr h hres
  have hreg := regAt_reserved h hres
  have ho : off % 4 = 0 ∧ off < 0x8000 := by omega
  refine ⟨step_regRead_exact hr hreg ho (.inr rfl) (by simp), fun hp => ?_⟩
  rw [step_regWrite_idle hr hp ho, hreg]
  rfl

/-- Settles O49. -/
theorem controlOperandAndFreqWrites : Obligations.ControlOperandAndFreqWrites := by
  intro s v x hr hp
  have hx := x.isLt
  have write {off : Nat} (ho : off % 4 = 0 ∧ off < 0x8000) := step_regWrite_idle hr hp ho v
  refine ⟨write (by omega), write (by omega), write (by omega), write (by omega), write (by omega), write (by omega),
    setFreq s.freq x v, ?_, fun y => freqOf_setFreq s.freq x y v⟩
  show step _ = _
  rw [write (by omega), regAt_freq]
  rfl

theorem ctrlWord_eq (s : State) : s.ctrlWord = if s.ie then 1 else 0 := by
  unfold State.ctrlWord
  cases s.ie <;> rfl

/-- Settles O50. -/
theorem exactReads : Obligations.ExactReads := by
  intro s x hr
  have hx := x.isLt
  have read {off : Nat} {r : Reg} (hreg : regAt off = r) (ho : off % 4 = 0 ∧ off < 0x8000)
      (hd : drawnWhileBusy r = false) (hn : r ≠ .status) := step_regRead_exact hr hreg ho (.inr hd) hn
  refine ⟨?_, read (r := .cmd) rfl (by omega) rfl nofun, ?_, read (r := .srcAddr) rfl (by omega) rfl nofun,
    read (r := .srcLen) rfl (by omega) rfl nofun, read (r := .dstAddr) rfl (by omega) rfl nofun,
    read (r := .dstCap) rfl (by omega) rfl nofun, read (r := .symCount) rfl (by omega) rfl nofun,
    read (regAt_freq x) (by omega) rfl nofun⟩
  · rw [step_regRead hr (by omega) (by omega), hostRead_status]
  · rw [← ctrlWord_eq]
    exact read (r := .ctrl) rfl (by omega) rfl nofun

/-- Settles O53. -/
theorem busyReadsAreUnspecified : Obligations.BusyReadsAreUnspecified := by
  intro s w off hr hp h hoff
  obtain ⟨hdrawn, hlt⟩ := drawnWhileBusy_regAt hoff
  rw [step_regRead hr h hlt]
  simp [hostRead, State.busy, hp, hdrawn]

/-! ### The NODE window (R34) -/

theorem nodeWindow_of_lt {s : State} {i : NodeIndex} (h : i.toNat < s.nodeCount.toNat) (k : Nat) :
    nodeWindow s i.toNat k = nodeWord (nodeAt s.arena i) k := by
  simp [nodeWindow, h]

theorem nodeWindow_of_ge {s : State} {i : Nat} (h : s.nodeCount.toNat ≤ i) (k : Nat) : nodeWindow s i k = 0 := by
  simp [nodeWindow, h]

/-- A field of `k` bits and the field above it, as a number. -/
theorem or_shiftLeft_eq_ofNat {a b : Word} {k : Nat} (ha : a.toNat < 2 ^ k) (hb : 2 ^ k * b.toNat < 2 ^ 32) :
    a ||| b <<< k = BitVec.ofNat 32 (a.toNat + 2 ^ k * b.toNat) := by
  have hval : (a ||| b <<< k).toNat = a.toNat + 2 ^ k * b.toNat := by
    rw [BitVec.toNat_or, BitVec.toNat_shiftLeft, Nat.shiftLeft_eq, Nat.mul_comm, Nat.mod_eq_of_lt hb, Nat.or_comm,
      ← Nat.two_pow_add_eq_or_of_lt ha, Nat.add_comm]
  rw [← hval, BitVec.ofNat_toNat, BitVec.setWidth_eq]

theorem nodeWord_zero (n : Node) :
    nodeWord n 0 = BitVec.ofNat 32 ((if n.kind = .leaf then 1 else 0) + 2 ^ 8 * n.sym.toNat) := by
  have hkind : (flagWord n.kind.bit).toNat = if n.kind = .leaf then 1 else 0 := by cases n.kind <;> rfl
  have hsym : (n.sym.setWidth 32).toNat = n.sym.toNat := by simp; omega
  show flagWord n.kind.bit ||| n.sym.setWidth 32 <<< 8 = _
  rw [or_shiftLeft_eq_ofNat (by rw [hkind]; split <;> decide) (by omega), hkind, hsym]

theorem nodeWord_one (n : Node) : nodeWord n 1 = BitVec.ofNat 32 (n.left.toNat + 2 ^ 16 * n.right.toNat) := by
  have hleft : (n.left.setWidth 32).toNat = n.left.toNat := by simp; omega
  have hright : (n.right.setWidth 32).toNat = n.right.toNat := by simp; omega
  show n.left.setWidth 32 ||| n.right.setWidth 32 <<< 16 = _
  rw [or_shiftLeft_eq_ofNat (by omega) (by omega), hleft, hright]

theorem nodeWord_two (n : Node) : nodeWord n 2 = BitVec.ofNat 32 (n.weight.toNat % 2 ^ 32) := by
  show n.weight.extractLsb' 0 32 = _
  apply BitVec.eq_of_toNat_eq
  simp

theorem nodeWord_three (n : Node) : nodeWord n 3 = BitVec.ofNat 32 (n.weight.toNat / 2 ^ 32) := by
  show (n.weight.extractLsb' 32 8).setWidth 32 = _
  have hw := n.weight.isLt
  apply BitVec.eq_of_toNat_eq
  simp [Nat.shiftRight_eq_div_pow]
  omega

/-- Settles O51. -/
theorem resultAndNodeReadsWhenIdle : Obligations.ResultAndNodeReadsWhenIdle := by
  intro s i hr hp hi
  have read {off : Nat} {r : Reg} (hreg : regAt off = r) (ho : off % 4 = 0 ∧ off < 0x8000) (hn : r ≠ .status) :=
    step_regRead_exact hr hreg ho (.inl (busy_of_pending_none hp)) hn
  have readNode (k : Nat) (hk : k < 4) := read (regAt_node hi hk) (by omega) nofun
  simp only [readReg] at readNode
  refine ⟨read (r := .outLen) rfl (by omega) nofun, read (r := .inUsed) rfl (by omega) nofun,
    read (r := .pad) rfl (by omega) nofun, read (r := .root) rfl (by omega) nofun,
    read (r := .nodeCount) rfl (by omega) nofun, fun hge k hk => ?_, fun hlt => ?_⟩
  · rw [← nodeWindow_of_ge hge k]
    exact readNode k hk
  · simp only [nodeWindow_of_lt hlt] at readNode
    rw [← nodeWord_zero, ← nodeWord_one, ← nodeWord_two, ← nodeWord_three]
    exact ⟨readNode 0 (by omega), readNode 1 (by omega), readNode 2 (by omega), readNode 3 (by omega)⟩

/-! ### The CODE_LEN and CODE_BITS windows (R36, R37) -/

theorem codeLenWindow_some {s : State} {x : Byte} {p : Bits} (hc : s.ctValid = true) (hp : codeOf s.code x = some p)
    (hlen : p.length ≤ 255) : codeLenWindow s x = BitVec.ofNat 32 (p.length + 256) := by
  have hmod : p.length % 256 = p.length := by omega
  have hval : (BitVec.ofNat 32 p.length).toNat = p.length := by simp; omega
  have hor := or_shiftLeft_eq_ofNat (a := BitVec.ofNat 32 p.length) (b := 1) (k := 8) (by omega) (by decide)
  rw [hval] at hor
  simp only [codeLenWindow, hp, hc, hmod, if_true]
  exact hor

theorem codeBitsWindow_some {s : State} {x : Byte} {p : Bits} (hc : s.ctValid = true) (hp : codeOf s.code x = some p)
    (w : Nat) : codeBitsWindow s x w = BitVec.ofNat 32 (msbFirst (firstBits 32 (p.drop (32 * w)))) := by
  simp [codeBitsWindow, hp, hc]

/-- Where there is no code, or no valid table, both windows read 0. -/
theorem codeWindows_none {s : State} {x : Byte} (h : s.ctValid = false ∨ codeOf s.code x = none) :
    codeLenWindow s x = 0 ∧ ∀ w, codeBitsWindow s x w = 0 := by
  unfold codeLenWindow codeBitsWindow
  rcases h with hc | hp
  · cases codeOf s.code x <;> simp [hc]
  · simp [hp]

/-- Settles O52: each bit of a CODE_BITS word by `ofNat_msbFirst_getLsbD`. -/
theorem codeWindowReadsWhenIdle : Obligations.CodeWindowReadsWhenIdle := by
  intro s x hr hp
  have hx := x.isLt
  have hb := busy_of_pending_none hp
  have readLen := step_regRead_exact hr (regAt_codeLen x) (by omega) (.inl hb) nofun
  have readBits (w : Nat) (hw : w < 8) := step_regRead_exact hr (regAt_codeBits x hw) (by omega) (.inl hb) nofun
  simp only [readReg] at readLen readBits
  refine ⟨fun p hc hcode hlen => ⟨?_, fun w hw => ⟨_, readBits w hw, fun j hj => ?_⟩⟩, fun hno => ?_⟩
  · rw [← codeLenWindow_some hc hcode hlen]
    exact readLen
  · rw [codeBitsWindow_some hc hcode, ofNat_msbFirst_getLsbD 32 _ hj]
    simp [List.getD_eq_getElem?_getD]
  · obtain ⟨hlen, hbits⟩ := codeWindows_none hno
    simp only [hlen, hbits] at readLen readBits
    exact ⟨readLen, readBits⟩

end Sys2Proof.Machine
end

section
/-! # The DMA space (20_memory.md)

What a command can do to memory is said once (`exec_memChange`), from the runs and the error completion; the canonical form
(R60) and the frame of the destination window (R66, R67) follow from it. HOST's accesses to the windows of a pending command
(R73) go through `inPendingSrc_iff` and `inPendingDst_iff`. -/

namespace Sys2Proof.Machine

/-! ### What a command can do to memory -/

/-- What a command started in `s` can make of the DMA space: bytes change only inside the destination window (R66, R67), and
the canonical form stays (log entry 1). -/
structure MemChange (s : State) (m : List Host.Cell) : Prop where
  outside : SameOutside s.mem m s.dstAddr.toNat s.dstCap.toNat
  canonical : memWf s.mem = true → memWf m = true

theorem MemChange.refl (s : State) : MemChange s s.mem := ⟨fun _ _ => rfl, id⟩

/-- Writes to the first `n` bytes of a destination window that is in range. -/
theorem memChange_of_writes {s : State} {m : List Host.Cell} {n : Nat} (hd : s.dstAddr.toNat + s.dstCap.toNat ≤ 2 ^ 32)
    (hn : n ≤ s.dstCap.toNat) (outside : SameOutside s.mem m s.dstAddr.toNat n)
    (canonical : memWf s.mem = true → s.dstAddr.toNat + n ≤ Config.dmaSize → memWf m = true) : MemChange s m where
  outside x hx := outside x (by omega)
  canonical hw := canonical hw (by unfold Config.dmaSize; omega)

theorem completeErr_memChange (i : Option Instr) (c : ErrCode) (w : Bool) (s : State) :
    MemChange s (completeErr i c w s).mem :=
  ⟨completeErr_mem_outside i c w s, fun hw => completeErr_mem_wf hw i c w⟩

/-- What a successful run does to memory: SERIALIZE, ENCODE and DECODE write OUT_LEN bytes from DST_ADDR on, which the
prechecks and the size checks keep inside the window (40 R104); the other commands write nothing. -/
theorem run_ok_memChange {i : Instr} {s s' : State} {r : Results} (hp : firstFailing (prechecks i s) = none)
    (h : runOf i s = .ok (s', r)) : MemChange s s'.mem := by
  obtain ⟨-, -, -, -, -, -, writesNothing, -⟩ := run_ok_frame h
  cases i with
  | serialize =>
    obtain ⟨-, hd⟩ := serialize_ready hp
    rcases runSerialize_cases s with ⟨_, h'⟩ | ⟨out, _, ⟨_, h'⟩ | ⟨hn, _, m, _, outside, written, h'⟩ | ⟨_, _, h'⟩⟩ <;>
      rw [show runOf .serialize s = _ from h'] at h <;> cases h
    exact memChange_of_writes hd hn outside fun hw hl => (written hw hl).1
  | encode =>
    obtain ⟨-, -, hd, -⟩ := encode_ready hp
    rcases runEncode_cases s with
        ⟨_, h'⟩ | ⟨_, ⟨_, h'⟩ | ⟨b, _, ⟨_, h'⟩ | ⟨hn, _, m, outside, written, h'⟩ | ⟨_, _, h'⟩⟩⟩ <;>
      rw [show runOf .encode s = _ from h'] at h <;> cases h
    exact memChange_of_writes hd hn outside fun hw hl => (written hw hl).1
  | decode =>
    obtain ⟨-, -, hd, -, hn⟩ := decode_ready hp
    rcases runDecode_cases s with ⟨c, _, _, outside, canonical, h'⟩ | ⟨_, _, _, _, h'⟩ <;>
      rw [show runOf .decode s = _ from h'] at h <;> cases h
    exact memChange_of_writes hd hn outside canonical
  | _ =>
    rw [writesNothing (by simp)]
    exact .refl s

theorem exec_memChange {i : Instr} {s t : State} (h : exec i s = .next t) : MemChange s t.mem := by
  rw [exec_eq_runCommand] at h
  rcases runCommand_next h with ⟨_, _, rfl⟩ | ⟨c, _, rfl⟩ | ⟨_, hp, ⟨s', r, hr, rfl⟩ | ⟨c, w, _, rfl⟩⟩
  · exact .refl s
  · exact .refl s
  · rw [completeOk_mem]
    exact run_ok_memChange hp hr
  · exact completeErr_memChange _ c w s

/-- A command without a destination window writes no memory, whether it succeeds or fails (R66). -/
theorem exec_mem_same {i : Instr} (hi : i = .build ∨ i = .gencodes ∨ i = .deserialize ∨ i = .softReset) {s t : State}
    (h : exec i s = .next t) : t.mem = s.mem := by
  have noWindow : usesDst i = false := by rcases hi with rfl | rfl | rfl | rfl <;> rfl
  rw [exec_eq_runCommand] at h
  rcases runCommand_next h with ⟨_, _, rfl⟩ | ⟨c, _, rfl⟩ | ⟨_, _, ⟨s', r, hr, rfl⟩ | ⟨c, w, _, rfl⟩⟩
  · rfl
  · rfl
  · obtain ⟨-, -, -, -, -, -, writesNothing, -⟩ := run_ok_frame hr
    exact writesNothing hi
  · exact completeErr_mem_same (by rintro j ⟨⟩; exact noWindow) c w s

/-! ### The canonical form -/

theorem coreStep_mem_wf {s t : State} (hw : memWf s.mem = true) (h : coreStep s = .next t) : memWf t.mem = true := by
  rcases coreStep_next h with ⟨rfl, _⟩ | ⟨_, i, _, he⟩ | ⟨_, _, _, _, rfl⟩
  · exact hw
  · exact (exec_memChange he).canonical hw
  · exact hw

/-- HOST's register accesses do not touch the DMA space (46 R231, R232). -/
theorem hostRead_mem (off : Nat) (s : State) : (hostRead off s).mem = s.mem := by
  obtain ⟨_, _, _, h⟩ := hostRead_eq off s
  simp [h]

theorem hostWrite_mem (off : Nat) (v : Word) (s : State) : (hostWrite off v s).mem = s.mem := by
  rcases hostWrite_cases off v s with ⟨_, h⟩ | ⟨_, h | ⟨_, _, _, _, _, _, _, _, h⟩⟩ <;> simp [h]

/-- Settles O59: HOST stores at a 32-bit address, a command writes inside its window, and a reset spoils the window only
below 2^32; no other move touches memory. -/
theorem stepKeepsMemoryCanonical : Obligations.StepKeepsMemoryCanonical := by
  intro s t hw h
  cases step_next h with
  | core inputs h => exact coreStep_mem_wf (s := { s with inputs := inputs }) hw h
  | read inputs off _ h => rwa [h, hostRead_mem]
  | write inputs off v _ _ h => rwa [h, hostWrite_mem]
  | memRead inputs a h => rwa [h]
  | memWrite inputs a v h =>
    rw [h]
    exact memSet_wf a.isLt v hw
  | resetAssert inputs _ h =>
    obtain ⟨m, draws, heq, -, -, canonical⟩ := assertReset_eq { s with inputs := inputs }
    rw [h, heq]
    exact canonical hw
  | resetRelease inputs h => rwa [h]

/-! ### The destination window (R66, R67) -/

/-- Settles O12: `exec_memChange` bounds what the commands with a window change, `exec_mem_same` speaks of the others. -/
theorem commandsWriteOnlyTheDestination : Obligations.CommandsWriteOnlyTheDestination := fun _ _ _ h =>
  ⟨(exec_memChange h).outside, fun hi => exec_mem_same hi h⟩

/-- BUS_ERROR on a destination write spoils the window and completes as any error does (R67, 40 R108). -/
theorem finish_writeBusError {i : Instr} (hi : i = .serialize ∨ i = .encode) (s : State) :
    finish i s (.error (.raised .busError true)) = .next (errState .busError (spoilDst s)) := by
  have spoils : spoilsWindow (some i) .busError true = true := by rcases hi with rfl | rfl <;> rfl
  rw [← completeErr_spoils spoils]
  rfl

theorem not_writesOk {s : State} {a n k : Nat} (hk : k < n) (hb : busOk s.busHoles (a + k) .write = false) :
    ¬WritesOk s a n := fun hw => by simp [hw k hk] at hb

theorem runSerialize_writeBusError {s : State} {out : List Byte} (ho : streamOut s = some out)
    (hn : out.length ≤ s.dstCap.toNat) (hw : ¬WritesOk s s.dstAddr.toNat out.length) :
    runSerialize s = .error (.raised .busError true) := by
  rcases runSerialize_cases s with ⟨hnone, _⟩ | ⟨out', hout, h⟩
  · simp [ho] at hnone
  · obtain rfl : out = out' := by simpa [ho] using hout
    rcases h with ⟨hlong, _⟩ | ⟨_, hok, _⟩ | ⟨_, _, h⟩
    · omega
    · exact absurd hok hw
    · exact h

theorem runEncode_writeBusError {s : State} {codes : List Bits} (hr : ReadsOk s s.srcAddr.toNat s.srcLen.toNat)
    (hc : (bytesAt s.mem s.srcAddr.toNat s.srcLen.toNat).map (codeOf s.code) = codes.map some)
    (hn : (codes.flatten.length + 7) / 8 ≤ s.dstCap.toNat)
    (hw : ¬WritesOk s s.dstAddr.toNat ((codes.flatten.length + 7) / 8)) :
    runEncode s = .error (.raised .busError true) := by
  have coded := codeStream_some _ _ _ hc
  rcases runEncode_cases s with ⟨hno, _⟩ | ⟨_, ⟨hnone, _⟩ | ⟨b, hb, h⟩⟩
  · exact absurd hr hno
  · simp [coded] at hnone
  · obtain rfl : codes.flatten = b := by simpa [coded] using hb
    rcases h with ⟨hlong, _⟩ | ⟨_, hok, _⟩ | ⟨_, _, h⟩
    · omega
    · exact absurd hok hw
    · exact h

/-- Settles O28: with every check before the writes passed, the run of either command ends at the address that fails. -/
theorem destinationWriteBusError : Obligations.DestinationWriteBusError := by
  intro s i out k hf hd hn hk hb hcmd
  have hw := not_writesOk hk hb
  have hexec : exec i s = .next (errState .busError (spoilDst s)) := by
    rcases hcmd with ⟨rfl, htree, tree, hheld, rfl⟩ | ⟨rfl, hvalid, hs, hapart, hreads, codes, hcodes, hlen⟩
    · have hout : streamOut s = some tree.stream := by simp [streamOut_eq, htree, hheld]
      rw [execSerialize_run hf (by simp [htree]) hd, runSerialize_writeBusError hout hn hw, finish_writeBusError (.inl rfl)]
    · rw [hlen] at hn hw
      rw [execEncode_run hf hvalid hs hd hapart, runEncode_writeBusError hreads hcodes hn hw,
        finish_writeBusError (.inr rfl)]
  exact ⟨(spoilDst s).mem, (spoilDst s).draws, hexec, spoilDst_outside s⟩

/-! ### HOST's accesses while a command is pending (R73) -/

theorem step_memRead (s : State) (a : Word) :
    step { s with inputs := .host (.memRead a) :: s.inputs } =
      if inPendingDst s a.toNat = true then .refused .hostWindowRace
      else .next { s with reply := some (.mem a (memGet s.mem a.toNat)) } := rfl

theorem step_memWrite (s : State) (a : Word) (v : Byte) :
    step { s with inputs := .host (.memWrite a v) :: s.inputs } =
      if inPendingSrc s a.toNat = true ∨ inPendingDst s a.toNat = true then .refused .hostWindowRace
      else .next { s with mem := memSet s.mem a.toNat v } := by
  simp [step_host, hostStep]

/-- Settles O55. -/
theorem windowRacesAreRefused : Obligations.WindowRacesAreRefused := by
  intro s i a v hp
  have inSrc := inPendingSrc_iff hp a.toNat
  have inDst := inPendingDst_iff hp a.toNat
  simp only [step_memRead, step_memWrite, inSrc, inDst]
  refine ⟨fun hdst => if_pos hdst, fun hrace => if_pos hrace, fun hdst => if_neg hdst, fun hsrc hdst =>
    ⟨memSet s.mem a.toNat v, if_neg (not_or.2 ⟨hsrc, hdst⟩), ?_, ?_⟩⟩
  · exact fun x hx => memGet_memSet_of_ne (by omega) v s.mem
  · exact fun hw => memGet_memSet_same hw a.toNat v

end Sys2Proof.Machine
end

section
/-! # The command word (30_encoding.md)

The words that select a command are the images of `encode` (`decodeWord_ok_iff`). Here that set is said in the other ways the
statements use: by the fields of the word (R80), by the seven numbers of R81, and by byte lanes (R68, R85). -/

namespace Sys2Proof.Machine

/-! ### The words of R81 -/

/-- A command word is RSVD = 0 and its opcode (R80). -/
theorem eq_encode_iff_fields (w : Word) (i : Instr) :
    w = encode i ↔ w.extractLsb' 8 24 = 0 ∧ w.extractLsb' 0 8 = i.opcode := by
  constructor
  · rintro rfl
    exact ⟨BitVec.extractLsb'_append_eq_left, BitVec.extractLsb'_append_eq_right⟩
  · rintro ⟨rsvd, opcode⟩
    have fields : w.extractLsb' 8 24 ++ w.extractLsb' 0 8 = w := BitVec.extractLsb'_append_extractLsb'
    rw [← fields, rsvd, opcode]
    rfl

/-- The rows of the opcode map (R81), in its order. -/
def commands : List Instr := [.build, .gencodes, .serialize, .deserialize, .encode, .decode, .softReset]

theorem mem_commands (i : Instr) : i ∈ commands := by cases i <;> decide

/-- The command words are the seven numbers of R81. -/
theorem mem_opcodeMap_iff (w : Word) :
    w.toNat ∈ [0x01, 0x02, 0x03, 0x04, 0x05, 0x06, 0x0F] ↔ ∃ i, w = encode i := by
  have words : [0x01, 0x02, 0x03, 0x04, 0x05, 0x06, 0x0F] = commands.map fun i => (encode i).toNat := rfl
  simp [words, mem_commands, BitVec.toNat_inj, eq_comm]

/-- The decoder rejects exactly the words that are no command's (R82). -/
theorem decodeWord_reject_iff (w : Word) : (∃ r, decodeWord w = .reject r) ↔ ¬∃ i, w = encode i := by
  cases hd : decodeWord w with
  | ok i => simp [(decodeWord_ok_iff w i).1 hd]
  | reject r => simp [← decodeWord_ok_iff, hd]

/-- Settles O2. -/
theorem decoderIsExactOnAllWords : Obligations.DecoderIsExactOnAllWords := by
  intro w
  refine ⟨fun i => (decodeWord_ok_iff w i).trans (eq_encode_iff_fields w i), ?_⟩
  have rsvd_zero : (∃ i, w = encode i) → w.extractLsb' 8 24 = 0 := fun ⟨i, h⟩ => ((eq_encode_iff_fields w i).1 h).1
  rw [decodeWord_reject_iff, mem_opcodeMap_iff, and_iff_right_of_imp rsvd_zero]

/-- Settles O1: each of the seven words is its command's `encode`. -/
theorem opcodeWordsDecode : Obligations.OpcodeWordsDecode :=
  ⟨decode_encode .build, decode_encode .gencodes, decode_encode .serialize, decode_encode .deserialize,
    decode_encode .encode, decode_encode .decode, decode_encode .softReset⟩

/-! ### Byte lanes -/

/-- The byte lanes of a register word, lane 0 first (20_memory.md R68). -/
def lanes (w : Word) : List Byte :=
  [w.extractLsb' 0 8, w.extractLsb' 8 8, w.extractLsb' 16 8, w.extractLsb' 24 8]

theorem encodeBytes_eq_lanes (i : Instr) : encodeBytes i = lanes (encode i) := rfl

theorem wordOfLanes_extract (w : Word) :
    wordOfLanes (w.extractLsb' 0 8) (w.extractLsb' 8 8) (w.extractLsb' 16 8) (w.extractLsb' 24 8) = w := by
  unfold wordOfLanes
  rw [BitVec.extractLsb'_append_extractLsb'_eq_extractLsb' (by rfl),
    BitVec.extractLsb'_append_extractLsb'_eq_extractLsb' (by rfl),
    BitVec.extractLsb'_append_extractLsb'_eq_extractLsb' (by rfl)]
  exact BitVec.extractLsb'_eq_self

/-- The lanes above the lowest are the lanes of the word without it. -/
theorem extract_above_lane {n : Nat} (a : BitVec n) (b : Byte) (k : Nat) :
    (a ++ b).extractLsb' (k + 8) 8 = a.extractLsb' k 8 := by
  rw [BitVec.extractLsb'_append_eq_of_le (Nat.le_add_left 8 k), Nat.add_sub_cancel]

theorem lanes_wordOfLanes (b0 b1 b2 b3 : Byte) : lanes (wordOfLanes b0 b1 b2 b3) = [b0, b1, b2, b3] := by
  have lane0 : (b3 ++ b2 ++ b1 ++ b0).extractLsb' 0 8 = b0 := BitVec.extractLsb'_append_eq_right
  have lane1 : (b3 ++ b2 ++ b1 ++ b0).extractLsb' 8 8 = b1 := by
    rw [extract_above_lane _ b0 0, BitVec.extractLsb'_append_eq_right]
  have lane2 : (b3 ++ b2 ++ b1 ++ b0).extractLsb' 16 8 = b2 := by
    rw [extract_above_lane _ b0 8, extract_above_lane _ b1 0, BitVec.extractLsb'_append_eq_right]
  have lane3 : (b3 ++ b2 ++ b1 ++ b0).extractLsb' 24 8 = b3 := by
    rw [extract_above_lane _ b0 16, extract_above_lane _ b1 8, BitVec.extractLsb'_append_eq_left]
  simp [lanes, wordOfLanes, lane0, lane1, lane2, lane3]

theorem decodeBytes_lanes (w : Word) : decodeBytes (lanes w) = decodeWord w :=
  congrArg decodeWord (wordOfLanes_extract w)

/-- Lanes decode to a command exactly when they are the lanes of its word (R85). -/
theorem decodeBytes_ok_iff (l : List Byte) (i : Instr) : decodeBytes l = .ok i ↔ l = encodeBytes i := by
  constructor
  · intro h
    unfold decodeBytes at h
    split at h
    · rw [encodeBytes_eq_lanes, ← (decodeWord_ok_iff _ i).1 h, lanes_wordOfLanes]
    · cases h
  · rintro rfl
    rw [encodeBytes_eq_lanes, decodeBytes_lanes, decode_encode]

/-! ### Table words -/

/-- The opcode table numbers the 32 bits of a word as the register does. -/
theorem tableLanes_toNat (w : Word) : tableLanes 32 w.toNat = lanes w := by
  simp only [tableLanes, lanes, BitVec.extractLsb', Nat.mod_eq_of_lt w.isLt, Nat.shiftRight_eq_div_pow, pow_zero,
    Nat.div_one]

theorem decodeTableWord_toNat (w : Word) : decodeTableWord 32 w.toNat = (decodeWord w).toOption := by
  rw [decodeTableWord, tableLanes_toNat, decodeBytes_lanes]

/-- Settles O3: on words, on byte lanes and on table words the decoder answers a command on the command's own word alone. -/
theorem decodeAndEncodeAgree : Obligations.DecodeAndEncodeAgree := by
  refine ⟨fun i => ⟨decode_encode i, (decodeBytes_ok_iff _ i).2 rfl, ?_⟩, fun w i => (decodeWord_ok_iff w i).1,
    fun l i => (decodeBytes_ok_iff l i).1⟩
  rw [decodeTableWord_toNat, decode_encode]
  rfl

/-! ### Illegal words (R84) -/

/-- What a CORE event does, with the event taken from the front. -/
theorem step_core (s : State) : step { s with inputs := .core :: s.inputs } = coreStep s := rfl

/-- A pending word that is no command's completes with BAD_CMD (R82, 40 R103). -/
theorem coreStep_badCmd {s : State} {w : Word} (hr : s.inReset = false) (hp : s.pending = some w)
    (hw : ¬∃ i, w = encode i) : coreStep s = .next (errState .badCmd s) := by
  obtain ⟨r, hd⟩ := (decodeWord_reject_iff w).2 hw
  simp [coreStep, hr, hp, hd, completeErr_badCmd]

/-- Settles O7. -/
theorem illegalWordCompletesBadCmd : Obligations.IllegalWordCompletesBadCmd := by
  intro s w hr hp hw
  rw [mem_opcodeMap_iff] at hw
  rw [step_core]
  exact coreStep_badCmd hr hp hw

end Sys2Proof.Machine
end

section
/-! # The life of a command (40_command_lifecycle.md)

In the order of a command's life: HOST's CMD write (R100, R101), CORE's turn (R102), the prechecks (R104), the completion
(R107 to R109), and DESERIALIZE, the one command whose errors lose the tree (R108). The precheck lists are said once in the
spec's terms (`firstFailing_decode` and its like), and so are the two ways a command completes (`exec_completion`). -/

namespace Sys2Proof.Machine

/-! ### Acceptance (R100, R101) -/

/-- Settles O5: while idle the write is `accept`; while BUSY it only sets WIGN. -/
theorem cmdWriteIsAcceptedWhenIdle : Obligations.CmdWriteIsAcceptedWhenIdle := by
  intro s v hr
  have accepted (hp : s.pending = none) :
      step { s with inputs := .host (.regWrite 4 0x0000 v) :: s.inputs } = .next (accept v s) :=
    step_regWrite_idle hr hp (by decide) v
  refine ⟨accepted, fun w hp => ?_, fun t hp h => ?_⟩
  · have busy : s.busy = true := by simp [State.busy, hp]
    rw [step_regWrite hr (by decide) (by decide), hostWrite, if_pos busy]
  · rw [accepted hp] at h
    cases h
    exact ⟨rfl, rfl⟩

/-! ### CORE's turn (R102) -/

/-- HOST waiting for DONE with a command pending gives CORE the turn (log entry 4). -/
theorem step_waitDone_pending {s : State} {w : Word} {rest : List Event} (hr : s.inReset = false) (hd : s.done = false)
    (hp : s.pending = some w) (hi : s.inputs = .host .waitDone :: rest) : step s = coreStep s := by
  simp [step, nextMove, hi, hostStep, hr, hd, State.busy, hp]

/-- Settles O4: each of the three turns is `coreStep`, which executes the pending command. -/
theorem stepRunsPendingCommand : Obligations.StepRunsPendingCommand := by
  intro s w i hr hp hw
  obtain rfl := (decodeWord_ok_iff w i).1 hw
  have runs := coreStep_exec hr hp
  refine ⟨by rw [step_core, runs], fun hi => ?_, fun hd rest hi => ?_⟩
  · simp [step, nextMove, hi, runs]
  · rw [step_waitDone_pending hr hd hp hi, runs]

/-! ### The prechecks (R104, 20_memory.md R63, R64) -/

theorem srcOutOfRange_iff (s : State) :
    (srcWindow s).inRange = false ↔ 2 ^ 32 < s.srcAddr.toNat + s.srcLen.toNat := by
  rw [← Bool.not_eq_true, srcInRange_iff, not_le]

theorem dstOutOfRange_iff (s : State) :
    (dstWindow s).inRange = false ↔ 2 ^ 32 < s.dstAddr.toNat + s.dstCap.toNat := by
  rw [← Bool.not_eq_true, dstInRange_iff, not_le]

theorem firstFailing_gencodes (s : State) :
    firstFailing (prechecks .gencodes s) = if s.treeState = .none then some .noTree else none := by
  simp only [prechecks, firstFailing, beq_iff_eq]

theorem firstFailing_serialize (s : State) :
    firstFailing (prechecks .serialize s) =
      if s.treeState = .none then some .noTree
      else if 2 ^ 32 < s.dstAddr.toNat + s.dstCap.toNat then some .addrRange
      else none := by
  simp only [prechecks, firstFailing, beq_iff_eq, Bool.not_eq_true', dstOutOfRange_iff]

theorem firstFailing_deserialize (s : State) :
    firstFailing (prechecks .deserialize s) =
      if 2 ^ 32 < s.srcAddr.toNat + s.srcLen.toNat then some .addrRange else none := by
  simp only [prechecks, firstFailing, Bool.not_eq_true', srcOutOfRange_iff]

theorem firstFailing_encode (s : State) :
    firstFailing (prechecks .encode s) =
      if s.ctValid = false then some .noCodes
      else if 2 ^ 32 < s.srcAddr.toNat + s.srcLen.toNat then some .addrRange
      else if 2 ^ 32 < s.dstAddr.toNat + s.dstCap.toNat then some .addrRange
      else if 0 < s.srcLen.toNat ∧ 0 < s.dstCap.toNat ∧ s.srcAddr.toNat < s.dstAddr.toNat + s.dstCap.toNat ∧
          s.dstAddr.toNat < s.srcAddr.toNat + s.srcLen.toNat then some .overlap
      else none := by
  simp only [prechecks, firstFailing, Bool.not_eq_true', srcOutOfRange_iff, dstOutOfRange_iff, overlaps_iff]

theorem firstFailing_decode (s : State) :
    firstFailing (prechecks .decode s) =
      if s.treeState = .none then some .noTree
      else if s.treeState = .empty ∧ 0 < s.symCount.toNat then some .noTree
      else if 2 ^ 32 < s.srcAddr.toNat + s.srcLen.toNat then some .addrRange
      else if 2 ^ 32 < s.dstAddr.toNat + s.dstCap.toNat then some .addrRange
      else if 0 < s.srcLen.toNat ∧ 0 < s.dstCap.toNat ∧ s.srcAddr.toNat < s.dstAddr.toNat + s.dstCap.toNat ∧
          s.dstAddr.toNat < s.srcAddr.toNat + s.srcLen.toNat then some .overlap
      else if s.dstCap.toNat < s.symCount.toNat then some .dstOverflow
      else none := by
  simp only [prechecks, firstFailing, beq_iff_eq, Bool.and_eq_true, decide_eq_true_eq, Bool.not_eq_true',
    srcOutOfRange_iff, dstOutOfRange_iff, overlaps_iff]

/-- BUILD has no precheck and its run raises nothing (R104, 60 R242). -/
theorem execBuild_no_error {s : State} (hf : s.fatal = false) : ∃ t, exec .build s = .next t ∧ t.errCode = .none := by
  rw [execBuild_eq hf]
  rcases runBuild_cases s with ⟨_, h⟩ | ⟨_, h⟩ <;> rw [h] <;> exact ⟨_, rfl, rfl⟩

/-- Settles O9: each clause is one branch of its command's list of prechecks. -/
theorem precheckTable : Obligations.PrecheckTable := by
  intro s hf
  have raises {i : Instr} {c : ErrCode} (h : firstFailing (prechecks i s) = some c) : exec i s = .next (errState c s) := by
    rw [exec_eq_runCommand, runCommand_precheck _ hf h]
  have held (h : s.treeState = .valid ∨ s.treeState = .empty ∧ s.symCount = 0) :
      s.treeState ≠ .none ∧ ¬(s.treeState = .empty ∧ 0 < s.symCount.toNat) := by
    rcases h with h | ⟨h, h0⟩ <;> simp [*]
  dsimp only
  refine ⟨?gencodesNoTree, ?serializeNoTree, ?serializeDst, ?deserializeSrc, ?encodeNoCodes, ?encodeSrc, ?encodeDst,
    ?encodeOverlap, ?decodeNoTree, ?decodeEmpty, ?decodeSrc, ?decodeDst, ?decodeOverlap, ?decodeCap,
    execBuild_no_error hf, _, execSoftReset_eq s, rfl⟩
  case gencodesNoTree => exact fun ht => raises (by rw [firstFailing_gencodes, if_pos ht])
  case serializeNoTree => exact fun ht => raises (by rw [firstFailing_serialize, if_pos ht])
  case serializeDst => exact fun ht hd => raises (by rw [firstFailing_serialize, if_neg ht, if_pos hd])
  case deserializeSrc => exact fun hs => raises (by rw [firstFailing_deserialize, if_pos hs])
  case encodeNoCodes => exact fun hc => raises (by rw [firstFailing_encode, if_pos hc])
  case encodeSrc => exact fun hc hs => raises (by rw [firstFailing_encode, if_neg (by simp [hc]), if_pos hs])
  case encodeDst =>
    exact fun hc hs hd => raises (by rw [firstFailing_encode, if_neg (by simp [hc]), if_neg hs.not_gt, if_pos hd])
  case encodeOverlap =>
    exact fun hc hs hd ho => raises (by
      rw [firstFailing_encode, if_neg (by simp [hc]), if_neg hs.not_gt, if_neg hd.not_gt, if_pos ho])
  case decodeNoTree => exact fun ht => raises (by rw [firstFailing_decode, if_pos ht])
  case decodeEmpty =>
    intro ht hn
    have symbols : 0 < s.symCount.toNat := Nat.pos_of_ne_zero fun h0 => hn (BitVec.eq_of_toNat_eq h0)
    exact raises (by rw [firstFailing_decode, if_neg (by simp [ht]), if_pos ⟨ht, symbols⟩])
  case decodeSrc =>
    exact fun ht hs => raises (by rw [firstFailing_decode, if_neg (held ht).1, if_neg (held ht).2, if_pos hs])
  case decodeDst =>
    exact fun ht hs hd => raises (by
      rw [firstFailing_decode, if_neg (held ht).1, if_neg (held ht).2, if_neg hs.not_gt, if_pos hd])
  case decodeOverlap =>
    exact fun ht hs hd ho => raises (by
      rw [firstFailing_decode, if_neg (held ht).1, if_neg (held ht).2, if_neg hs.not_gt, if_neg hd.not_gt, if_pos ho])
  case decodeCap =>
    exact fun ht hs hd ho hc => raises (by
      rw [firstFailing_decode, if_neg (held ht).1, if_neg (held ht).2, if_neg hs.not_gt, if_neg hd.not_gt, if_neg ho,
        if_pos hc])

/-! ### Completion (R107 to R109) -/

/-- A command completes in one of two ways: successfully, or by an error completion with an error code (R107, R108). -/
theorem exec_completion {i : Instr} {s t : State} (h : exec i s = .next t) :
    (∃ r s', t = completeOk r s') ∨ ∃ c w, c ≠ .none ∧ t = completeErr (some i) c w s := by
  rw [exec_eq_runCommand] at h
  rcases runCommand_next h with ⟨_, _, rfl⟩ | ⟨c, hc, rfl⟩ | ⟨_, _, ⟨s', r, _, rfl⟩ | ⟨c, w, hr, rfl⟩⟩
  · exact .inr ⟨.locked, false, by simp, (completeErr_locked i s).symm⟩
  · refine .inr ⟨c, false, ?_, (completeErr_precheck hc).symm⟩
    rcases precheck_error hc with rfl | rfl | rfl | rfl | ⟨rfl, _⟩ <;> simp
  · exact .inl ⟨r, s', rfl⟩
  · refine .inr ⟨c, w, ?_, rfl⟩
    rintro rfl
    simpa using run_error hr

/-- Settles O10. -/
theorem completionFields : Obligations.CompletionFields := by
  intro i s t h
  rcases exec_completion h with ⟨r, s', rfl⟩ | ⟨c, w, hc, rfl⟩
  · simp [State.busy, State.irq]
  · obtain ⟨done, err, errCode, pending, outLen, inUsed, pad, -⟩ := completeErr_frame (some i) c w s
    simp [State.busy, State.irq, done, err, errCode, pending, outLen, inUsed, pad, hc]

/-- Under R44 SERIALIZE's walk ends (R109). -/
theorem streamOut_of_invariant {s : State} (inv : StateInvariant s) : ∃ out, streamOut s = some out := by
  rw [streamOut_eq]
  by_cases hv : s.treeState = .valid
  · obtain ⟨tree, ht⟩ := heldTree_of_arenaIsTree (inv.valid_is_tree hv)
    exact ⟨tree.stream, by simp [hv, ht]⟩
  · exact ⟨[], if_neg hv⟩

/-- Only the walks of GENCODES and SERIALIZE can be endless, and under R44 they end (R109). -/
theorem run_not_stuck {s : State} (inv : StateInvariant s) (i : Instr) (f : Fault) : runOf i s ≠ .error (.stuck f) := by
  intro h
  cases i with
  | build => rcases runBuild_cases s with ⟨_, h'⟩ | ⟨_, h'⟩ <;> simp [runOf, h'] at h
  | gencodes =>
    obtain ⟨code, hcode⟩ := deriveCodes_of_invariant inv
    simp [runOf, runGencodes, hcode] at h
  | serialize =>
    obtain ⟨out, hout⟩ := streamOut_of_invariant inv
    rcases runSerialize_cases s with ⟨hno, _⟩ | ⟨_, _, ⟨_, h'⟩ | ⟨_, _, _, _, _, _, h'⟩ | ⟨_, _, h'⟩⟩
    · simp [hout] at hno
    all_goals simp [runOf, h'] at h
  | deserialize =>
    rcases runDeserialize_cases s with ⟨_, h'⟩ | ⟨_, _, _, _, _, _, _, _, h'⟩ | ⟨_, _, _, _, h'⟩ <;> simp [runOf, h'] at h
  | encode =>
    rcases runEncode_cases s with ⟨_, h'⟩ | ⟨_, ⟨_, h'⟩ | ⟨_, _, ⟨_, h'⟩ | ⟨_, _, _, _, _, h'⟩ | ⟨_, _, h'⟩⟩⟩ <;>
      simp [runOf, h'] at h
  | decode => rcases runDecode_cases s with ⟨_, _, _, _, _, h'⟩ | ⟨_, _, _, _, h'⟩ <;> simp [runOf, h'] at h
  | softReset => simp [runOf, runSoftReset_eq] at h

/-- A run that ends completes its command. -/
theorem finish_completes (i : Instr) (s : State) {r : Except Halt (State × Results)} (h : ∀ f, r ≠ .error (.stuck f)) :
    ∃ t, finish i s r = .next t := by
  match r with
  | .ok (s', res) => exact ⟨_, rfl⟩
  | .error (.raised c w) => exact ⟨_, rfl⟩
  | .error (.stuck f) => exact absurd rfl (h f)

/-- Settles O11: the lock, a failing precheck, or a run that is not stuck. -/
theorem everyCommandCompletes : Obligations.EveryCommandCompletes := by
  intro i s inv
  by_cases hi : i = .softReset
  · exact ⟨_, hi ▸ execSoftReset_eq s⟩
  rw [exec_eq_runCommand]
  cases hf : s.fatal with
  | true => exact ⟨_, runCommand_locked _ hf hi⟩
  | false =>
    cases hc : firstFailing (prechecks i s) with
    | some c => exact ⟨_, runCommand_precheck _ hf hc⟩
    | none =>
      rw [runCommand_run _ hf hc]
      exact finish_completes i s (run_not_stuck inv i)

/-! ### The errors of DESERIALIZE (R108, 43 R168) -/

/-- An error of the parse completes with the old tree and its codes gone (R108). -/
theorem completeErr_parseError {c : ErrCode}
    (hc : c = .fmtTruncated ∨ c = .fmtBadTag ∨ c = .fmtCapacity ∨ c = .busError) (w : Bool) (s : State) :
    completeErr (some .deserialize) c w s = errState c (dropTree s) := by
  rcases hc with rfl | rfl | rfl | rfl <;> exact completeErr_parse rfl (by simp) w s

/-- Everything DESERIALIZE can complete with while FATAL = 0: success, the precheck's error, or an error of the parse. -/
theorem execDeserialize_cases {s t : State} (hf : s.fatal = false) (h : exec .deserialize s = .next t) :
    t.errCode = .none ∨ t = errState .addrRange s ∨
      ∃ c, (c = .fmtTruncated ∨ c = .fmtBadTag ∨ c = .fmtCapacity ∨ c = .busError) ∧ t = errState c (dropTree s) := by
  rw [exec_eq_runCommand] at h
  rcases runCommand_next h with ⟨hlock, _⟩ | ⟨c, hc, rfl⟩ | ⟨_, _, ⟨s', r, _, rfl⟩ | ⟨c, w, hr, rfl⟩⟩
  · simp [hf] at hlock
  · rw [firstFailing_deserialize] at hc
    split at hc <;> cases hc
    exact .inr (.inl rfl)
  · exact .inl rfl
  · obtain ⟨-, hc⟩ : w = false ∧ (c = .fmtTruncated ∨ c = .fmtBadTag ∨ c = .fmtCapacity ∨ c = .busError) := by
      simpa using run_error hr
    exact .inr (.inr ⟨c, hc, completeErr_parseError hc w s⟩)

/-- A parse that goes on after the given items raises BUS_ERROR when the read of the next tag fails, or the read of the
symbol of a leaf that still has room (43 R168, 20_memory.md R62). -/
theorem runDeserialize_busError {s : State} {items : List StreamItem} (begins : StreamBegins s items)
    (fails : (itemBytes items).length < s.srcLen.toNat ∧
        busOk s.busHoles (s.srcAddr.toNat + (itemBytes items).length) .read = false ∨
      (itemBytes items).length + 1 < s.srcLen.toNat ∧ items.length < 511 ∧
        busOk s.busHoles (s.srcAddr.toNat + (itemBytes items).length) .read = true ∧
        memGet s.mem (s.srcAddr.toNat + (itemBytes items).length) = 0x01 ∧
        busOk s.busHoles (s.srcAddr.toNat + ((itemBytes items).length + 1)) .read = false) :
    runDeserialize s = .error (.raised .busError false) := by
  refine runDeserialize_fails begins (by omega) fun d q hpos hcnt => ?_
  rw [← hpos, ← hcnt] at fails
  rcases fails with ⟨hlt, hbus⟩ | ⟨hlt, hroom, htag, hleaf, hbus⟩
  · exact parseNode_error (nextByte_bus hlt hbus)
  · have tag := nextByte_ok (p := q) (by omega) htag
    rw [hleaf] at tag
    rw [parseNode_leaf tag hroom.ne, nextByte_bus hlt hbus]
    rfl

/-- Settles O34: `execDeserialize_cases` for what every error leaves, `runDeserialize_busError` for the failing reads. -/
theorem deserializeErrorLosesTheTree : Obligations.DeserializeErrorLosesTheTree := by
  refine ⟨fun s t hf h herr hpre => ?_, fun s items hf hs begins fails => ?_⟩
  · rcases execDeserialize_cases hf h with hok | rfl | ⟨c, hc, rfl⟩
    · exact absurd hok herr
    · exact absurd rfl hpre
    · exact ⟨hc, rfl, rfl, rfl, rfl, rfl, hf⟩
  · refine ⟨blankArena, noCodes, ?_⟩
    rw [execDeserialize_run hf hs, runDeserialize_busError begins fails]
    exact congrArg _ (completeErr_parseError (by simp) false s)

end Sys2Proof.Machine
end

section
/-! # The Tree Builder (41_tree_builder.md)

The statements about BUILD. Its two outcomes are said once (`execBuild_cases`); what is said of the arena follows from the
forest invariant `Grown`, which `growTree_spec` gives for the tree of every nonempty alphabet. -/

namespace Sys2Proof.Machine

/-! ### What BUILD does (R122) -/

/-- The two outcomes of BUILD: the EMPTY tree for an empty alphabet, else the grown tree (R122). -/
theorem execBuild_cases {s : State} (hf : s.fatal = false) :
    ((alphabet s.freq).length = 0 ∧
      exec .build s = .next (okState 0 0 0 { s with code := noCodes, ctValid := false, treeState := .empty,
                                                     nodeCount := 0, root := 0, arena := blankArena })) ∨
      (0 < (alphabet s.freq).length ∧
        exec .build s = .next (okState 0 0 0 { s with code := noCodes, ctValid := false, treeState := .valid,
                                                       nodeCount := BitVec.ofNat 9 (growTree s.freq).next,
                                                       root := BitVec.ofNat 9 ((growTree s.freq).next - 1),
                                                       arena := (growTree s.freq).arena })) := by
  rcases runBuild_cases s with ⟨h0, hrun⟩ | ⟨h0, -⟩
  · exact .inl ⟨h0, by rw [execBuild_eq hf, hrun]; rfl⟩
  · exact .inr ⟨h0, execBuild_tree hf h0⟩

theorem alphabet_eq_nil {freq : Vector Word 256} (h : ∀ x, freqOf freq x = 0) : alphabet freq = [] := by
  simp [alphabet, h]

/-- Settles O17: with every FREQ entry 0 the alphabet is empty, the first outcome of `execBuild_cases`. -/
theorem buildOfEmptyAlphabet : Obligations.BuildOfEmptyAlphabet := by
  intro s hf hfreq
  rcases execBuild_cases hf with ⟨-, h⟩ | ⟨h0, -⟩
  · exact ⟨blankArena, noCodes, h, codeOf_noCodes⟩
  · simp [alphabet_eq_nil hfreq] at h0

/-! ### The shape of the tree (R124) -/

/-- A forest's internal entries lie above their children. -/
theorem Grown.children_lt {n total : Nat} {f : Forest} (grown : Grown n total f) {i : Nat} (hi : i < f.next)
    (hkind : (f.node i).kind = .internal) : (f.node i).left.toNat < i ∧ (f.node i).right.toNat < i := by
  have notLeaf : n ≤ i := by
    by_contra hlt
    simp [grown.leaf i (by omega)] at hkind
  obtain ⟨a, b, hab, hbi, _, _, _, _, hleft, hright, _⟩ := grown.merge i notLeaf hi
  omega

/-- A forest grown together has its whole weight in its last entry, the root. -/
theorem Grown.root_weight {n total : Nat} {f : Forest} (grown : Grown n total f) (hone : f.work.length = 1) (h0 : 0 < n) :
    (f.node (f.next - 1)).weight.toNat = total := by
  obtain ⟨⟨it, hwork, hindex, hweight⟩, -⟩ := grown_root grown hone h0
  obtain ⟨-, hnode⟩ := grown.items it (by simp [hwork])
  rw [← hindex, ← hnode, hweight]

theorem mem_allBytes (x : Byte) : x ∈ (List.range 256).map (BitVec.ofNat 8) :=
  List.mem_map.2 ⟨x.toNat, List.mem_range.2 x.isLt, by simp⟩

theorem allBytes_nodup : ((List.range 256).map (BitVec.ofNat 8)).Nodup := by
  refine List.nodup_range.map_on fun i hi j hj h => ?_
  have hij := congrArg BitVec.toNat h
  simp only [List.mem_range] at hi hj
  simp only [BitVec.toNat_ofNat] at hij
  omega

/-- The counts of all symbols in an input add up to its length (freq(S), R124). -/
theorem sum_count_allBytes (input : List Byte) :
    ((List.range 256).map fun k => input.count (BitVec.ofNat 8 k)).sum = input.length := by
  have hsum := Multiset.sum_count_eq_card (s := ((List.range 256).map (BitVec.ofNat 8)).toFinset) (m := (input : Multiset Byte))
    fun x _ => List.mem_toFinset.2 (mem_allBytes x)
  rw [List.sum_toFinset _ allBytes_nodup, List.map_map] at hsum
  simpa [Function.comp_def] using hsum

/-- Settles O18: the outcome of `execBuild_cases` for a nonempty alphabet, and the shape of a grown forest. -/
theorem buildShapeFacts : Obligations.BuildShapeFacts := by
  intro s n hf hn h1
  rw [← alphabet_length] at hn
  subst hn
  obtain ⟨grown, hnext, hone, -⟩ := growTree_spec s.freq h1
  have hlt := grown.next_lt h1
  have weight := grown.root_weight hone h1
  refine ⟨(growTree s.freq).arena, noCodes, _, _, execBuild_tree hf h1, ?nodeCount, ?root, ?children, weight, ?input,
    codeOf_noCodes⟩
  case nodeCount => rw [ofNat9_toNat hlt, hnext]
  case root => rw [ofNat9_toNat (by omega)]; omega
  case children =>
    intro i hi hkind
    have entry : (growTree s.freq).node i.toNat = nodeAt (growTree s.freq).arena i := by simp [Forest.node]
    rw [← entry] at hkind ⊢
    exact grown.children_lt (by omega) hkind
  case input =>
    intro input hfreq
    rw [← sum_count_allBytes input]
    exact weight.trans (by simp only [hfreq])

/-! ### The merges (R121, R123) -/

/-- Settles O19: `growTree_spec` gives the leaves, and its invariant says of every later entry that it is the merge of the
two least (`Forest.MergeAt`). -/
theorem buildMergesTheTwoLeast : Obligations.BuildMergesTheTwoLeast := by
  intro s t symbols hf hsymbols h
  obtain rfl : symbols = alphabet s.freq := hsymbols
  rcases execBuild_cases hf with ⟨h0, hnext⟩ | ⟨h0, hnext⟩
  · simp [List.length_eq_zero_iff.1 h0]
  · cases h.symm.trans hnext
    obtain ⟨grown, hcount, -, leaves⟩ := growTree_spec s.freq h0
    refine ⟨fun k x hx => ?_, fun m hm hlt => grown.merge m hm (by omega)⟩
    rw [← BitVec.ofNat_toNat]
    exact leaves k x hx

/-! ### Determinism (R125) -/

/-- A BUILD leaves a tree (R122). -/
theorem execBuild_holds_tree {s t : State} (hf : s.fatal = false) (h : exec .build s = .next t) :
    t.fatal = false ∧ t.treeState ≠ .none := by
  rcases execBuild_cases hf with ⟨-, hnext⟩ | ⟨-, hnext⟩ <;> cases h.symm.trans hnext <;> exact ⟨hf, by simp⟩

/-- Two BUILDs from the same FREQ leave the same tree (R125). -/
theorem sameTree_of_execBuild {s1 s2 t1 t2 : State} (hf1 : s1.fatal = false) (hf2 : s2.fatal = false)
    (hfreq : s1.freq = s2.freq) (h1 : exec .build s1 = .next t1) (h2 : exec .build s2 = .next t2) : SameTree t2 t1 := by
  have build1 := execBuild_cases hf1
  rw [hfreq] at build1
  rcases build1 with ⟨n1, e1⟩ | ⟨n1, e1⟩ <;> rcases execBuild_cases hf2 with ⟨n2, e2⟩ | ⟨n2, e2⟩
  · cases h1.symm.trans e1; cases h2.symm.trans e2
    exact ⟨rfl, rfl, rfl, rfl⟩
  · omega
  · omega
  · cases h1.symm.trans e1; cases h2.symm.trans e2
    exact ⟨rfl, rfl, rfl, rfl⟩

/-- A GENCODES on a held tree leaves the table derived from the tree (42 R141). -/
theorem execGencodes_derives {t u : State} (hf : t.fatal = false) (ht : t.treeState ≠ .none)
    (h : exec .gencodes t = .next u) : deriveCodes t.treeState t.root t.arena = some u.code := by
  rw [exec_eq_runCommand, runCommand_run _ hf (by rw [firstFailing_gencodes, if_neg ht])] at h
  rcases runGencodes_cases t with ⟨code, hcode, hrun⟩ | ⟨-, hrun⟩ <;> rw [show runOf .gencodes t = _ from hrun] at h
  · cases h
    exact hcode
  · cases h

/-- Settles O20: the two trees are the same, and a code table is derived from the tree alone. -/
theorem buildDependsOnlyOnFreq : Obligations.BuildDependsOnlyOnFreq := by
  intro s1 s2 t1 t2 hf1 hf2 hfreq h1 h2
  obtain ⟨htree, hroot, hcount, harena⟩ := sameTree_of_execBuild hf1 hf2 hfreq h1 h2
  refine ⟨harena, hroot, hcount, htree, fun u1 u2 g1 g2 => ?_⟩
  obtain ⟨hft1, held1⟩ := execBuild_holds_tree hf1 h1
  obtain ⟨hft2, held2⟩ := execBuild_holds_tree hf2 h2
  have codes1 := execGencodes_derives hft1 held1 g1
  have codes2 := execGencodes_derives hft2 held2 g2
  rw [htree, hroot, harena, codes2] at codes1
  exact (Option.some.inj codes1).symm

end Sys2Proof.Machine
end

section
/-! # The Code Generator (42_code_generator.md)

The statements of 42_code_generator.md. `execGencodes_of_heldTree` says once that GENCODES gives each symbol the code its tree
value gives it; what the codes are like is then said of the tree value alone. -/

namespace Sys2Proof

/-! ### The codes of a tree value (R140 to R145) -/

/-- Codes of which one is a prefix of the other belong to one symbol, because both read back from the longer one (R144). -/
theorem CodeTree.eq_of_code_prefix {t : CodeTree} {x y : Byte} {p q : Bits} (hx : t.code x = some p)
    (hy : t.code y = some q) (hpq : p <+: q) : x = y := by
  obtain ⟨more, rfl⟩ := hpq
  have readX := CodeTree.readSymbol_code hx more
  have readY := CodeTree.readSymbol_code hy []
  rw [List.append_nil, readX] at readY
  exact congrArg Prod.fst (Option.some.inj readY)

/-- The code `0` of a root leaf has one bit; every other code is a path, and shorter than the number of leaves (R145). -/
theorem CodeTree.code_length {t : CodeTree} {x : Byte} {p : Bits} (h : t.code x = some p) :
    p.length = 1 ∨ p.length < t.leaves.length := by
  cases t with
  | leaf y =>
    obtain ⟨-, rfl⟩ : x = y ∧ [false] = p := by simpa [CodeTree.code] using h
    exact .inl rfl
  | node l r => exact .inr (CodeTree.path_length_lt _ _ (CodeTree.lastPath_mem h))

end Sys2Proof

namespace Sys2Proof.Machine

/-! ### The held tree (10_state.md R44) -/

/-- The tree at a LEAF root is that leaf. -/
theorem heldTree_of_root_leaf {s : State} (h : (nodeAt s.arena s.root).kind = .leaf) :
    heldTree s = some (.leaf (nodeAt s.arena s.root).sym) :=
  treeAt_leaf h

/-- Under R44(c) the walk visits the entries below NODE_COUNT once each, so these are the nodes of the held tree. -/
theorem heldTree_size {s : State} {tree : CodeTree} (h : ArenaIsTree s) (ht : heldTree s = some tree) :
    tree.size = s.nodeCount.toNat := by
  obtain ⟨-, -, -, ⟨v, hv, below, once⟩, -⟩ := h
  have nodup : v.Nodup := List.nodup_iff_count_le_one.2 fun i => by
    by_cases hi : i ∈ v
    · exact (once i (below i hi)).le
    · simp [List.count_eq_zero_of_not_mem hi]
  have visited : v.Perm (List.range s.nodeCount.toNat) :=
    (List.perm_ext_iff_of_nodup nodup List.nodup_range).2 fun i => by
      rw [List.mem_range]
      exact ⟨below i, fun hi => List.count_pos_iff.1 (by rw [once i hi]; exact Nat.one_pos)⟩
  have hlen := visits_length s.arena Config.walkDepth s.root
  rw [hv, show treeAt s.arena Config.walkDepth s.root = some tree from ht] at hlen
  calc tree.size = v.length := (Option.some.inj hlen).symm
    _ = s.nodeCount.toNat := by rw [visited.length_eq, List.length_range]

/-! ### What GENCODES does (R141 to R143) -/

/-- GENCODES on a held tree completes, and the table holds the codes of the tree value. -/
theorem execGencodes_of_heldTree {s : State} {tree : CodeTree} (hf : s.fatal = false) (hv : s.treeState = .valid)
    (ht : heldTree s = some tree) :
    ∃ code, exec .gencodes s = .next (okState 0 0 0 { s with code := code, ctValid := true }) ∧
      ∀ x, codeOf code x = tree.code x := by
  obtain ⟨code, derived, codes⟩ := deriveCodes_valid ht
  exact ⟨code, execGencodes_code hf (by simp [hv]) (by rw [hv]; exact derived), codes⟩

/-- The table of any state GENCODES on a held tree leads to. -/
theorem codeOf_of_execGencodes {s t : State} {tree : CodeTree} (hf : s.fatal = false) (hv : s.treeState = .valid)
    (ht : heldTree s = some tree) (h : exec .gencodes s = .next t) (x : Byte) : codeOf t.code x = tree.code x := by
  obtain ⟨code, completes, codes⟩ := execGencodes_of_heldTree hf hv ht
  cases h.symm.trans completes
  exact codes x

/-- Settles O21: at an internal root the code of a symbol is the path of its last leaf. -/
theorem gencodesRecordsLeafPaths : Obligations.GencodesRecordsLeafPaths :=
  fun _ _ _ hf hv ht => execGencodes_of_heldTree hf hv ht

/-- Settles O22: the held tree is one leaf, whose symbol alone has a code. -/
theorem gencodesAtRootLeaf : Obligations.GencodesAtRootLeaf :=
  fun _ hf hv hroot => execGencodes_of_heldTree hf hv (heldTree_of_root_leaf hroot)

/-- Settles O23: an EMPTY tree derives the table without entries. -/
theorem gencodesOfEmptyTree : Obligations.GencodesOfEmptyTree := by
  intro s hf hempty
  have derived : deriveCodes s.treeState s.root s.arena = some noCodes := by rw [hempty]; rfl
  exact ⟨noCodes, execGencodes_code hf (by simp [hempty]) derived, codeOf_noCodes⟩

/-! ### What the codes are like (R144, R145) -/

/-- Settles O24: no code is empty, and comparable codes belong to one symbol. R144's premise of distinct symbols is not
needed: a repeated symbol keeps one of its paths, and leaves of different symbols have paths that are not comparable. -/
theorem codesArePrefixFree : Obligations.CodesArePrefixFree := by
  intro s t tree hf hv ht _ h x p hx
  have codes := codeOf_of_execGencodes hf hv ht h
  rw [codes] at hx
  refine ⟨List.length_pos_iff.2 (CodeTree.code_ne_nil hx), fun y q hy hne hpq => hne ?_⟩
  rw [codes] at hy
  exact CodeTree.eq_of_code_prefix hx hy hpq

/-- Settles O25: 511 nodes hold at most 256 leaves, and a path is shorter than the number of leaves. -/
theorem codeLengthIsBounded : Obligations.CodeLengthIsBounded := by
  intro s t hf hv harena h x p hx
  obtain ⟨tree, ht⟩ := heldTree_of_arenaIsTree harena
  rw [codeOf_of_execGencodes hf hv ht h] at hx
  have ⟨_, hcount, _⟩ := harena
  have hsize := heldTree_size harena ht
  have hleaves := tree.size_eq
  have hpos := List.length_pos_iff.2 (CodeTree.code_ne_nil hx)
  have hlen := CodeTree.code_length hx
  omega

end Sys2Proof.Machine
end

section
/-! # The Tree Codec (43_tree_codec.md)

The statements about SERIALIZE and DESERIALIZE. SERIALIZE goes through `streamOut`, the bytes it has to write; DESERIALIZE
through what the whole parse of a stream leaves (`runDeserialize_stream`), what a success says of the tree it built
(`execDeserialize_ok`), and the checks of the first node after a stream cut anywhere. -/

namespace Sys2Proof.Machine

/-! ### What the commands on a held tree leave alone (R161, 40 R108) -/

/-- Only an error of DESERIALIZE loses the tree or the code table (40 R108). -/
theorem completeErr_keeps_tree {i : Instr} (hi : i ≠ .deserialize) (c : ErrCode) (w : Bool) (s : State) :
    SameTree s (completeErr (some i) c w s) ∧ (completeErr (some i) c w s).code = s.code ∧
      (completeErr (some i) c w s).ctValid = s.ctValid := by
  rcases completeErr_cases (some i) c w s with h | ⟨hl, _⟩ | ⟨_, h⟩
  · rw [h]; exact ⟨⟨rfl, rfl, rfl, rfl⟩, rfl, rfl⟩
  · simp [losesTree, hi] at hl
  · rw [h]; exact ⟨⟨rfl, rfl, rfl, rfl⟩, rfl, rfl⟩

/-- Settles O14: success by the frame of the run, an error by `completeErr_keeps_tree`. -/
theorem treeSurvivesSerializeEncodeDecode : Obligations.TreeSurvivesSerializeEncodeDecode := by
  intro i s t h
  rw [exec_eq_runCommand] at h
  rcases runCommand_next h with ⟨_, _, rfl⟩ | ⟨c, _, rfl⟩ | ⟨_, _, ⟨s', r, hr, rfl⟩ | ⟨c, w, _, rfl⟩⟩
  · exact ⟨fun _ => ⟨rfl, rfl, rfl, rfl⟩, fun _ => ⟨rfl, rfl⟩⟩
  · exact ⟨fun _ => ⟨rfl, rfl, rfl, rfl⟩, fun _ => ⟨rfl, rfl⟩⟩
  · obtain ⟨-, -, -, -, -, -, -, tree, table, -⟩ := run_ok_frame hr
    exact ⟨tree, table⟩
  · exact ⟨fun hi => (completeErr_keeps_tree (by rintro rfl; simp at hi) c w s).1,
      fun hi => (completeErr_keeps_tree (by rintro rfl; simp at hi) c w s).2⟩

/-! ### SERIALIZE (R161, R162) -/

theorem streamOut_empty {s : State} (he : s.treeState = .empty) : streamOut s = some [] := by
  simp [streamOut_eq, he]

theorem streamOut_heldTree {s : State} {tree : CodeTree} (hv : s.treeState = .valid) (ht : heldTree s = some tree) :
    streamOut s = some tree.stream := by
  simp [streamOut_eq, hv, ht]

/-- SERIALIZE of a stream that fits and whose writes succeed (R161). -/
theorem runSerialize_fits {s : State} {out : List Byte} (hout : streamOut s = some out)
    (hcap : out.length ≤ s.dstCap.toNat) (hw : WritesOk s s.dstAddr.toNat out.length) :
    ∃ m, runSerialize s = .ok ({ s with mem := m }, { outLen := BitVec.ofNat 32 out.length, inUsed := 0, pad := 0 }) ∧
      SameOutside s.mem m s.dstAddr.toNat out.length ∧
      (memWf s.mem = true → s.dstAddr.toNat + out.length ≤ Config.dmaSize →
        bytesAt m s.dstAddr.toNat out.length = out) := by
  rcases runSerialize_cases s with
    ⟨hno, _⟩ | ⟨out', hout', ⟨hlong, _⟩ | ⟨_, _, m, _, outside, written, hrun⟩ | ⟨_, hbus, _⟩⟩
  · simp [hout] at hno
  all_goals obtain rfl : out = out' := Option.some.inj (hout.symm.trans hout')
  · omega
  · exact ⟨m, hrun, outside, fun hm hd => (written hm hd).2⟩
  · exact absurd hw hbus

/-- Settles O26: the stream is what SERIALIZE has to write, and DST_CAP bounds its length below 2^32. -/
theorem serializeWritesTheStream : Obligations.SerializeWritesTheStream := by
  intro s out hf hm held hd hcap hw
  obtain ⟨ht, hout⟩ : s.treeState ≠ .none ∧ streamOut s = some out := by
    rcases held with ⟨he, rfl⟩ | ⟨hv, tree, ht, rfl⟩
    · exact ⟨by simp [he], streamOut_empty he⟩
    · exact ⟨by simp [hv], streamOut_heldTree hv ht⟩
  obtain ⟨m, hrun, outside, written⟩ := runSerialize_fits hout hcap hw
  have hlt := s.dstCap.isLt
  refine ⟨m, ?_, written hm (by unfold Config.dmaSize; omega), outside, ?_⟩
  · rw [execSerialize_run hf ht hd, hrun]
    rfl
  · rw [BitVec.toNat_ofNat, Nat.mod_eq_of_lt (by omega)]

/-- Settles O27: the size check comes before the first write. -/
theorem serializeOverflowWritesNothing : Obligations.SerializeOverflowWritesNothing := by
  intro s tree hf hv ht hd hlong
  have hrun : runSerialize s = .error (.raised .dstOverflow false) := by
    simp [runSerialize, streamOut_heldTree hv ht, hlong]
  rw [execSerialize_run hf (by simp [hv]) hd, hrun]
  exact congrArg _ (completeErr_plain rfl rfl (by simp) s)

/-! ### A DESERIALIZE that succeeds (R168, R172, R173) -/

/-- Settles O29: a window of no bytes is in range wherever it begins, and its run reads nothing. -/
theorem deserializeOfNothing : Obligations.DeserializeOfNothing := by
  intro s hf h0
  have hrange := s.srcAddr.isLt
  refine ⟨blankArena, noCodes, ?_, codeOf_noCodes⟩
  rw [execDeserialize_run hf (by simp [h0]; omega), runDeserialize, if_pos (by simp [h0])]
  rfl

/-- The tree a parse left from entry 0 on is the tree at entry 0: at most 511 nodes are less deep than the walk's bound. -/
theorem treeAt_of_preorderAt {a : Vector Node 511} {tree : CodeTree} (h : PreorderAt a 0 tree) (hsize : tree.size ≤ 511) :
    treeAt a Config.walkDepth 0 = some tree :=
  treeAt_mono (by unfold Config.walkDepth; omega) (preorderAt_treeAt h)

theorem visits_of_preorderAt {a : Vector Node 511} {tree : CodeTree} (h : PreorderAt a 0 tree) (hsize : tree.size ≤ 511) :
    visits a Config.walkDepth 0 = some (List.range tree.size) := by
  rw [List.range_eq_range']
  exact visits_mono (by unfold Config.walkDepth; omega) (preorderAt_visits (i := 0) (by omega) h)

/-- DESERIALIZE over the stream of a tree that fits in the arena builds the tree from entry 0 on (R168). -/
theorem runDeserialize_stream {s : State} {tree : CodeTree} (hsize : tree.size ≤ 511)
    (hlen : tree.stream.length ≤ s.srcLen.toNat) (hbytes : bytesAt s.mem s.srcAddr.toNat tree.stream.length = tree.stream)
    (hread : ReadsOk s s.srcAddr.toNat tree.stream.length) :
    ∃ a, PreorderAt a 0 tree ∧
      runDeserialize s =
        .ok ({ s with code := noCodes, ctValid := false, treeState := .valid, nodeCount := BitVec.ofNat 9 tree.size,
                      root := 0, arena := a },
          { outLen := 0, inUsed := BitVec.ofNat 32 tree.stream.length, pad := 0 }) := by
  obtain ⟨a, parsed, layout, -⟩ := parseNode_stream s tree Config.parseDepth { pos := 0, cnt := 0, arena := blankArena }
    (by simp [Config.parseDepth]) (by simpa using hsize) (by simpa using hlen) hbytes
    (fun k _ hk => hread k (by simpa using hk))
  have hpos := tree.stream_length
  have hleaves := tree.leaves_pos
  refine ⟨a, layout, ?_⟩
  rw [runDeserialize, if_neg (by omega), parsed]
  simp [bind, Except.bind]

/-- Settles O30: 256 leaves are 511 nodes, so the parse of the stream succeeds, and the layout it leaves is the tree's in
pre-order. -/
theorem deserializeRebuildsTheTree : Obligations.DeserializeRebuildsTheTree := by
  intro s tree hf hs hleaves hlen hbytes hread
  have hcount := tree.size_eq
  have hsize : tree.size ≤ 511 := by omega
  have hnat : (BitVec.ofNat 9 tree.size).toNat = tree.size := ofNat9_toNat (by omega)
  obtain ⟨a, layout, hrun⟩ := runDeserialize_stream hsize hlen hbytes hread
  refine ⟨a, noCodes, BitVec.ofNat 9 tree.size, ?completes, treeAt_of_preorderAt layout hsize, ?visits, by omega,
    tree.stream_length, fun i hi => ?weight, codeOf_noCodes⟩
  case completes =>
    rw [execDeserialize_run hf hs, hrun]
    rfl
  case visits =>
    rw [hnat]
    exact visits_of_preorderAt layout hsize
  case weight =>
    have zero := preorderAt_weight layout i.toNat (Nat.zero_le _) (by omega)
    rwa [BitVec.ofNat_toNat, BitVec.setWidth_eq] at zero

/-- A DESERIALIZE of a nonempty window that completes without an error has parsed the stream of the tree it leaves (R168). -/
theorem execDeserialize_ok {s t : State} (hf : s.fatal = false) (h0 : s.srcLen ≠ 0) (h : exec .deserialize s = .next t)
    (hok : t.errCode = .none) :
    ∃ (tree : CodeTree) (a : Vector Node 511), tree.size ≤ 511 ∧ tree.stream.length ≤ s.srcLen.toNat ∧
      bytesAt s.mem s.srcAddr.toNat tree.stream.length = tree.stream ∧ PreorderAt a 0 tree ∧
      t = okState 0 (BitVec.ofNat 32 tree.stream.length) 0
        { s with code := noCodes, ctValid := false, treeState := .valid, nodeCount := BitVec.ofNat 9 tree.size, root := 0,
                 arena := a } := by
  have hs : s.srcAddr.toNat + s.srcLen.toNat ≤ 2 ^ 32 := by
    by_contra hrange
    rw [exec_eq_runCommand, runCommand_precheck _ hf (by rw [firstFailing_deserialize, if_pos (by omega)])] at h
    cases h
    simp at hok
  rw [execDeserialize_run hf hs] at h
  rcases runDeserialize_cases s with ⟨hz, _⟩ | ⟨_, tree, a, _, hsize, hlen, hbytes, layout, hrun⟩ | ⟨_, c, hc, _, hrun⟩
  · exact absurd (BitVec.eq_of_toNat_eq hz) h0
  · rw [hrun] at h
    cases h
    exact ⟨tree, a, hsize, hlen, hbytes, layout, rfl⟩
  · rw [hrun] at h
    cases h
    rw [completeErr_parseError hc, errState_errCode] at hok
    simp [hok] at hc

/-- Settles O31. -/
theorem deserializedTreeHasTheParsedStream : Obligations.DeserializedTreeHasTheParsedStream := by
  intro s t hf h0 h hok
  obtain ⟨tree, a, hsize, hlen, hbytes, layout, rfl⟩ := execDeserialize_ok hf h0 h hok
  have hlt := s.srcLen.isLt
  have hused : (BitVec.ofNat 32 tree.stream.length).toNat = tree.stream.length := by
    rw [BitVec.toNat_ofNat, Nat.mod_eq_of_lt (by omega)]
  have hcount := tree.size_eq
  refine ⟨rfl, rfl, ?_, tree, treeAt_of_preorderAt layout hsize, ?_, ?_, by omega⟩ <;> rw [okState_inUsed, hused]
  · exact hlen
  · exact hbytes.symm
  · exact tree.stream_length

/-! ### The format errors (R168, R170, R171, R174) -/

/-- The two tag values are the bytes below 2 (30_encoding.md R88). -/
theorem isTag_iff_lt_two (v : Byte) : (v = 0x00 ∨ v = 0x01) ↔ v.toNat < 2 := by
  constructor
  · rintro (rfl | rfl) <;> decide
  · intro h
    rcases Nat.le_one_iff_eq_zero_or_eq_one.1 (Nat.le_of_lt_succ h) with h | h
    · exact .inl (BitVec.eq_of_toNat_eq h)
    · exact .inr (BitVec.eq_of_toNat_eq h)

/-- A leaf's tag at the end of the window: no byte is left for the symbol (R171). -/
theorem parseNode_leafTruncated {s : State} {d : Nat} {p : Parse} (hend : s.srcLen.toNat = p.pos + 1)
    (hbus : busOk s.busHoles (s.srcAddr.toNat + p.pos) .read = true)
    (htag : memGet s.mem (s.srcAddr.toNat + p.pos) = 0x01) (hroom : p.cnt ≠ 511) :
    parseNode s (d + 1) p = .error (.raised .fmtTruncated false) := by
  have tag := nextByte_ok (p := p) (by omega) hbus
  rw [htag] at tag
  rw [parseNode_leaf tag hroom, nextByte_end hend.le]
  rfl

/-- Settles O32: the run fails as its first node after the items does, with that node's check that fails; the error completion
loses the tree. -/
theorem deserializeFormatErrors : Obligations.DeserializeFormatErrors := by
  intro s c items hf hs hl begins pos tag tagRead error
  have hc : c = .fmtTruncated ∨ c = .fmtBadTag ∨ c = .fmtCapacity ∨ c = .busError := by tauto
  have hrun : runDeserialize s = .error (.raised c false) := by
    refine runDeserialize_fails begins hl fun d q hpos hcnt => ?_
    simp only [tag, tagRead, pos, ← hpos, ← hcnt] at error
    rcases error with ⟨rfl, hend | ⟨hend, ⟨_, hbus⟩, htag, hroom⟩⟩ | ⟨rfl, ⟨hlt, hbus⟩, htag⟩ |
      ⟨rfl, ⟨hlt, hbus⟩, htag, hfull⟩
    · exact parseNode_error (nextByte_end hend.le)
    · exact parseNode_leafTruncated hend hbus (BitVec.eq_of_toNat_eq htag) hroom.ne
    · have noTag := (isTag_iff_lt_two _).not.2 htag.not_gt
      exact parseNode_badTag (nextByte_ok hlt hbus) (fun h => noTag (.inl h)) (fun h => noTag (.inr h))
    · exact parseNode_full (nextByte_ok hlt hbus) ((isTag_iff_lt_two _).2 htag) hfull
  refine ⟨blankArena, noCodes, ?_⟩
  rw [execDeserialize_run hf hs, hrun]
  exact congrArg _ (completeErr_parseError hc false s)

/-- A window that begins with an internal node's tag begins an unfinished stream. -/
theorem streamBegins_internal {s : State} (hl : 1 ≤ s.srcLen.toNat) (htag : memGet s.mem s.srcAddr.toNat = 0)
    (hbus : busOk s.busHoles s.srcAddr.toNat .read = true) : StreamBegins s [.internal] := by
  refine ⟨rfl, by simp, hl, ?_, fun k hk => ?_⟩
  · show bytesAt s.mem s.srcAddr.toNat 1 = [0x00]
    rw [bytesAt_succ, htag]
    rfl
  · obtain rfl : k = 0 := Nat.lt_one_iff.1 hk
    exact hbus

/-- Settles O33: the truncation of O32 after the one item `00`. -/
theorem loneInternalTagIsTruncated : Obligations.LoneInternalTagIsTruncated := by
  intro s hf h1 htag hbus
  have hlen : s.srcLen.toNat = 1 := by rw [h1]; rfl
  have hrange := s.srcAddr.isLt
  obtain ⟨arena, code, h⟩ := deserializeFormatErrors s .fmtTruncated [.internal] hf (by omega) (by omega)
    (streamBegins_internal hlen.ge htag hbus) (.inl ⟨rfl, .inl hlen⟩)
  exact ⟨_, h, rfl, rfl, rfl⟩

end Sys2Proof.Machine
end

section
/-! # The Bit Packer (44_bit_packer.md)

The statements about ENCODE. Each lemma about `runEncode` says which of the outcomes of `runEncode_cases` a state of R192's
order takes; the completion then follows from `execEncode_run`. -/

namespace Sys2Proof.Machine

/-! ### An ENCODE that succeeds (R191, R193) -/

/-- ENCODE of symbols that all have codes, whose packed codes fit and whose writes succeed (R191). -/
theorem runEncode_fits {s : State} {codes : List Bits} (hr : ReadsOk s s.srcAddr.toNat s.srcLen.toNat)
    (hc : (bytesAt s.mem s.srcAddr.toNat s.srcLen.toNat).map (codeOf s.code) = codes.map some)
    (hcap : (codes.flatten.length + 7) / 8 ≤ s.dstCap.toNat)
    (hw : WritesOk s s.dstAddr.toNat ((codes.flatten.length + 7) / 8)) :
    ∃ m, runEncode s = .ok ({ s with mem := m },
        { outLen := BitVec.ofNat 32 ((codes.flatten.length + 7) / 8), inUsed := s.srcLen,
          pad := BitVec.ofNat 3 (8 * ((codes.flatten.length + 7) / 8) - codes.flatten.length) }) ∧
      SameOutside s.mem m s.dstAddr.toNat ((codes.flatten.length + 7) / 8) ∧
      (memWf s.mem = true → s.dstAddr.toNat + (codes.flatten.length + 7) / 8 ≤ Config.dmaSize →
        bytesAt m s.dstAddr.toNat ((codes.flatten.length + 7) / 8) = pack codes.flatten) := by
  have coded := codeStream_some _ _ _ hc
  rcases runEncode_cases s with
    ⟨hno, _⟩ | ⟨_, ⟨hnone, _⟩ | ⟨b, hb, ⟨hlong, _⟩ | ⟨_, _, m, outside, written, hrun⟩ | ⟨_, hbus, _⟩⟩⟩
  · exact absurd hr hno
  · simp [coded] at hnone
  all_goals obtain rfl : codes.flatten = b := Option.some.inj (coded.symm.trans hb)
  · omega
  · exact ⟨m, hrun, outside, fun hm hd => (written hm hd).2⟩
  · exact absurd hw hbus

/-- PAD is the number of bits that `n` bits leave free in their last byte, at most 7 (R191). -/
theorem pad_toNat_add (n : Nat) : (BitVec.ofNat 3 (8 * ((n + 7) / 8) - n)).toNat + n = 8 * ((n + 7) / 8) := by
  rw [BitVec.toNat_ofNat]
  omega

/-- Settles O35: the run writes `pack` of the codes' bits, and DST_CAP bounds the number of its bytes below 2^32. -/
theorem encodeWritesThePackedCodes : Obligations.EncodeWritesThePackedCodes := by
  intro s codes hf hm hv hs hd hapart hreads hcodes b nbytes hcap hwrites
  obtain ⟨m, hrun, outside, written⟩ := runEncode_fits hreads hcodes hcap hwrites
  have packed : bytesAt m s.dstAddr.toNat nbytes = pack b :=
    written hm (le_trans (Nat.add_le_add_left hcap _) hd)
  have hlt := s.dstCap.isLt
  refine ⟨m, _, ?completes, ?outLen, pad_toNat_add b.length, fun k hk => ?bits, fun k hb hk => ?padding, outside⟩
  case completes =>
    rw [execEncode_run hf hv hs hd hapart, hrun]
    rfl
  case outLen => rw [BitVec.toNat_ofNat, Nat.mod_eq_of_lt (by omega)]
  case bits => exact payloadBit_pack packed (by omega)
  case padding =>
    rw [payloadBit_pack packed hk]
    exact List.getD_eq_default _ _ hb

/-! ### The checks after the prechecks, in order (R192, R194) -/

/-- A source read that fails ends the run before any check of a code (R192, step 1). -/
theorem runEncode_readBusError {s : State} {k : Nat} (hk : k < s.srcLen.toNat)
    (hb : busOk s.busHoles (s.srcAddr.toNat + k) .read = false) : runEncode s = .error (.raised .busError false) := by
  rcases runEncode_cases s with ⟨_, hrun⟩ | ⟨hr, _⟩
  · exact hrun
  · simp [hr k hk] at hb

/-- A symbol with no code, in a source window that was read, ends the run before the size check (R192, step 2; R194). -/
theorem runEncode_missingCode {s : State} {k : Nat} (hr : ReadsOk s s.srcAddr.toNat s.srcLen.toNat)
    (hk : k < s.srcLen.toNat) (hc : codeOf s.code (memGet s.mem (s.srcAddr.toNat + k)) = none) :
    runEncode s = .error (.raised .internalInvariant false) := by
  have missing : codeStream s.code (bytesAt s.mem s.srcAddr.toNat s.srcLen.toNat) = none :=
    (codeStream_none _ _).2 ⟨_, List.mem_map_of_mem (List.mem_range.2 hk), hc⟩
  rcases runEncode_cases s with ⟨hno, _⟩ | ⟨_, ⟨_, hrun⟩ | ⟨b, hb, _⟩⟩
  · exact absurd hr hno
  · exact hrun
  · simp [missing] at hb

/-- Packed codes longer than DST_CAP end the run before the first write (R192, step 3). -/
theorem runEncode_overflow {s : State} {codes : List Bits} (hr : ReadsOk s s.srcAddr.toNat s.srcLen.toNat)
    (hc : (bytesAt s.mem s.srcAddr.toNat s.srcLen.toNat).map (codeOf s.code) = codes.map some)
    (hlong : s.dstCap.toNat < (codes.flatten.length + 7) / 8) : runEncode s = .error (.raised .dstOverflow false) := by
  have coded := codeStream_some _ _ _ hc
  rcases runEncode_cases s with ⟨hno, _⟩ | ⟨_, ⟨hnone, _⟩ | ⟨b, hb, h⟩⟩
  · exact absurd hr hno
  · simp [coded] at hnone
  · obtain rfl : codes.flatten = b := Option.some.inj (coded.symm.trans hb)
    rcases h with ⟨_, hrun⟩ | ⟨hcap, _⟩ | ⟨hcap, _⟩
    · exact hrun
    all_goals omega

/-- Settles O36: the run ends at the first check that fails; no MemWrite raised the error, so memory is kept. -/
theorem encodeErrorOrder : Obligations.EncodeErrorOrder := by
  intro s hf hv hs hd hapart
  rw [execEncode_run hf hv hs hd hapart]
  refine ⟨fun k hk hbus => ?readFails, fun hreads => ⟨fun k hk hnone => ?noCode, fun codes hcodes hlong => ?tooLong⟩⟩
  case readFails =>
    rw [runEncode_readBusError hk hbus]
    exact congrArg _ (completeErr_plain rfl rfl (by simp) s)
  case noCode =>
    rw [runEncode_missingCode hreads hk hnone]
    exact congrArg _ (completeErr_internal _ (by simp) false s)
  case tooLong =>
    rw [runEncode_overflow hreads hcodes (by omega)]
    exact congrArg _ (completeErr_plain rfl rfl (by simp) s)

end Sys2Proof.Machine
end

section
/-! # The Bit Unpacker (45_bit_unpacker.md)

The statements about DECODE. Each goes from the loop to the command: a lemma about `decodeLoop` says how the loop ends from its
first bit, `execDecode_completes` and `execDecode_fails` say what the command then leaves. That unread bits do not matter is a
simulation: two loops over two memories go on abreast as long as the bits they consume are the same. -/

namespace Sys2Proof.Machine

/-! ### The turns of the loop (R210, R211, R213) -/

/-- A loop with SYM_COUNT symbols written ends without reading a bit. -/
theorem decodeLoop_done {s : State} {c : Cursor} (h : s.symCount.toNat ≤ c.written) (n : Nat) : decodeLoop s n c = .ok c := by
  cases n <;> simp [decodeLoop, h.not_gt]

/-- A loop with a symbol to write and no bit left raises PAYLOAD_UNDERRUN. -/
theorem decodeLoop_underrun {s : State} {c : Cursor} (h : c.written < s.symCount.toNat) :
    decodeLoop s 0 c = .error (.raised .payloadUnderrun false) := if_pos h

/-- A loop with a symbol to write and a bit left takes a turn. -/
theorem decodeLoop_succ {s : State} {c : Cursor} (h : c.written < s.symCount.toNat) (n : Nat) :
    decodeLoop s (n + 1) c = (decodeBit s c).bind (decodeLoop s n) := if_pos h

/-- A turn that succeeds consumes one bit and writes at most one symbol. -/
theorem decodeBit_ok {s : State} {c c' : Cursor} (h : decodeBit s c = .ok c') :
    c'.bitpos = c.bitpos + 1 ∧ c'.written ≤ c.written + 1 := by
  rcases decodeBit_cases s c with ⟨cur, v, h'⟩ | ⟨v, sym, h'⟩ | ⟨w, h'⟩ <;> cases h.symm.trans h'
  · exact ⟨rfl, Nat.le_succ _⟩
  · exact ⟨rfl, le_rfl⟩

/-- A turn that begins a byte which cannot be read raises BUS_ERROR (R211). -/
theorem decodeBit_readBusError {s : State} {c : Cursor} (h0 : c.bitpos % 8 = 0)
    (hbus : busOk s.busHoles (s.srcAddr.toNat + c.bitpos / 8) .read = false) :
    decodeBit s c = .error (.raised .busError false) := by
  simp [decodeBit, fetchBits, h0, dmaRead, hbus, bind, Except.bind]

/-- A loop that succeeds has written SYM_COUNT symbols, and has consumed no bit beyond those it had. -/
theorem decodeLoop_ok {s : State} {n : Nat} {c c' : Cursor} (hw : c.written ≤ s.symCount.toNat)
    (h : decodeLoop s n c = .ok c') :
    c'.written = s.symCount.toNat ∧ c.bitpos ≤ c'.bitpos ∧ c'.bitpos ≤ c.bitpos + n := by
  rcases decodeLoop_cases s n c hw with ⟨c₁, h₁, written, lower, upper, -⟩ | ⟨w, h₁⟩ | ⟨w, h₁⟩ <;> cases h.symm.trans h₁
  exact ⟨written, lower, upper⟩

/-! ### From the loop to the command -/

/-- DECODE's cursor before the first bit. -/
def firstCursor (s : State) : Cursor := { bitpos := 0, written := 0, cur := s.root, byte := 0, mem := s.mem }

@[simp] theorem firstCursor_bitpos (s : State) : (firstCursor s).bitpos = 0 := rfl

/-- The loop over the whole payload. -/
def decodeAll (s : State) : Except Halt Cursor := decodeLoop s (8 * s.srcLen.toNat) (firstCursor s)

/-- DECODE's run is the loop over the whole payload, and the results its cursor gives. -/
theorem runDecode_eq (s : State) :
    runDecode s = (decodeAll s).bind fun c =>
      .ok ({ s with mem := c.mem },
        { outLen := s.symCount, inUsed := BitVec.ofNat 32 ((c.bitpos + 7) / 8),
          pad := BitVec.ofNat 3 (8 * ((c.bitpos + 7) / 8) - c.bitpos) }) := rfl

/-- A loop that succeeds from the first bit has written SYM_COUNT symbols, and its bits are in the payload. -/
theorem decodeAll_ok {s : State} {c : Cursor} (h : decodeAll s = .ok c) :
    c.written = s.symCount.toNat ∧ c.bitpos ≤ 8 * s.srcLen.toNat := by
  obtain ⟨written, -, upper⟩ := decodeLoop_ok (Nat.zero_le _) h
  exact ⟨written, upper.trans_eq (Nat.zero_add _)⟩

/-- IN_USED is the number of bytes that a payload's first `n` bits are in. -/
theorem inUsed_toNat {s : State} {n : Nat} (h : n ≤ 8 * s.srcLen.toNat) :
    (BitVec.ofNat 32 ((n + 7) / 8)).toNat = (n + 7) / 8 := by
  have hlt := s.srcLen.isLt
  rw [BitVec.toNat_ofNat, Nat.mod_eq_of_lt (by omega)]

/-- DECODE with prechecks that pass is its run (40 R102). -/
theorem execDecode_of_prechecks {s : State} (hf : s.fatal = false) (hp : firstFailing (prechecks .decode s) = none) :
    exec .decode s = finish .decode s (runDecode s) := by
  rw [exec_eq_runCommand, runCommand_run _ hf hp]
  rfl

/-- Prechecks that pass keep the bytes DECODE writes out of the payload and below 2^32. -/
theorem decode_windows {s : State} (hp : firstFailing (prechecks .decode s) = none) :
    Apart s ∧ s.dstAddr.toNat + s.symCount.toNat ≤ Config.dmaSize := by
  obtain ⟨-, -, hd, hapart, hcap⟩ := decode_ready hp
  exact ⟨apart_of_no_overlap hapart hcap, le_trans (Nat.add_le_add_left hcap _) hd⟩

/-- A loop that succeeds completes DECODE, with memory as it left it. -/
theorem execDecode_of_decodeAll {s : State} {c : Cursor} (hf : s.fatal = false)
    (hp : firstFailing (prechecks .decode s) = none) (hloop : decodeAll s = .ok c) :
    exec .decode s =
      .next (okState s.symCount (BitVec.ofNat 32 ((c.bitpos + 7) / 8))
        (BitVec.ofNat 3 (8 * ((c.bitpos + 7) / 8) - c.bitpos)) { s with mem := c.mem }) := by
  rw [execDecode_of_prechecks hf hp, runDecode_eq, hloop]
  rfl

/-- When the loop succeeds, IN_USED is the number of bytes that the consumed bits are in, PAD the rest of the last one, and the
destination window holds the symbols it wrote. -/
theorem execDecode_completes {s : State} {c : Cursor} {symbols : List Byte} (hf : s.fatal = false)
    (hp : firstFailing (prechecks .decode s) = none) (hm : memWf s.mem = true) (hloop : decodeAll s = .ok c)
    (progress : Progress s c symbols) :
    ∃ m used pad, exec .decode s = .next (okState s.symCount used pad { s with mem := m }) ∧
      used.toNat = (c.bitpos + 7) / 8 ∧ pad.toNat + c.bitpos = 8 * used.toNat ∧
      bytesAt m s.dstAddr.toNat symbols.length = symbols ∧ SameOutside s.mem m s.dstAddr.toNat symbols.length := by
  have hused := inUsed_toNat (decodeAll_ok hloop).2
  refine ⟨c.mem, _, _, execDecode_of_decodeAll hf hp hloop, hused, ?_, progress.bytes hm, progress.outside⟩
  rw [hused]
  exact pad_toNat_add c.bitpos

/-- An error of the loop completes DECODE with that error; the destination window is unspecified, the rest of memory is kept
(20_memory.md R67, 40 R108). -/
theorem execDecode_fails {s : State} {c : ErrCode} {w : Bool} (hf : s.fatal = false)
    (hp : firstFailing (prechecks .decode s) = none) (hc : c = .payloadUnderrun ∨ c = .busError)
    (hloop : decodeAll s = .error (.raised c w)) :
    ∃ m draws, exec .decode s = .next (errState c { s with mem := m, draws := draws }) ∧
      SameOutside s.mem m s.dstAddr.toNat s.dstCap.toNat := by
  have spoils : spoilsWindow (some .decode) c w = true := by rcases hc with rfl | rfl <;> rfl
  refine ⟨(spoilDst s).mem, (spoilDst s).draws, ?_, spoilDst_outside s⟩
  rw [execDecode_of_prechecks hf hp, runDecode_eq, hloop]
  exact congrArg _ (completeErr_spoils spoils s)

/-! ### What DECODE writes (R210 to R213, R215) -/

/-- Settles O37: the loop decodes the codes and consumes their bits. -/
theorem decodeInvertsTheCodes : Obligations.DecodeInvertsTheCodes := by
  intro s tree symbols b hf hm hv ht hb hs hd hapart hn hcap hlen hreads hwrites hbits
  have hp := decode_prechecks (.inl hv) hs hd hapart (by omega)
  obtain ⟨apart, fits⟩ := decode_windows hp
  obtain ⟨c, hloop, hpos, progress⟩ := decodeLoop_symbols ht apart fits (bitsReadable_of_readsOk hlen hreads)
    (by rwa [hn]) symbols b (firstCursor s) [] (8 * s.srcLen.toNat - b.length) hb rfl (progress_start s) (by simp [hn])
    (Nat.zero_add _).le (fun k hk => by rw [firstCursor_bitpos, Nat.zero_add, hbits k hk])
  rw [Nat.add_sub_cancel' hlen] at hloop
  have completes := execDecode_completes hf hp hm hloop progress
  rwa [hpos.trans (Nat.zero_add _)] at completes

/-- Settles O39: the loop writes the root's symbol on each bit. -/
theorem decodeAtRootLeaf : Obligations.DecodeAtRootLeaf := by
  intro s hf hm hv hroot hs hd hapart hcap hlen hreads hwrites
  have hp := decode_prechecks (.inl hv) hs hd hapart hcap
  obtain ⟨apart, fits⟩ := decode_windows hp
  obtain ⟨c, hloop, hpos, progress⟩ := decodeLoop_repeat hroot apart fits (bitsReadable_of_readsOk hlen hreads) hwrites
    s.symCount.toNat (firstCursor s) [] (8 * s.srcLen.toNat - s.symCount.toNat) (progress_start s) (Nat.zero_add _) rfl
  rw [Nat.add_sub_cancel' hlen] at hloop
  have completes := execDecode_completes hf hp hm hloop progress
  rwa [hpos, List.nil_append, List.length_replicate] at completes

/-- Settles O40: the loop ends before its first bit, and its results are 0. -/
theorem decodeOfNoSymbols : Obligations.DecodeOfNoSymbols := by
  intro s hf ht h0 hs hd hapart
  have zero : s.symCount.toNat = 0 := by rw [h0]; rfl
  have held : s.treeState = .valid ∨ s.treeState = .empty ∧ s.symCount.toNat = 0 := by
    cases hts : s.treeState with
    | none => exact absurd hts ht
    | empty => exact .inr ⟨rfl, zero⟩
    | valid => exact .inl rfl
  have hloop : decodeAll s = .ok (firstCursor s) := decodeLoop_done zero.le _
  rw [execDecode_of_decodeAll hf (decode_prechecks held hs hd hapart (by omega)) hloop, firstCursor_bitpos]
  exact congrArg (fun n => Host.Outcome.next (okState n 0 0 s)) h0

/-! ### DECODE after ENCODE (R215) -/

/-- A command that completes without an error has passed its prechecks, and its run succeeded (40 R102, R107). -/
theorem exec_success {i : Instr} {s t : State} (h : exec i s = .next t) (hok : t.errCode = .none) :
    firstFailing (prechecks i s) = none ∧ ∃ r s', runOf i s = .ok (s', r) ∧ t = completeOk r s' := by
  rw [exec_eq_runCommand] at h
  rcases runCommand_next h with ⟨_, _, rfl⟩ | ⟨c, hc, rfl⟩ | ⟨_, hp, ⟨s', r, hr, rfl⟩ | ⟨c, w, hr, rfl⟩⟩
  · simp at hok
  · obtain rfl : c = .none := hok
    simpa using precheck_error hc
  · exact ⟨hp, r, s', hr, rfl⟩
  · obtain ⟨-, -, code, -⟩ := completeErr_frame (some i) c w s
    obtain rfl : c = .none := code.symm.trans hok
    simpa using run_error hr

/-- A source window all of whose bytes have codes in the table without entries is empty. -/
theorem eq_nil_of_codeStream_noCodes {l : List Byte} {b : Bits} (h : codeStream noCodes l = some b) : l = [] ∧ b = [] := by
  cases l with
  | nil => exact ⟨rfl, (Option.some.inj h).symm⟩
  | cons x xs => simp [codeStream] at h

/-- An ENCODE that completes without an error has packed the codes of its source window (44 R191). -/
theorem execEncode_ok {s t : State} (hm : memWf s.mem = true) (h : exec .encode s = .next t) (hok : t.errCode = .none) :
    s.ctValid = true ∧ ∃ b, codeStream s.code (bytesAt s.mem s.srcAddr.toNat s.srcLen.toNat) = some b ∧
      t.outLen.toNat = (b.length + 7) / 8 ∧ t.pad.toNat + b.length = 8 * ((b.length + 7) / 8) ∧
      bytesAt t.mem s.dstAddr.toNat ((b.length + 7) / 8) = pack b := by
  obtain ⟨hp, r, s', hrun, rfl⟩ := exec_success h hok
  obtain ⟨hv, -, hd, -⟩ := encode_ready hp
  refine ⟨hv, ?_⟩
  rcases runEncode_cases s with
    ⟨_, hr⟩ | ⟨_, ⟨_, hr⟩ | ⟨b, hb, ⟨_, hr⟩ | ⟨hcap, _, m, _, written, hr⟩ | ⟨_, _, hr⟩⟩⟩ <;>
    cases hrun.symm.trans hr
  have hlt := s.dstCap.isLt
  refine ⟨b, hb, ?_, pad_toNat_add b.length, (written hm (le_trans (Nat.add_le_add_left hcap _) hd)).2⟩
  show (BitVec.ofNat 32 _).toNat = _
  rw [BitVec.toNat_ofNat, Nat.mod_eq_of_lt (by omega)]

/-- Settles O38: the payload holds the tree's bits of the source, so O37 decodes it; with an EMPTY tree both are empty. -/
theorem decodeUndoesEncode : Obligations.DecodeUndoesEncode := by
  intro s t u hms hmu hfollow htree henc hok hfu htu hroot harena hne hpayload hlen hsym hcap hs hd hapart hreads hwrites
  obtain ⟨hv, b, hb, hout, hpad, hpack⟩ := execEncode_ok hms henc hok
  have derived := hfollow hv
  have hn : u.symCount.toNat = s.srcLen.toNat := by rw [hsym]
  cases hts : s.treeState with
  | none => exact absurd hts hne
  | empty =>
    rw [hts] at derived
    have table : noCodes = s.code := Option.some.inj derived
    rw [← table] at hb
    obtain ⟨source, rfl⟩ := eq_nil_of_codeStream_noCodes hb
    have zero : s.srcLen.toNat = 0 := by simpa [bytesAt] using congrArg List.length source
    have hsym0 : u.symCount = 0 := hsym.trans (BitVec.eq_of_toNat_eq zero)
    have out0 : t.outLen = 0 := BitVec.eq_of_toNat_eq hout
    have pad0 : t.pad = 0 := BitVec.eq_of_toNat_eq hpad
    refine ⟨u.mem, ?_, by rw [source, hsym0]; rfl, fun _ _ => rfl⟩
    rw [decodeOfNoSymbols u hfu (by rwa [htu]) hsym0 hs hd hapart, out0, pad0]
    exact congrArg (fun n => Host.Outcome.next (okState n 0 0 u)) hsym0.symm
  | valid =>
    obtain ⟨tree, ht⟩ := htree hts
    obtain ⟨code, hcode, codes⟩ := deriveCodes_valid ht
    rw [hts, hcode] at derived
    obtain rfl : code = s.code := Option.some.inj derived
    rw [codeStream_eq_bits codes] at hb
    have htu' : heldTree u = some tree := by rw [heldTree, hroot, harena]; exact ht
    have length : (bytesAt s.mem s.srcAddr.toNat s.srcLen.toNat).length = u.symCount.toNat := by simp [bytesAt, hn]
    rw [hout] at hpayload hlen hreads
    have bits (k : Nat) (hk : k < b.length) : payloadBit u.mem u.srcAddr.toNat k = b.getD k false :=
      payloadBit_pack (hpayload.trans hpack) (by omega)
    obtain ⟨m, used, pad, completes, hused, hpad', bytes, outside⟩ := decodeInvertsTheCodes u tree _ b hfu hmu
      (htu.trans hts) htu' hb hs hd hapart length.symm (by omega) (by omega) hreads (by rwa [length]) bits
    obtain rfl : used = t.outLen := BitVec.eq_of_toNat_eq (by omega)
    obtain rfl : pad = t.pad := BitVec.eq_of_toNat_eq (by omega)
    rw [length] at bytes outside
    exact ⟨m, completes, bytes, outside⟩

/-! ### The errors after the prechecks (R213, 20_memory.md R62) -/

theorem bitsReadable_all {s : State} {k : Nat} (hk : k ≤ s.srcLen.toNat) (h : ReadsOk s s.srcAddr.toNat k) :
    BitsReadable s (8 * k) :=
  ⟨Nat.mul_le_mul_left 8 hk, fun _ hi => h _ (Nat.lt_of_mul_lt_mul_left hi)⟩

/-- A loop with fewer bits than symbols to write runs out of bits, since each symbol takes at least one (R213). -/
theorem decodeLoop_too_few_bits {s : State} (apart : Apart s) (fits : s.dstAddr.toNat + s.symCount.toNat ≤ Config.dmaSize)
    {last : Nat} (hr : BitsReadable s last) (hw : WritesOk s s.dstAddr.toNat s.symCount.toNat) :
    ∀ (n : Nat) (c : Cursor) (done : List Byte), Progress s c done → c.bitpos + n ≤ last →
      done.length + n < s.symCount.toNat → decodeLoop s n c = .error (.raised .payloadUnderrun false)
  | 0, c, done, hp, _, hl => decodeLoop_underrun (by rw [hp.written]; exact hl)
  | n + 1, c, done, hp, hb, hl => by
    rw [decodeLoop_turn hp apart (by omega) hr (by omega) n]
    rcases turn s c.cur (payloadBit s.mem s.srcAddr.toNat c.bitpos) with ⟨cur, _ | sym⟩
    · exact decodeLoop_too_few_bits apart fits hr hw n _ done (progress_skip hp cur rfl)
        (by simp only [Cursor.skip]; omega) (by omega)
    · simp only [hw _ (show done.length < s.symCount.toNat by omega), if_true]
      exact decodeLoop_too_few_bits apart fits hr hw n _ _ (progress_put hp rfl (by omega))
        (by simp only [Cursor.put]; omega) (by simp only [List.length_append, List.length_singleton]; omega)

/-- A loop whose first `n` bits can be read and hold no more than `j` symbols comes to bit `n` with a symbol to write. -/
theorem decodeAll_reaches {s : State} {tree : CodeTree} {n j : Nat} (ht : heldTree s = some tree) (apart : Apart s)
    (fits : s.dstAddr.toNat + s.symCount.toNat ≤ Config.dmaSize) (hr : BitsReadable s n) (hj : j < s.symCount.toNat)
    (hw : WritesOk s s.dstAddr.toNat j) (h : tree.readSymbols (j + 1) (payloadBits s.mem s.srcAddr.toNat n) = none) :
    ∃ c, decodeAll s = decodeLoop s (8 * s.srcLen.toNat - n) c ∧ c.written < s.symCount.toNat ∧ c.bitpos = n := by
  obtain ⟨c, done, hloop, progress, hl, hpos⟩ := decodeLoop_runs_out ht apart fits hr (8 * s.srcLen.toNat - n) j _
    (firstCursor s) [] h rfl (progress_start s) (by simpa using hj) (fun k hk => hw k (by simpa using hk)) (by simp)
    (payloadBits_from s n)
  rw [payloadBits_length, Nat.add_sub_cancel' hr.1] at hloop
  exact ⟨c, hloop, progress.written.trans_lt hl, by simpa using hpos⟩

/-- A payload that holds no more than `j` symbols (R213). -/
theorem decodeAll_underrun {s : State} {tree : CodeTree} {j : Nat} (ht : heldTree s = some tree) (apart : Apart s)
    (fits : s.dstAddr.toNat + s.symCount.toNat ≤ Config.dmaSize) (hr : ReadsOk s s.srcAddr.toNat s.srcLen.toNat)
    (hj : j < s.symCount.toNat) (hw : WritesOk s s.dstAddr.toNat j)
    (h : tree.readSymbols (j + 1) (payloadBits s.mem s.srcAddr.toNat (8 * s.srcLen.toNat)) = none) :
    decodeAll s = .error (.raised .payloadUnderrun false) := by
  obtain ⟨c, hloop, hl, -⟩ := decodeAll_reaches ht apart fits (bitsReadable_all le_rfl hr) hj hw h
  rw [hloop, Nat.sub_self, decodeLoop_underrun hl]

/-- A byte that a symbol needs and that cannot be read (R211). -/
theorem decodeAll_readBusError {s : State} {tree : CodeTree} {k j : Nat} (ht : heldTree s = some tree) (apart : Apart s)
    (fits : s.dstAddr.toNat + s.symCount.toNat ≤ Config.dmaSize) (hk : k < s.srcLen.toNat) (hj : j < s.symCount.toNat)
    (hr : ReadsOk s s.srcAddr.toNat k) (hw : WritesOk s s.dstAddr.toNat j)
    (h : tree.readSymbols (j + 1) (payloadBits s.mem s.srcAddr.toNat (8 * k)) = none)
    (hbus : busOk s.busHoles (s.srcAddr.toNat + k) .read = false) : decodeAll s = .error (.raised .busError false) := by
  obtain ⟨c, hloop, hl, hpos⟩ := decodeAll_reaches ht apart fits (bitsReadable_all hk.le hr) hj hw h
  obtain ⟨rest, hrest⟩ : ∃ rest, 8 * s.srcLen.toNat - 8 * k = rest + 1 := ⟨8 * s.srcLen.toNat - 8 * k - 1, by omega⟩
  have hbyte : c.bitpos / 8 = k := by omega
  rw [hloop, hrest, decodeLoop_succ hl, decodeBit_readBusError (by omega) (by rwa [hbyte])]
  rfl

/-- A symbol that the payload holds and that cannot be written (R210). -/
theorem decodeAll_writeBusError {s : State} {tree : CodeTree} {n j : Nat} {e : List Byte × Bits}
    (ht : heldTree s = some tree) (apart : Apart s) (fits : s.dstAddr.toNat + s.symCount.toNat ≤ Config.dmaSize)
    (hr : BitsReadable s n) (hj : j < s.symCount.toNat) (hw : WritesOk s s.dstAddr.toNat j)
    (h : tree.readSymbols (j + 1) (payloadBits s.mem s.srcAddr.toNat n) = some e)
    (hbus : busOk s.busHoles (s.dstAddr.toNat + j) .write = false) : decodeAll s = .error (.raised .busError true) := by
  have hloop := decodeLoop_write_fails ht apart fits hr (8 * s.srcLen.toNat - n) j _ (firstCursor s) [] e h rfl
    (progress_start s) (by simpa using hj) (fun k hk => hw k (by simpa using hk)) (by simpa using hbus) (by simp)
    (payloadBits_from s n)
  rwa [payloadBits_length, Nat.add_sub_cancel' hr.1] at hloop

/-- Settles O41: the loop raises the error, and the error completion spoils the destination window. -/
theorem decodeRaisesUnderrunOrBusError : Obligations.DecodeRaisesUnderrunOrBusError := by
  intro s c hf hv hs hd hapart hcap bits error
  have hp := decode_prechecks (.inl hv) hs hd hapart hcap
  obtain ⟨apart, fits⟩ := decode_windows hp
  rcases error with ⟨rfl, hreads, ⟨hfew, hwrites⟩ | ⟨tree, j, ht, hj, hwrites, hbits⟩⟩ |
    ⟨rfl, tree, k, j, ht, hk, hj, hreads, hwrites, hbits, hbus⟩ |
    ⟨rfl, tree, n, j, e, ht, hn, hj, hreads, hwrites, hbits, hbus⟩
  · exact execDecode_fails hf hp (.inl rfl) (decodeLoop_too_few_bits apart fits (bitsReadable_all le_rfl hreads)
      (fun k hk => hwrites k (hk.trans_le hcap)) _ _ [] (progress_start s) (Nat.zero_add _).le (by simpa using hfew))
  · exact execDecode_fails hf hp (.inl rfl) (decodeAll_underrun ht apart fits hreads hj hwrites hbits)
  · exact execDecode_fails hf hp (.inr rfl) (decodeAll_readBusError ht apart fits hk hj hreads hwrites hbits hbus)
  · exact execDecode_fails hf hp (.inr rfl)
      (decodeAll_writeBusError ht apart fits (bitsReadable_of_readsOk hn hreads) hj hwrites hbits hbus)

/-! ### Two loops abreast (R214) -/

/-- A loop over `s` and one over the same state with the memory `mem'` have consumed the same number of bits, written the same
symbols, and stand at the same node. -/
structure Abreast (s : State) (mem' : List Host.Cell) (c c' : Cursor) (done : List Byte) : Prop where
  bitpos : c'.bitpos = c.bitpos
  cur : c'.cur = c.cur
  first : Progress s c done
  second : Progress { s with mem := mem' } c' done

/-- On the same bit both loops take the same turn. -/
theorem decodeBit_abreast {s : State} {mem' : List Host.Cell} (apart : Apart s)
    (fits : s.dstAddr.toNat + s.symCount.toNat ≤ Config.dmaSize) {c c' c₁ : Cursor} {done : List Byte}
    (both : Abreast s mem' c c' done) (hl : done.length < s.symCount.toNat) (hb : c.bitpos < 8 * s.srcLen.toNat)
    (hbit : payloadBit mem' s.srcAddr.toNat c.bitpos = payloadBit s.mem s.srcAddr.toNat c.bitpos)
    (h : decodeBit s c = .ok c₁) :
    ∃ c₁' done₁, decodeBit { s with mem := mem' } c' = .ok c₁' ∧ Abreast s mem' c₁ c₁' done₁ := by
  obtain ⟨bitpos, cur, first, second⟩ := both
  have readable : c.bitpos % 8 = 0 → busOk s.busHoles (s.srcAddr.toNat + c.bitpos / 8) .read = true := by
    intro h0
    by_contra hbus
    cases h.symm.trans (decodeBit_readBusError h0 (Bool.eq_false_of_not_eq_true hbus))
  have run := decodeBit_run first apart hl hb readable
  have run' := decodeBit_run second apart hl (by rwa [bitpos]) (by rwa [bitpos])
  simp only [bitpos, cur, hbit] at run'
  have sameTurn : turn { s with mem := mem' } = turn s := rfl
  rw [sameTurn] at run'
  rcases hturn : turn s c.cur (payloadBit s.mem s.srcAddr.toNat c.bitpos) with ⟨next, _ | sym⟩ <;>
    simp only [hturn] at run run'
  · cases h.symm.trans run
    exact ⟨_, done, run', congrArg (· + 1) bitpos, rfl, progress_skip first next rfl,
      progress_skip second next (by rw [bitpos])⟩
  · by_cases hw : busOk s.busHoles (s.dstAddr.toNat + done.length) .write = true
    · rw [if_pos hw] at run run'
      cases h.symm.trans run
      exact ⟨_, done ++ [sym], run', congrArg (· + 1) bitpos, rfl, progress_put first rfl (by omega),
        progress_put second (by rw [bitpos]) (by show s.dstAddr.toNat + _ < _; omega)⟩
    · rw [if_neg hw] at run
      cases h.symm.trans run

theorem Abreast.written {s : State} {mem' : List Host.Cell} {c c' : Cursor} {done : List Byte}
    (both : Abreast s mem' c c' done) : c'.written = c.written :=
  both.second.written.trans both.first.written.symm

/-- On the same bits both loops succeed with the same symbols. -/
theorem decodeLoop_abreast {s : State} {mem' : List Host.Cell} (apart : Apart s)
    (fits : s.dstAddr.toNat + s.symCount.toNat ≤ Config.dmaSize) {last : Cursor}
    (hbits : ∀ k, k < last.bitpos → payloadBit mem' s.srcAddr.toNat k = payloadBit s.mem s.srcAddr.toNat k)
    (n : Nat) (c c' : Cursor) (done : List Byte) (both : Abreast s mem' c c' done)
    (hb : c.bitpos + n ≤ 8 * s.srcLen.toNat) (h : decodeLoop s n c = .ok last) :
    ∃ last' symbols, decodeLoop { s with mem := mem' } n c' = .ok last' ∧ Abreast s mem' last last' symbols := by
  by_cases hl : c.written < s.symCount.toNat
  · cases n with
    | zero => cases h.symm.trans (decodeLoop_underrun hl)
    | succ n =>
      rw [decodeLoop_succ hl] at h
      rw [decodeLoop_succ (s := { s with mem := mem' }) (both.written.trans_lt hl)]
      cases hturn : decodeBit s c with
      | error e => simp [hturn, Except.bind] at h
      | ok c₁ =>
        have hloop : decodeLoop s n c₁ = .ok last := by rwa [hturn] at h
        obtain ⟨hpos, hwritten⟩ := decodeBit_ok hturn
        obtain ⟨-, consumed, -⟩ := decodeLoop_ok (by omega) hloop
        obtain ⟨c₁', done₁, hturn', both₁⟩ := decodeBit_abreast apart fits both (by rwa [← both.first.written])
          (by omega) (hbits _ (by omega)) hturn
        rw [hturn']
        exact decodeLoop_abreast apart fits hbits n c₁ c₁' done₁ both₁ (by omega) hloop
  · cases h.symm.trans (decodeLoop_done (not_lt.1 hl) n)
    exact ⟨c', done, decodeLoop_done (s := { s with mem := mem' }) ((not_lt.1 hl).trans both.written.ge) n, both⟩

/-- A DECODE that completes without an error: its loop succeeded. -/
theorem execDecode_ok {s t : State} (h : exec .decode s = .next t) (hok : t.errCode = .none) :
    firstFailing (prechecks .decode s) = none ∧ ∃ c, decodeAll s = .ok c ∧
      t = okState s.symCount (BitVec.ofNat 32 ((c.bitpos + 7) / 8))
        (BitVec.ofNat 3 (8 * ((c.bitpos + 7) / 8) - c.bitpos)) { s with mem := c.mem } := by
  obtain ⟨hp, r, s', hrun, rfl⟩ := exec_success h hok
  refine ⟨hp, ?_⟩
  rw [show runOf .decode s = _ from runDecode_eq s] at hrun
  cases hloop : decodeAll s with
  | error e => simp [hloop, Except.bind] at hrun
  | ok c =>
    rw [hloop] at hrun
    cases hrun
    exact ⟨c, rfl, rfl⟩

/-- Settles O42: the loop over the other memory goes abreast of the one that succeeded. -/
theorem decodeIgnoresUnreadBits : Obligations.DecodeIgnoresUnreadBits := by
  intro s t mem' hm hm' hf h hok hbits
  obtain ⟨hp, c, hloop, rfl⟩ := execDecode_ok h hok
  obtain ⟨apart, fits⟩ := decode_windows hp
  obtain ⟨written, hlen⟩ := decodeAll_ok hloop
  rw [okState_inUsed, okState_pad, inUsed_toNat hlen] at hbits
  have hpad := pad_toNat_add c.bitpos
  obtain ⟨c', done, hloop', both⟩ := decodeLoop_abreast apart fits (fun k hk => hbits k (by omega)) (8 * s.srcLen.toNat)
    (firstCursor s) (firstCursor { s with mem := mem' }) [] ⟨rfl, rfl, progress_start s, progress_start _⟩
    (Nat.zero_add _).le hloop
  refine ⟨c'.mem, ?_, ?_⟩
  · rw [execDecode_of_decodeAll (s := { s with mem := mem' }) hf hp hloop', both.bitpos]
    rfl
  · rw [← written, both.first.written]
    exact (both.second.bytes hm').trans (both.first.bytes hm).symm

end Sys2Proof.Machine
end

section
/-! # Control (46_control.md)

The statement about SOFT_RESET. Its one completion, `execSoftReset_eq`, differs from the reset values in DONE alone, and CTRL.IE
at its reset value keeps IRQ low. -/

namespace Sys2Proof.Machine

/-- Without CTRL.IE the interrupt line is low, DONE or not. -/
theorem irq_eq_false_of_ie {s : State} (h : s.ie = false) : s.irq = false := by
  rw [State.irq, h, Bool.and_false]

/-- Settles O43: the one completion of SOFT_RESET is that of `blockReset`, and its zero results are the reset values. -/
theorem softResetRestoresResetValues : Obligations.SoftResetRestoresResetValues := by
  intro s
  refine ⟨State.reset.arena, execSoftReset_eq s, fun t h => ?_⟩
  cases h.symm.trans (execSoftReset_eq s)
  exact irq_eq_false_of_ie rfl

end Sys2Proof.Machine
end

section
/-! # Exceptions (60_exceptions.md)

The statement about FATAL. A command's error code gives FATAL through `completeErr_frame`; a step raises FATAL only by CORE's
move, where `exec_fatal_cases` says which command it was. -/

namespace Sys2Proof.Machine

/-- A command that completes with INTERNAL_INVARIANT leaves FATAL set (R243). -/
theorem exec_internalInvariant_sets_fatal {i : Instr} {s t : State} (h : exec i s = .next t)
    (hc : t.errCode = .internalInvariant) : t.fatal = true := by
  rcases exec_completion h with ⟨r, s', rfl⟩ | ⟨c, w, -, rfl⟩
  · simp at hc
  · obtain ⟨-, -, code, -, -, -, -, fatal, -⟩ := completeErr_frame (some i) c w s
    obtain rfl : c = .internalInvariant := code.symm.trans hc
    simp [fatal]

/-- A move of CORE that raises FATAL executes ENCODE and ends with INTERNAL_INVARIANT (R243, 40 R108). -/
theorem coreStep_raises_fatal {s t : State} (h : coreStep s = .next t) (hs : s.fatal = false) (ht : t.fatal = true) :
    t.errCode = .internalInvariant ∧ s.pending = some (encode .encode) := by
  rcases coreStep_next h with ⟨rfl, _⟩ | ⟨_, i, hp, he⟩ | ⟨_, _, _, _, rfl⟩
  · simp [hs] at ht
  · rcases exec_fatal_cases he with ⟨_, hno⟩ | ⟨hf, _⟩ | ⟨_, hno⟩ | ⟨_, rfl, _, hc⟩
    · simp [hno] at ht
    · simp [hs] at hf
    · simp [hno] at ht
    · exact ⟨hc, hp⟩
  · simp [hs] at ht

/-- Only CORE's move raises FATAL: reset's assertion clears it, and HOST's accesses leave it alone (R243, 10 R32). -/
theorem step_raises_fatal {s t : State} (h : step s = .next t) (hs : s.fatal = false) (ht : t.fatal = true) :
    t.errCode = .internalInvariant ∧ s.pending = some (encode .encode) := by
  rcases step_core_or_reset_or_frame h with ⟨inputs, hc⟩ | ⟨rest, _, rfl⟩ | frame
  · exact coreStep_raises_fatal (s := { s with inputs := inputs }) hc hs ht
  · cases ht
  · simp [frame.fatal, hs] at ht

/-- Settles O15: the error completion sets FATAL with the code, CORE's ENCODE alone raises it, and the lock leaves
SOFT_RESET, whose one completion clears it. -/
theorem onlyInternalInvariantSetsFatal : Obligations.OnlyInternalInvariantSetsFatal := by
  refine ⟨fun i s t => exec_internalInvariant_sets_fatal, fun s t => step_raises_fatal, fun i s hf => ⟨?_, ?_⟩⟩
  · by_cases hi : i = .softReset
    · exact .inr hi
    · exact .inl (lockedCommandsChangeNothingElse i s hf hi)
  · exact ⟨_, execSoftReset_eq s, rfl⟩

end Sys2Proof.Machine
end

section
/-! # Reset and hazards (70_reset_and_hazards.md)

The statements about hardware reset (R270) and about writes while BUSY (R281). What a step can do to a block whose reset is
asserted is said once (`step_reset_cases`). -/

namespace Sys2Proof.Machine

/-! ### A block held in reset (R270) -/

/-- CORE does nothing to a block in reset, and no command asserts reset. -/
theorem coreStep_reset_cases {s t : State} (h : coreStep s = .next t) : t = s ∨ t.inReset = false := by
  rcases coreStep_next h with ⟨same, _⟩ | ⟨hr, i, _, he⟩ | ⟨hr, _, _, _, rfl⟩
  · exact .inl same
  · obtain ⟨-, -, -, -, inReset, -⟩ := commandsKeepOperandsAndFreq i s t he
    exact .inr (inReset.trans hr)
  · exact .inr hr

theorem hostRead_inReset (off : Nat) (s : State) : (hostRead off s).inReset = s.inReset := by
  obtain ⟨_, _, _, h⟩ := hostRead_eq off s
  rw [h]

theorem hostWrite_inReset (off : Nat) (v : Word) (s : State) : (hostWrite off v s).inReset = s.inReset := by
  rcases hostWrite_cases off v s with ⟨_, h⟩ | ⟨_, h | ⟨_, _, _, _, _, _, _, _, h⟩⟩ <;> rw [h]
  rfl

/-- A step leaves the block out of reset, changes nothing of the block, or asserts reset. -/
theorem step_reset_cases {s t : State} (h : step s = .next t) :
    t.inReset = false ∨ (∃ inputs mem reply, t = { s with inputs := inputs, mem := mem, reply := reply }) ∨
      ∃ rest, t = assertReset { s with inputs := rest } := by
  cases step_next h with
  | core inputs h =>
    rcases coreStep_reset_cases h with rfl | released
    · exact .inr (.inl ⟨inputs, s.mem, s.reply, rfl⟩)
    · exact .inl released
  | read inputs off hr h => exact .inl (by rw [h, hostRead_inReset]; exact hr)
  | write inputs off v hr _ h => exact .inl (by rw [h, hostWrite_inReset]; exact hr)
  | memRead inputs a h => exact .inr (.inl ⟨inputs, s.mem, _, h⟩)
  | memWrite inputs a v h => exact .inr (.inl ⟨inputs, _, s.reply, h⟩)
  | resetAssert inputs _ h => exact .inr (.inr ⟨inputs, h⟩)
  | resetRelease inputs h => exact .inl (by rw [h, releaseReset_inReset])

/-- The reset values are those of the block alone (R46): events, memory and replies do not matter. -/
theorem heldInReset_of_outside {s : State} (held : HeldInReset s) (inputs : List Event) (mem : List Host.Cell)
    (reply : Option Reply) : HeldInReset { s with inputs := inputs, mem := mem, reply := reply } := fun hr =>
  congrArg (fun u : State => { u with inputs := inputs, mem := mem, reply := reply }) (held hr)

theorem heldInReset_assertReset (s : State) : HeldInReset (assertReset s) := fun _ => by
  obtain ⟨m, draws, h, -⟩ := assertReset_eq s
  rw [h]
  rfl

/-- Settles O60, by what a step can do to a block in reset. -/
theorem stepKeepsHeldInReset : Obligations.StepKeepsHeldInReset := by
  intro s t held h
  rcases step_reset_cases h with released | ⟨inputs, mem, reply, rfl⟩ | ⟨rest, rfl⟩
  · intro hr
    simp [released] at hr
  · exact heldInReset_of_outside held inputs mem reply
  · exact heldInReset_assertReset _

/-! ### Asserting and releasing reset (R270) -/

theorem usesDst_iff (i : Instr) : usesDst i = true ↔ i = .serialize ∨ i = .encode ∨ i = .decode := by
  cases i <;> simp [usesDst]

/-- With no SERIALIZE, ENCODE or DECODE pending there is no destination window for reset to spoil (log entry 10). -/
theorem pendingUsesDst_eq_false {s : State}
    (h : ∀ i, s.pending = some (encode i) → i ≠ .serialize ∧ i ≠ .encode ∧ i ≠ .decode) : pendingUsesDst s = false := by
  cases hp : s.pendingInstr with
  | none => simp [pendingUsesDst, hp]
  | some i =>
    have noWindow : usesDst i = false := by
      rw [Bool.eq_false_iff, Ne, usesDst_iff]
      simpa only [not_or] using h i (pendingInstr_some hp)
    simp [pendingUsesDst, hp, noWindow]

theorem step_resetAssert (s : State) : step { s with inputs := .resetAssert :: s.inputs } = .next (assertReset s) := rfl

/-- Settles O45: the assertion by `assertReset_eq`; a register access asks for reset before anything else (log entry 8). -/
theorem hardwareReset : Obligations.HardwareReset := by
  intro s
  refine ⟨?_, fun hr bytes off v => ?_, rfl⟩
  · obtain ⟨m, draws, heq, outside, same, -⟩ := assertReset_eq s
    refine ⟨State.reset.arena, m, draws, ?_, outside, fun hno => same (pendingUsesDst_eq_false hno)⟩
    rw [step_resetAssert, heq]
    rfl
  · rw [step_host, step_host]
    simp [hostStep, hr]

/-! ### Writes while BUSY (R281) -/

/-- Settles O6: the write reaches the window, where BUSY is asked before the offset. -/
theorem writesWhileBusyAreIgnored : Obligations.WritesWhileBusyAreIgnored := by
  intro s w v off hr hp h hlt
  have busy : s.busy = true := by simp [State.busy, hp]
  rw [step_regWrite hr h hlt, hostWrite, if_pos busy]

end Sys2Proof.Machine
end
